-- ==== Sys2Proof/Word.lean ====
section
/-!
DEFINITION. The words of the block: bytes, ports, addresses, slot indices, nibbles and the 256-byte
configuration space (spec 00_scope.md R11, R14; 10_state.md R40, R51). Bit 0 is the least significant bit.
-/

namespace Sys2Proof

/-- One byte. -/
abbrev Byte := BitVec 8

/-- A permission nibble, 0..15 (10_state.md R45). -/
abbrev Nibble := BitVec 4

/-- A 16-bit I/O port number (10_state.md R51). -/
abbrev Port := BitVec 16

/-- A 32-bit data word, and the width of the configuration address register. -/
abbrev Word := BitVec 32

/-- A 32-bit physical memory address (10_state.md R51). -/
abbrev Addr := BitVec 32

/-- A slot index `device*8 + function`, 0..255 (10_state.md R41). -/
abbrev SlotIndex := BitVec 8

/-- An offset inside one configuration space, 0..255 (10_state.md R52). -/
abbrev Offset := BitVec 8

/-- A shadow-RAM region index, 0..15 (10_state.md R45). -/
abbrev Region := BitVec 4

/-- A configuration space: a fixed buffer of 256 bytes, indexed by register offset (10_state.md R40). -/
abbrev CfgSpace := Vector Byte 256

end Sys2Proof
end

