-- ==== Sys2Proof/Config.lean ====
section
/-!
DEFINITION. What the spec leaves open: the implementation parameters of 00_scope.md R10, and the free
values the model draws. Each is a constant without a body, so a claim about the model holds for every
value of it. Where R10 gives a constraint, the parameter is built from the free constant so that the
constraint holds and every value that meets it is still possible.
-/

namespace Sys2Proof

/-- The write classes an open table may hold (41_device_models.md R172, R188): RAW, RO, `MASK(w, f)`
and `W1C(m)`. RAW stands first because it is the spec's reference choice (R188). -/
inductive PlainClass
  | raw
  | ro
  | mask (w f : Byte)
  | w1c (m : Byte)
  deriving DecidableEq, Repr, Inhabited

namespace Config

/-! ### Default images (R10 IMG_*, 41_device_models.md R189) -/

/-- Byte `o` of IMG_HB, for `o < 128`. -/
opaque imgHbByte : Nat → Byte

/-- Byte `o` of IMG_ISA, for `o < 192`. -/
opaque imgIsaByte : Nat → Byte

/-- Byte `o` of IMG_IDE, for `o < 64` outside 0x20..0x23. -/
opaque imgIdeByte : Nat → Byte

/-! ### Open write-class tables (R10 WCLASS_*, 41_device_models.md R188) -/

/-- The raw entries of WCLASS_HB. -/
opaque hbTable : Offset → PlainClass

/-- The raw entries of WCLASS_ISA. -/
opaque isaTable : Offset → PlainClass

/-- The raw entries of WCLASS_IDE. -/
opaque ideTable : Offset → PlainClass

/-! ### Command and status masks (R10) -/

/-- The bits HB_CMD_FIXED is taken from. -/
opaque hbCmdFixedBits : Byte

/-- ISA_CMD_WMASK. -/
opaque isaCmdWmask : Byte

/-- The bits ISA_CMD_FIXED is taken from. -/
opaque isaCmdFixedBits : Byte

/-- IDE_CMD_WMASK. -/
opaque ideCmdWmask : Byte

/-- The bits IDE_CMD_FIXED is taken from. -/
opaque ideCmdFixedBits : Byte

/-- ISA_STS_CLEAR_MASK. -/
opaque isaStsClearMask : Byte

/-! ### IRQ routing (R10 IRQ_ROUTE, 43_prdt_irq.md R251) -/

/-- The offset of a slot's PCI interrupt-pin byte. -/
opaque irqPinOffset : SlotIndex → Offset

/-- The offsets of the ISA bridge's programmable pin-to-IRQ-line map. -/
opaque irqMapOffsets : List Offset

/-- The routing itself: slot, its pin byte, the bytes of the ISA bridge's map (`none` while there is no
ISA bridge) to a legacy IRQ number 0..15 or no line. -/
opaque irqRoute : SlotIndex → Byte → Option (List Byte) → Option (BitVec 4)

/-! ### Window contents and generic devices -/

/-- SHADOW_INIT: the byte of backing RAM at a window address before anything is written
(10_state.md R47). -/
opaque shadowInit : Nat → Byte

/-- GENERIC_ICPT (41_device_models.md R190): for a generic model `g` at a slot, its configuration
space, an offset and a byte; `some` is `Handled`, `none` is `Unhandled`. -/
opaque genericIcpt : Nat → SlotIndex → CfgSpace → Offset → Byte → Option CfgSpace

/-! ### Free values -/

/-- The value the external IDE PRDT logic returns: draw number, window offset, size in bytes
(43_prdt_irq.md R246; 93_implementation_defined.md U14). -/
opaque forwardRead : Nat → BitVec 4 → Nat → Word

/-- The byte some other component supplies for an address outside the window inside a wide window read:
draw number, address (42_shadow_ram.md R222; U16). -/
opaque outsideByte : Nat → Nat → Byte

/-- The value of BAR4 while slot 9 is empty, for which the spec states nothing: draw number. -/
opaque unplacedBar4 : Nat → Word

end Config
end Sys2Proof
end

