-- ==== Sys2Proof/Syntax.lean ====
section
/-!
DEFINITION. The requests of the block as abstract syntax: one constructor of `Instr` per row of
spec/opcode_table.json, with the operands of 30_encoding.md R106 and the request rules, and the raw
request (a 64-bit transaction descriptor with its operands) that a decoder reads (R101).
-/

namespace Sys2Proof

/-- The device kinds (10_state.md R39): `generic g` names a generic device model. -/
inductive Kind
  | hostBridge
  | isaBridge
  | ideController
  | generic (g : Nat)
  deriving DecidableEq, Repr

/-- The persisted record (44_control.md R267): `addr`, `cyc`, the 16 `pam` bytes and one 256-byte
image per listed slot. -/
structure Record where
  addr : Word
  cyc : Bool
  pam : Vector Byte 16
  dev : Vector (Option CfgSpace) 256
  deriving DecidableEq, Repr

/-- The record of zeros that lists no slot. -/
def Record.zero : Record :=
  { addr := 0, cyc := false, pam := Vector.replicate 16 0, dev := Vector.replicate 256 none }

/-- The requests of the block, one constructor per row of the opcode table (30_encoding.md R120). -/
inductive Instr
  -- configuration address register (40_config_cycle.md R140-R145)
  | cfgAddrW8 (port : Port) (data : BitVec 8)
  | cfgAddrW16 (port : Port) (data : BitVec 16)
  | cfgAddrW32 (port : Port) (data : BitVec 32)
  | cfgAddrR8 (port : Port)
  | cfgAddrR16 (port : Port)
  | cfgAddrR32 (port : Port)
  -- configuration data window (40_config_cycle.md R146-R151)
  | cfgDataW8 (port : Port) (data : BitVec 8)
  | cfgDataW16 (port : Port) (data : BitVec 16)
  | cfgDataW32 (port : Port) (data : BitVec 32)
  | cfgDataR8 (port : Port)
  | cfgDataR16 (port : Port)
  | cfgDataR32 (port : Port)
  -- memory window (42_shadow_ram.md R221-R226)
  | shadowR8 (addr : Addr)
  | shadowR16 (addr : Addr)
  | shadowR32 (addr : Addr)
  | shadowW8 (addr : Addr) (data : BitVec 8)
  | shadowW16 (addr : Addr) (data : BitVec 16)
  | shadowW32 (addr : Addr) (data : BitVec 32)
  -- IDE PRDT window (43_prdt_irq.md R246, R247)
  | prdtR8 (port : Port)
  | prdtR16 (port : Port)
  | prdtR32 (port : Port)
  | prdtW8 (port : Port) (data : BitVec 8)
  | prdtW16 (port : Port) (data : BitVec 16)
  | prdtW32 (port : Port) (data : BitVec 32)
  -- host operations (44_control.md R261-R269, 43_prdt_irq.md R250)
  | ctlCreateDevice (bus device function : Word) (kind : Kind)
  | ctlGetConfigPtr (bus device function : Word)
  | ctlCopyDefault (slot : SlotIndex) (image : List Byte) (size : Nat)
  | ctlReset
  | ctlSave
  | ctlRestore (record : Record)
  | ctlSetIrqLine (deviceIndex level : Word)
  | ctlInit
  deriving DecidableEq, Repr

/-- The operands that travel beside a descriptor: WDATA (30_encoding.md R101) and the fields of the
control operand records (R106). A request uses the fields its row names and no other. -/
structure RequestOperands where
  wdata : Word := 0
  bus : Word := 0
  device : Word := 0
  function : Word := 0
  kind : Kind := .hostBridge
  slot : SlotIndex := 0
  image : List Byte := []
  size : Nat := 0
  record : Record := Record.zero
  deviceIndex : Word := 0
  level : Word := 0
  deriving DecidableEq, Repr

/-- A request as it arrives: the transaction descriptor TD and its operands (30_encoding.md R101). -/
structure Request where
  td : BitVec 64
  operands : RequestOperands
  deriving DecidableEq, Repr

end Sys2Proof
end

