-- ==== Sys2Proof/WellFormed.lean ====
section
/-!
DEFINITION. Which requests the encoding can spell: the port and address conditions of 30_encoding.md
R120 on each constructor. Control operands are not restricted: out-of-range ones "can be written down"
(R106) and are judged when the request is performed.
-/

namespace Sys2Proof

/-- A start port of the configuration address register, 0xCF8..0xCFB (R107). -/
def isAddrPort (p : Port) : Bool := p &&& 0xFFFC#16 == 0x0CF8#16

/-- A start port of the configuration data window, 0xCFC..0xCFF (R107). -/
def isDataPort (p : Port) : Bool := p &&& 0xFFFC#16 == 0x0CFC#16

/-- An address of the memory window, 0xC0000..0xFFFFF (R107). -/
def inWindow (a : Addr) : Bool := a &&& 0xFFFC0000#32 == 0x000C0000#32

/-- The address conditions of R120: whether some descriptor spells this request. A PRDT port is any port
that the two configuration rows, which take priority, do not claim (R107). -/
def WellFormed : Instr → Bool
  | .cfgAddrW8 p _ => isAddrPort p
  | .cfgAddrW16 p _ => isAddrPort p
  | .cfgAddrW32 p _ => isAddrPort p
  | .cfgAddrR8 p => isAddrPort p
  | .cfgAddrR16 p => isAddrPort p
  | .cfgAddrR32 p => isAddrPort p
  | .cfgDataW8 p _ => isDataPort p
  | .cfgDataW16 p _ => isDataPort p
  | .cfgDataW32 p _ => isDataPort p
  | .cfgDataR8 p => isDataPort p
  | .cfgDataR16 p => isDataPort p
  | .cfgDataR32 p => isDataPort p
  | .shadowR8 a => inWindow a
  | .shadowR16 a => inWindow a
  | .shadowR32 a => inWindow a
  | .shadowW8 a _ => inWindow a
  | .shadowW16 a _ => inWindow a
  | .shadowW32 a _ => inWindow a
  | .prdtR8 p => !isAddrPort p && !isDataPort p
  | .prdtR16 p => !isAddrPort p && !isDataPort p
  | .prdtR32 p => !isAddrPort p && !isDataPort p
  | .prdtW8 p _ => !isAddrPort p && !isDataPort p
  | .prdtW16 p _ => !isAddrPort p && !isDataPort p
  | .prdtW32 p _ => !isAddrPort p && !isDataPort p
  | .ctlCreateDevice _ _ _ _ => true
  | .ctlGetConfigPtr _ _ _ => true
  | .ctlCopyDefault _ _ _ => true
  | .ctlReset => true
  | .ctlSave => true
  | .ctlRestore _ => true
  | .ctlSetIrqLine _ _ => true
  | .ctlInit => true

end Sys2Proof
end

