-- ==== Sys2Proof/Machine/Operands.lean ====
section
/-!
DEFINITION. Every operand form and field the spec gives: byte lanes, the fields of `CA`, the
configuration target, window regions, PAM nibbles, BAR4 and the binding base, slot indices.
-/

namespace Sys2Proof.Machine

/-! ### Bytes of words (00_scope.md R14, 20_memory.md R71) -/

/-- Bits 7:0 of a word. -/
def lowByte (v : Word) : Byte := v.setWidth 8

/-- A word from its low byte and the word of the bytes above it. -/
def joinByte (b : Byte) (rest : Word) : Word := b.setWidth 32 ||| (rest <<< 8)

/-- The low `n` bytes of a word, the bits above them 0 (30_encoding.md R101). -/
def lowBytes (n : Nat) (v : Word) : Word := (v.setWidth (8 * n)).setWidth 32

/-- `b0 | b1 << 8 | b2 << 16 | b3 << 24` at four consecutive offsets (20_memory.md R73). -/
def littleEndian32 (b0 b1 b2 b3 : Byte) : Word :=
  joinByte b0 (joinByte b1 (joinByte b2 (b3.setWidth 32)))

/-! ### The configuration address register (10_state.md R34-R36) -/

/-- The reserved mask 0x7F000003 (10_state.md R35). -/
def caReserved : Word := 0x7F000003#32

/-- BUS, `CA[23:16]`. -/
def caBus (a : Word) : BitVec 8 := a.extractLsb' 16 8

/-- DEVFN, `CA[15:8]`: the slot index. -/
def caDevfn (a : Word) : SlotIndex := a.extractLsb' 8 8

/-- DEV, `CA[15:11]`. -/
def caDev (a : Word) : BitVec 5 := a.extractLsb' 11 5

/-- FN, `CA[10:8]`. -/
def caFn (a : Word) : BitVec 3 := a.extractLsb' 8 3

/-- REG, `CA[7:2]`. -/
def caReg (a : Word) : BitVec 6 := a.extractLsb' 2 6

/-- The lane of a port, `p & 3` (00_scope.md R14). -/
def laneOf (p : Port) : BitVec 2 := p.setWidth 2

/-- The byte of lane `k`: bits `8k+7 : 8k` (30_encoding.md R110). -/
def laneByte (a : Word) (k : BitVec 2) : Byte := (a >>> (8 * k.toNat)).setWidth 8

/-- A word with lane `k` replaced (40_config_cycle.md R132). -/
def mergeLane (a : Word) (k : BitVec 2) (v : Byte) : Word :=
  (a &&& ~~~(0xFF#32 <<< (8 * k.toNat))) ||| (v.setWidth 32 <<< (8 * k.toNat))

/-- The configuration-space offset of a data-window byte: `(CA[7:2] << 2) | (p & 3)`
(30_encoding.md R109). -/
def targetOffset (a : Word) (p : Port) : Offset :=
  ((caReg a).setWidth 8 <<< 2) ||| (laneOf p).setWidth 8

/-! ### The window (30_encoding.md R111, 42_shadow_ram.md R211) -/

/-- `(a - 0xC0000#32) >> 14`. -/
def regionOf (a : Addr) : Region := ((a - 0xC0000#32) >>> 14).setWidth 4

/-- The first address of a region, `0xC0000 + 0x4000*i`. -/
def regionBase (i : Nat) : Addr := BitVec.ofNat 32 (0xC0000 + 0x4000 * i)

/-- `v[3:0]`, zero-extended (30_encoding.md R113). -/
def lowNibble (v : Byte) : Byte := v &&& 0x0F#8

/-- `v[7:4]`, zero-extended (30_encoding.md R113). -/
def highNibble (v : Byte) : Byte := v >>> 4

/-- The (address, permission) pairs one PAM register byte sets, in increasing region order
(42_shadow_ram.md R215, R216). -/
def pamTargets (o : Offset) (v : Byte) : List (Addr × Byte) :=
  if o = 0x59#8 then
    [(0xF0000#32, highNibble v), (0xF4000#32, highNibble v), (0xF8000#32, highNibble v), (0xFC000#32, highNibble v)]
  else
    let base : Addr := 0xC0000#32 + (o - 0x5A#8).setWidth 32 * 0x8000#32
    [(base, lowNibble v), (base + 0x4000#32, highNibble v)]

/-- The (address, permission) pairs of a whole map, regions 0..15 in order
(44_control.md R269, 70_reset_and_hazards.md R321). -/
def mapTargets (f : Nat → Byte) : List (Addr × Byte) :=
  (List.range 16).map fun i => (regionBase i, f i)

/-! ### The binding and the store -/

/-- `prdt_base(b) = b[15:0] & 0xFFF0` (43_prdt_irq.md R241). -/
def prdtBase (b : Word) : Port := b.setWidth 16 &&& 0xFFF0#16

/-- BAR4 of a configuration space: bytes 0x20..0x23, little-endian (10_state.md R44). -/
def bar4Of (space : CfgSpace) : Word :=
  littleEndian32 space[0x20] space[0x21] space[0x22] space[0x23]

/-- The window offset of a port in the binding, `P - PRDT` (43_prdt_irq.md R246). -/
def windowOffset (base p : Port) : BitVec 4 := (p - base).setWidth 4

/-- The slot index `d*8 + f` (10_state.md R41). -/
def slotOf (d f : Word) : SlotIndex := (d * 8#32 + f).setWidth 8

end Sys2Proof.Machine
end

