-- ==== Sys2Proof/Machine/Flags.lean ====
section
/-!
DEFINITION. The block's only flag is the cycle flag `CYC` (10_state.md R37).
-/

namespace Sys2Proof.Machine

/-- `CYC` after an address-register write: `CA[31]` (40_config_cycle.md R132). -/
def cycOf (ca : Word) : Bool := ca.getLsbD 31

end Sys2Proof.Machine
end

