-- ==== Sys2Proof/Machine/State.lean ====
section
/-!
DEFINITION. The state of the block as plain data (10_state.md R31-R54), the reasons a run stops, and the
state at power-on and right after reset.
-/

namespace Sys2Proof.Machine

/-- The fatal reasons of 60_exceptions.md R292, with the fields their diagnostics name (R297). -/
inductive FatalReason
  /-- Code 1: a device operation names a bus, device or function outside the topology (R262). -/
  | badTopology (bus device function : Word)
  /-- Code 2: the remapper meets an IDE BAR4 that selects memory space (R243). -/
  | ideBarMemorySpace
  /-- Code 3: an IRQ line is driven for an unregistered device (R250). -/
  | irqUnregisteredDevice (deviceIndex : Word)
  /-- Code 4: a byte step reaches a port outside 0xCF8-0xCFF (R137, R138). -/
  | unrecognizedPort (port : Port)
  /-- Code 5: a permission address outside the window (R214). -/
  | permIndexOutOfRange (address : Addr)
  deriving DecidableEq, Repr

/-- The refusal reasons of 60_exceptions.md R294: cases the spec gives no meaning. -/
inductive RefuseReason
  | badDescriptor
  | badSize
  | prdtOverlapsConfigPorts
  | restoreSlotMismatch
  | copyToEmptySlot
  | shortImage
  | badIrqLevel
  deriving DecidableEq, Repr

/-- The benign-ignore conditions B1-B5 of 60_exceptions.md R293, as codes of the optional log. -/
inductive LogCode
  | reservedAddrBits
  | dataWhileIdle
  | busNonZero
  | unpopulatedSlot
  | shadowWriteProtected
  deriving DecidableEq, Repr

/-- The output events of 00_scope.md R13 other than `Log`. -/
inductive Event
  /-- The permission-change notification of one region (42_shadow_ram.md R212). -/
  | permChanged (region : Region) (value : Nibble)
  /-- The 16 ports at a base are unregistered (43_prdt_irq.md R242). -/
  | unbind (base : Port)
  /-- The 16 ports at a base are registered (43_prdt_irq.md R242). -/
  | bind (base : Port)
  /-- A legacy interrupt line is raised (`true`) or lowered (43_prdt_irq.md R250). -/
  | irq (line : BitVec 4) (level : Bool)
  /-- A write forwarded whole to the IDE PRDT logic (43_prdt_irq.md R247). -/
  | forwardWrite (offset : BitVec 4) (size : Nat) (data : Word)
  deriving DecidableEq, Repr

/-- What the last request gave its requester (30_encoding.md R101, R106). -/
inductive Reply
  /-- No request has been performed yet. -/
  | idle
  /-- The request completed and returns nothing. -/
  | done
  /-- Read data, RDATA. -/
  | data (value : Word)
  /-- The slot index of a created device. -/
  | slot (index : SlotIndex)
  /-- The read-only view of a configuration space, or `none` for an empty slot. -/
  | configView (view : Option CfgSpace)
  /-- The persisted record of a save. -/
  | saved (record : Record)
  /-- The request was not addressed to the block, which took no step. -/
  | notClaimed
  /-- The request ended in a fatal or a refusal and returns nothing. -/
  | stopped
  deriving DecidableEq, Repr

/-- A populated slot, `dev(kind, cfg)` (10_state.md R40). -/
structure Device where
  kind : Kind
  cfg : CfgSpace
  deriving DecidableEq, Repr

/-- The backing RAM of the window (10_state.md R47) as (address, byte) pairs. An unlisted address reads
as `Memory.unlisted`. -/
abbrev Memory := List Host.Cell

/-- What an unlisted address reads as: the initial contents SHADOW_INIT (10_state.md R47). -/
def Memory.unlisted (a : Nat) : Byte := Config.shadowInit a

/-- The canonical form: addresses strictly rise, and no entry equals what an unlisted address reads as,
so that equal memories are equal lists. -/
abbrev Memory.wf (m : Memory) : Prop :=
  m.Pairwise (fun x y => x.1 < y.1) ∧ ∀ e ∈ m, e.2 ≠ Memory.unlisted e.1

/-- The state of the block. -/
structure State where
  /-- `CA`, the configuration address register (R34). -/
  ca : Word
  /-- `CYC`, the cycle flag: `false` is `Idle`, `true` is `CycleEnabled` (R37, R38). -/
  cyc : Bool
  /-- `SLOT[0..255]`, the Device Configuration Store (R40). -/
  slots : Vector (Option Device) 256
  /-- `PAM[0..15]`, the permission map (R45). -/
  pam : Vector Nibble 16
  /-- `PRDT`, the live binding base or none (R46). -/
  prdt : Option Port
  /-- `WIN`, the backing RAM of 0xC0000..0xFFFFF (R47). -/
  win : Memory
  /-- `FAULT`, the sticky fault (R48). -/
  fault : Option FatalReason
  /-- The refusal mark "kept for the whole run" (60_exceptions.md R299). -/
  refusal : Option RefuseReason
  /-- The output trace, oldest event first (00_scope.md R13). -/
  trace : List Event
  /-- The optional verbose log, oldest code first (60_exceptions.md R300). No claim may depend on it. -/
  log : List LogCode
  /-- What the last request returned to its requester (00_scope.md R13 `return v`). -/
  reply : Reply
  /-- The model's own: how many free values have been drawn (assumption log 4). -/
  draws : Nat
  /-- The model's own: requests that have arrived and wait, in arrival order (10_state.md R33). -/
  pending : List Request
  deriving DecidableEq, Repr

/-- Why a step ends in a fault: the block is stuck in a faulted state. -/
inductive Fault
  /-- Raised by `step` alone, while `FAULT` holds a reason: "the block then takes no further step"
  (60_exceptions.md R296). Safe: nothing can be claimed about a step that does not happen. -/
  | halted (reason : FatalReason)
  deriving DecidableEq, Repr

/-- Why a step is refused. -/
inductive Refusal
  /-- The instruction has no meaning in the model yet. Raised by `exec` alone. Safe. -/
  | notModelled (mnemonic : String)
  /-- Raised by `step` alone, while the refusal mark is set: the run takes no further step
  (60_exceptions.md R299). Safe: a run that reaches a refusal cannot go on. -/
  | marked (reason : RefuseReason)
  deriving DecidableEq, Repr

/-- How an operation inside a step ends: it goes on with a value, or the request ends at once with the
effects already performed (60_exceptions.md R296, R299). -/
inductive Res (α : Type)
  | ok (value : α) (s : State)
  | stop (s : State)

/-! ### Reset -/

/-- A default image as a byte list: the first `n` bytes of `f`. -/
def imageOf (n : Nat) (f : Nat → Byte) : List Byte := (List.range n).map f

/-- IMG_HB, 128 bytes (41_device_models.md R189). -/
def imgHb : List Byte := imageOf 128 Config.imgHbByte

/-- IMG_ISA, 192 bytes. -/
def imgIsa : List Byte := imageOf 192 Config.imgIsaByte

/-- IMG_IDE, 64 bytes, with BAR4 = 0x0000C001 at 0x20..0x23 (R189). -/
def imgIde : List Byte :=
  imageOf 64 fun o =>
    if o = 0x20 then 0x01 else if o = 0x21 then 0xC0 else if o = 0x22 then 0x00
    else if o = 0x23 then 0x00 else Config.imgIdeByte o

/-- A configuration space that holds an image from offset 0 and zeros above it (10_state.md R42). -/
def cfgOfImage (image : List Byte) : CfgSpace := Vector.ofFn fun o => image.getD o.val 0

/-- The machine before machine assembly: every slot empty, no binding (10_state.md R40, R46;
70_reset_and_hazards.md R326). -/
def State.powerOn : State where
  ca := 0
  cyc := false
  slots := Vector.replicate 256 none
  pam := Vector.replicate 16 0
  prdt := none
  win := []
  fault := none
  refusal := none
  trace := []
  log := []
  reply := .idle
  draws := 0
  pending := []

/-- The machine right after reset: the reset values of 70_reset_and_hazards.md R323, with the bytes above
each image 0 as after assembly (10_state.md R42). -/
def State.reset : State where
  ca := 0
  cyc := false
  slots :=
    ((Vector.replicate 256 none).set 0 (some ⟨.hostBridge, cfgOfImage imgHb⟩)
      |>.set 8 (some ⟨.isaBridge, cfgOfImage imgIsa⟩)).set 9 (some ⟨.ideController, cfgOfImage imgIde⟩)
  pam := Vector.replicate 16 0
  prdt := some 0xC000
  win := []
  fault := none
  refusal := none
  trace := []
  log := []
  reply := .idle
  draws := 0
  pending := []

end Sys2Proof.Machine
end

