-- ==== Sys2Proof/Machine/Ops.lean ====
section
/-!
DEFINITION. The named operations of the block over its state: ending a request with a fatal or a refusal,
output events, the window memory, the address register, the device store, the permission map and the
PRDT remapper. The meanings are written over these.
-/

namespace Sys2Proof.Machine

/-! ### Sequencing, fatals and refusals (60_exceptions.md R296-R299) -/

/-- Go on with `k` unless the request has ended. -/
def Res.andThen {α β : Type} (r : Res α) (k : α → State → Res β) : Res β :=
  match r with
  | .ok a s => k a s
  | .stop s => .stop s

/-- The state an operation ends in, whichever way it ends. -/
def Res.state {α : Type} (r : Res α) : State :=
  match r with
  | .ok _ s => s
  | .stop s => s

/-- Taking a fatal, `raise Fatal(reason)`: `FAULT` takes the reason, the request ends at once and the
effects already performed stay (R296). It is sticky; the spec gives no handler, no saved state and no
return from it, so no operation stands beside it that undoes it. -/
def raise {α : Type} (reason : FatalReason) (s : State) : Res α := .stop { s with fault := some reason }

/-- `refuse(reason)`: the refusal mark takes the reason, the request ends at once and the effects already
performed stay (R299). -/
def refuse {α : Type} (reason : RefuseReason) (s : State) : Res α :=
  .stop { s with refusal := some reason }

/-- The diagnostic code of a fatal (R292). -/
def FatalReason.code : FatalReason → Nat
  | .badTopology _ _ _ => 1
  | .ideBarMemorySpace => 2
  | .irqUnregisteredDevice _ => 3
  | .unrecognizedPort _ => 4
  | .permIndexOutOfRange _ => 5

/-- The number of a benign-ignore code B1-B5 (R293). -/
def LogCode.code : LogCode → Nat
  | .reservedAddrBits => 1
  | .dataWhileIdle => 2
  | .busNonZero => 3
  | .unpopulatedSlot => 4
  | .shadowWriteProtected => 5

/-- `emit` of output events, appended to the trace (00_scope.md R13). -/
def State.emit (s : State) (events : List Event) : State := { s with trace := s.trace ++ events }

/-- `emit Log(code)` (60_exceptions.md R300). -/
def State.logged (s : State) (code : LogCode) : State := { s with log := s.log ++ [code] }

/-- Advance the counter of free values (assumption log 4). -/
def State.drawn (s : State) : State := { s with draws := s.draws + 1 }

/-- A finished request: its effects stand, and its requester gets the reply. -/
def complete {α : Type} (reply : α → Reply) (r : Res α) : Host.Outcome State Fault Refusal :=
  match r with
  | .ok a s => .next { s with reply := reply a }
  | .stop s => .next { s with reply := .stopped }

/-- A request that is not addressed to the block: it "takes no step" (30_encoding.md R107). -/
def notClaimed (s : State) : Host.Outcome State Fault Refusal := .next { s with reply := .notClaimed }

/-! ### The window memory -/

/-- The byte at an address. -/
def Memory.read : Memory → Nat → Byte
  | [], a => Memory.unlisted a
  | (b, v) :: m, a => if a = b then v else Memory.read m a

/-- List a byte at its place, replacing an entry of the same address. -/
def Memory.insert : Memory → Nat → Byte → Memory
  | [], a, v => [(a, v)]
  | (b, w) :: m, a, v =>
    if a < b then (a, v) :: (b, w) :: m
    else if a = b then (a, v) :: m
    else (b, w) :: Memory.insert m a v

/-- Drop the entry of an address. -/
def Memory.erase : Memory → Nat → Memory
  | [], _ => []
  | (b, w) :: m, a => if a = b then Memory.erase m a else (b, w) :: Memory.erase m a

/-- Write a byte, in canonical form: the value an unlisted address reads as is not listed. -/
def Memory.write (m : Memory) (a : Nat) (v : Byte) : Memory :=
  if v = Memory.unlisted a then Memory.erase m a else Memory.insert m a v

/-! ### The address register (40_config_cycle.md R132, R134) -/

/-- R132: merge the byte into its lane, force the reserved bits to 0, recompute `CYC`. -/
def addrWriteByte (k : BitVec 2) (v : Byte) (s : State) : State :=
  let t := mergeLane s.ca k v
  let s' := if t &&& caReserved = 0#32 then s else s.logged .reservedAddrBits
  { s' with ca := t &&& ~~~caReserved, cyc := cycOf (t &&& ~~~caReserved) }

/-- R134: the byte of a lane, legal in either state. -/
def addrReadByte (k : BitVec 2) (s : State) : Byte := laneByte s.ca k

/-! ### The device store (40_config_cycle.md R131, 44_control.md R261-R264) -/

/-- `lookup(i)` (R131). -/
def State.slot (s : State) (i : SlotIndex) : Option Device := s.slots[i.toNat]'(i.isLt)

/-- `SLOT[i] <- d`. -/
def State.putDevice (s : State) (i : SlotIndex) (d : Device) : State :=
  { s with slots := s.slots.set i.toNat (some d) i.isLt }

/-- The byte at an offset of a configuration space. -/
def cfgByte (space : CfgSpace) (o : Offset) : Byte := space[o.toNat]'(o.isLt)

/-- A configuration space with one byte replaced. -/
def cfgSet (space : CfgSpace) (o : Offset) (v : Byte) : CfgSpace := space.set o.toNat v o.isLt

/-- `CFG[i][o] <- v` on a slot that holds `d`. -/
def State.storeByte (s : State) (i : SlotIndex) (d : Device) (o : Offset) (v : Byte) : State :=
  s.putDevice i { d with cfg := cfgSet d.cfg o v }

/-- The first `n` bytes replaced by those of an image (44_control.md R264). -/
def cfgOverlay (space : CfgSpace) (image : List Byte) (n : Nat) : CfgSpace :=
  Vector.ofFn fun o => if o.val < n then image.getD o.val 0 else space[o.val]

/-- The topology check of R262: the fatal it raises, if any. -/
def checkBdf (bus d f : Word) : Option FatalReason :=
  if bus ≠ 0#32 then some (.badTopology bus d f)
  else if d.toNat > 31 then some (.badTopology bus d f)
  else if f.toNat > 7 then some (.badTopology bus d f)
  else none

/-- `create_device` (R261): the last writer wins. -/
def createDevice (bus d f : Word) (kind : Kind) (s : State) : Res SlotIndex :=
  match checkBdf bus d f with
  | some reason => raise reason s
  | none => .ok (slotOf d f) (s.putDevice (slotOf d f) ⟨kind, Vector.replicate 256 0#8⟩)

/-- `getConfigurationPointer` (R263). -/
def configPtr (bus d f : Word) (s : State) : Res (Option CfgSpace) :=
  match checkBdf bus d f with
  | some reason => raise reason s
  | none => .ok ((s.slot (slotOf d f)).map Device.cfg) s

/-- `copy_default` (R264): no interceptor and no PAM decode runs. -/
def copyDefault (i : SlotIndex) (image : List Byte) (n : Nat) (s : State) : Res Unit :=
  match s.slot i with
  | none => refuse .copyToEmptySlot s
  | some d =>
    if image.length < min n 256 then refuse .shortImage s
    else .ok () (s.putDevice i { d with cfg := cfgOverlay d.cfg image (min n 256) })

/-! ### The permission map (42_shadow_ram.md R211-R217) -/

/-- The map with one entry replaced. -/
def mapSet (m : Vector Nibble 16) (r : Region) (p : Nibble) : Vector Nibble 16 :=
  m.set r.toNat p r.isLt

/-- The entry of a region. -/
def mapGet (m : Vector Nibble 16) (r : Region) : Nibble := m[r.toNat]'(r.isLt)

/-- `set_permission(a, p)` (R212): the notification is emitted on every call. -/
def setPermission (a : Addr) (p : Byte) (s : State) : Res Unit :=
  if inWindow a then
    .ok () (State.emit { s with pam := mapSet s.pam (regionOf a) (p.setWidth 4) }
      [.permChanged (regionOf a) (p.setWidth 4)])
  else raise (.permIndexOutOfRange a) s

/-- `get_permission(a)` (R213), with the same range check. -/
def getPermission (a : Addr) (s : State) : Res Nibble :=
  if inWindow a then .ok (mapGet s.pam (regionOf a)) s
  else raise (.permIndexOutOfRange a) s

/-- `set_permission` on each pair, in order (R217). -/
def setPermissions : List (Addr × Byte) → State → Res Unit
  | [], s => .ok () s
  | t :: ts, s => (setPermission t.1 t.2 s).andThen fun _ s' => setPermissions ts s'

/-- `pam_decode(o, v)` (R215, R216). -/
def pamDecode (o : Offset) (v : Byte) (s : State) : Res Unit := setPermissions (pamTargets o v) s

/-! ### The window bytes (42_shadow_ram.md R219, R220; 20_memory.md R78, R79) -/

/-- The permission entry that governs a window address. -/
def State.permission (s : State) (a : Addr) : Nibble := mapGet s.pam (regionOf a)

/-- R219: a window read is never gated. -/
def shadowReadByte (a : Addr) (s : State) : Byte := s.win.read a.toNat

/-- R220: a window write takes effect only when bit 1 of the region's entry is set. -/
def shadowWriteByte (a : Addr) (v : Byte) (s : State) : State :=
  if (s.permission a).getLsbD 1 then { s with win := s.win.write a.toNat v }
  else s.logged .shadowWriteProtected

/-- The byte a wide read gets at an address: the block supplies those inside the window, another
component the others (R78, R222). -/
def windowByte (a : Addr) (s : State) : Byte :=
  if inWindow a then shadowReadByte a s else Config.outsideByte s.draws a.toNat

/-- `MemRead(a, n)` (R79). -/
def memRead : Nat → Addr → State → Word
  | 0, _, _ => 0
  | n + 1, a, s => joinByte (windowByte a s) (memRead n (a + 1#32) s)

/-- Every byte of an access lies in the window. -/
def allInWindow : Nat → Addr → Bool
  | 0, _ => true
  | n + 1, a => inWindow a && allInWindow n (a + 1#32)

/-- The state after a window read: unchanged, but for the counter when a byte came from outside. -/
def afterRead (n : Nat) (a : Addr) (s : State) : State := if allInWindow n a then s else s.drawn

/-- `MemWrite(a, n, v)` (R79): bytes in increasing address order, each gated by its own region; a byte
outside the window is not handled (R78). -/
def memWrite : Nat → Addr → Word → State → State
  | 0, _, _, s => s
  | n + 1, a, v, s =>
    memWrite n (a + 1#32) (v >>> 8) (if inWindow a then shadowWriteByte a (lowByte v) s else s)

/-! ### The PRDT remapper (43_prdt_irq.md R241-R245) -/

/-- `BAR4`, read from slot 9 (10_state.md R44). While slot 9 is empty the spec gives it no value: it is a
free value (assumption log 9). -/
def bar4 (s : State) : Word :=
  match s.slot 9#8 with
  | some d => bar4Of d.cfg
  | none => Config.unplacedBar4 s.draws

/-- The part of `remap(old)` (R242) after its memory-space check, for the BAR4 value `b`: the overlap refusal
(R245), then the rebinding (60_exceptions.md R302). -/
def rebind (b : Word) (old : Option Port) (s : State) : Res Unit :=
  if prdtBase b = 0x0CF0#16 then refuse .prdtOverlapsConfigPorts s
  else .ok ()
    (State.emit { s with prdt := some (prdtBase b) } (old.toList.map Event.unbind ++ [.bind (prdtBase b)]))

/-- `remap(old)` (R242): the memory-space check, then the rebinding. Restore, reset and assembly call it. -/
def remap (old : Option Port) (s : State) : Res Unit :=
  if (bar4 s).getLsbD 0 = false then raise .ideBarMemorySpace s else rebind (bar4 s) old s

/-- `bar4_check()` (41_device_models.md R186): rebind from the live binding when the base differs. The write
path cannot reach the memory-space fatal of R242 (90_conflicts.md C12; R243; 60_exceptions.md R295), so it
rebinds without looking at bit 0 of BAR4: DEDUCED, unsafe where a host operation cleared that bit (assumption
log 13). -/
def bar4Check (s : State) : Res Unit :=
  let s' := if (s.slot 9#8).isNone then s.drawn else s
  if some (prdtBase (bar4 s)) = s.prdt then .ok () s' else rebind (bar4 s) s.prdt s'

end Sys2Proof.Machine
end

