-- ==== Sys2Proof/Machine/Devices.lean ====
section
/-!
DEFINITION. The chipset device models: the write classes of 41_device_models.md R172, the class of every
offset of the three fixed kinds (R175-R188), and the interceptor step (R173, R190).
-/

namespace Sys2Proof.Machine

/-- The write classes of R172. The plain classes RO, RAW, MASK and W1C decide one byte from the old byte
and the written one. -/
inductive WriteClass
  | plain (rule : PlainClass)
  | pam
  | force1 (bits : Byte)
  | zero
  | bar4Top
  deriving DecidableEq, Repr

/-- The byte a plain class stores (R172): `old` is `CFG[s][o]`, `v` the written byte. -/
def plainByte (rule : PlainClass) (old v : Byte) : Byte :=
  match rule with
  | .raw => v
  | .ro => old
  | .mask w f => (v &&& w) ||| f
  | .w1c m => old &&& ~~~(v &&& m)

/-- An open table's entry with R188's constraint `w & f = 0`. -/
def disjointMask (rule : PlainClass) : PlainClass :=
  match rule with
  | .mask w f => .mask w (f &&& ~~~w)
  | other => other

/-- R181: an offset of the programmable pin-to-IRQ-line map is RAW or MASK, never RO. -/
def programmable (rule : PlainClass) : PlainClass :=
  match rule with
  | .mask w f => .mask w f
  | _ => .raw

/-- HB_CMD_FIXED, whose bit 6 is 0 (R175). -/
def hbCmdFixed : Byte := Config.hbCmdFixedBits &&& 0xBF#8

/-- ISA_CMD_FIXED, disjoint from its mask (00_scope.md R10). -/
def isaCmdFixed : Byte := Config.isaCmdFixedBits &&& ~~~Config.isaCmdWmask

/-- IDE_CMD_FIXED, disjoint from its mask (00_scope.md R10). -/
def ideCmdFixed : Byte := Config.ideCmdFixedBits &&& ~~~Config.ideCmdWmask

/-- The host bridge's classes (R175-R178). -/
def hostBridgeClass (o : Offset) : WriteClass :=
  if o = 0x04#8 then .plain (.mask 0x40#8 hbCmdFixed)
  else if o = 0x07#8 then .plain (.w1c 0xF9#8)
  else if 0x59 ≤ o.toNat ∧ o.toNat ≤ 0x5F then .pam
  else .plain (disjointMask (Config.hbTable o))

/-- WCLASS_ISA: the open table, with the map's offsets kept programmable (R181). -/
def isaTable (o : Offset) : PlainClass :=
  if o ∈ Config.irqMapOffsets then programmable (disjointMask (Config.isaTable o))
  else disjointMask (Config.isaTable o)

/-- The ISA bridge's classes (R179-R181). -/
def isaBridgeClass (o : Offset) : WriteClass :=
  if o = 0x04#8 then .plain (.mask Config.isaCmdWmask isaCmdFixed)
  else if o = 0x07#8 then .plain (.w1c Config.isaStsClearMask)
  else .plain (isaTable o)

/-- The IDE controller's classes (R182-R187). -/
def ideClass (o : Offset) : WriteClass :=
  if o = 0x04#8 then .plain (.mask Config.ideCmdWmask ideCmdFixed)
  else if o = 0x20#8 then .force1 0x01#8
  else if o = 0x21#8 then .plain .raw
  else if o = 0x22#8 then .zero
  else if o = 0x23#8 then .bar4Top
  else .plain (disjointMask (Config.ideTable o))

/-- One arm of the interceptor step (R173), on slot `i` that holds `d`. -/
def applyClass (rule : WriteClass) (i : SlotIndex) (d : Device) (o : Offset) (v : Byte) (s : State) :
    Res Unit :=
  match rule with
  | .plain p => .ok () (s.storeByte i d o (plainByte p (cfgByte d.cfg o) v))
  | .pam => (pamDecode o v s).andThen fun _ s' => .ok () (s'.storeByte i d o v)
  | .force1 bits => .ok () (s.storeByte i d o (v ||| bits))
  | .zero => .ok () (s.storeByte i d o 0#8)
  | .bar4Top => bar4Check (s.storeByte i d o 0#8)

/-- `generic_write` (R190): what the generic interceptor handles, else the raw byte. -/
def genericStore (g : Nat) (i : SlotIndex) (space : CfgSpace) (o : Offset) (v : Byte) : CfgSpace :=
  (Config.genericIcpt g i space o v).getD (cfgSet space o v)

/-- `icpt_write(i, o, v)` on slot `i` that holds `d` (R173). -/
def icptWrite (i : SlotIndex) (d : Device) (o : Offset) (v : Byte) (s : State) : Res Unit :=
  match d.kind with
  | .hostBridge => applyClass (hostBridgeClass o) i d o v s
  | .isaBridge => applyClass (isaBridgeClass o) i d o v s
  | .ideController => applyClass (ideClass o) i d o v s
  | .generic g => .ok () (s.putDevice i { d with cfg := genericStore g i d.cfg o v })

end Sys2Proof.Machine
end

