-- ==== Sys2Proof/Machine/ConfigCycle.lean ====
section
/-!
DEFINITION. The Configuration-Cycle State Machine: the byte steps of 40_config_cycle.md R135-R139 and the
twelve port requests R140-R151.
-/

namespace Sys2Proof.Machine

/-- R135: gated by `CYC`, then the bus, then the slot; an accepted byte goes to the slot's interceptor. -/
def dataWriteByte (p : Port) (v : Byte) (s : State) : Res Unit :=
  if s.cyc = false then .ok () (s.logged .dataWhileIdle)
  else if caBus s.ca ≠ 0#8 then .ok () (s.logged .busNonZero)
  else
    match s.slot (caDevfn s.ca) with
    | none => .ok () (s.logged .unpopulatedSlot)
    | some d => icptWrite (caDevfn s.ca) d (targetOffset s.ca p) v s

/-- R136: all-ones unless the cycle is enabled, the bus is 0 and the slot is populated. -/
def dataReadByte (p : Port) (s : State) : Byte :=
  if s.cyc = false ∨ caBus s.ca ≠ 0#8 then 0xFF#8
  else
    match s.slot (caDevfn s.ca) with
    | none => 0xFF#8
    | some d => cfgByte d.cfg (targetOffset s.ca p)

/-- R137. -/
def portWriteByte (p : Port) (v : Byte) (s : State) : Res Unit :=
  if isAddrPort p then .ok () (addrWriteByte (laneOf p) v s)
  else if isDataPort p then dataWriteByte p v s
  else raise (.unrecognizedPort p) s

/-- R138. -/
def portReadByte (p : Port) (s : State) : Res Byte :=
  if isAddrPort p then .ok (addrReadByte (laneOf p) s) s
  else if isDataPort p then .ok (dataReadByte p s) s
  else raise (.unrecognizedPort p) s

/-- `port_write(p, n, v)` (R139): the byte steps in port order, up to the first that ends the request. -/
def portWrite : Nat → Port → Word → State → Res Unit
  | 0, _, _, s => .ok () s
  | n + 1, p, v, s => (portWriteByte p (lowByte v) s).andThen fun _ s' => portWrite n (p + 1#16) (v >>> 8) s'

/-- `port_read(p, n)` (R139). -/
def portRead : Nat → Port → State → Res Word
  | 0, _, s => .ok 0 s
  | n + 1, p, s =>
    (portReadByte p s).andThen fun b s' =>
      (portRead n (p + 1#16) s').andThen fun r s'' => .ok (joinByte b r) s''

/-- A port write request of `n` bytes. -/
def writeRequest (n : Nat) (p : Port) (v : Word) (s : State) : Host.Outcome State Fault Refusal :=
  complete (fun _ => .done) (portWrite n p v s)

/-- A port read request of `n` bytes. -/
def readRequest (n : Nat) (p : Port) (s : State) : Host.Outcome State Fault Refusal :=
  complete Reply.data (portRead n p s)

/-- CFG_ADDR_W8 (R140). -/
def execCfgAddrW8 (p : Port) (v : BitVec 8) (s : State) : Host.Outcome State Fault Refusal :=
  writeRequest 1 p (v.setWidth 32) s

/-- CFG_ADDR_W16 (R141). -/
def execCfgAddrW16 (p : Port) (v : BitVec 16) (s : State) : Host.Outcome State Fault Refusal :=
  writeRequest 2 p (v.setWidth 32) s

/-- CFG_ADDR_W32 (R142). -/
def execCfgAddrW32 (p : Port) (v : BitVec 32) (s : State) : Host.Outcome State Fault Refusal :=
  writeRequest 4 p v s

/-- CFG_ADDR_R8 (R143). -/
def execCfgAddrR8 (p : Port) (s : State) : Host.Outcome State Fault Refusal := readRequest 1 p s

/-- CFG_ADDR_R16 (R144). -/
def execCfgAddrR16 (p : Port) (s : State) : Host.Outcome State Fault Refusal := readRequest 2 p s

/-- CFG_ADDR_R32 (R145). -/
def execCfgAddrR32 (p : Port) (s : State) : Host.Outcome State Fault Refusal := readRequest 4 p s

/-- CFG_DATA_W8 (R146). -/
def execCfgDataW8 (p : Port) (v : BitVec 8) (s : State) : Host.Outcome State Fault Refusal :=
  writeRequest 1 p (v.setWidth 32) s

/-- CFG_DATA_W16 (R147). -/
def execCfgDataW16 (p : Port) (v : BitVec 16) (s : State) : Host.Outcome State Fault Refusal :=
  writeRequest 2 p (v.setWidth 32) s

/-- CFG_DATA_W32 (R148). -/
def execCfgDataW32 (p : Port) (v : BitVec 32) (s : State) : Host.Outcome State Fault Refusal :=
  writeRequest 4 p v s

/-- CFG_DATA_R8 (R149). -/
def execCfgDataR8 (p : Port) (s : State) : Host.Outcome State Fault Refusal := readRequest 1 p s

/-- CFG_DATA_R16 (R150). -/
def execCfgDataR16 (p : Port) (s : State) : Host.Outcome State Fault Refusal := readRequest 2 p s

/-- CFG_DATA_R32 (R151). -/
def execCfgDataR32 (p : Port) (s : State) : Host.Outcome State Fault Refusal := readRequest 4 p s

end Sys2Proof.Machine
end

