-- ==== Sys2Proof/Machine/Control.lean ====
section
/-!
DEFINITION. The host operations: device creation, configuration pointers, default images, reset and
machine assembly, save and restore (44_control.md R261-R271, 70_reset_and_hazards.md R321, R326), and the
IRQ line output (43_prdt_irq.md R249-R251).
-/

namespace Sys2Proof.Machine

/-! ### Reset and assembly -/

/-- `SLOT[9] = dev(IdeController, _)`. -/
def slot9IsIde (s : State) : Bool :=
  match s.slot 9#8 with
  | some d => d.kind == .ideController
  | none => false

/-- The end that reset, assembly and restore share: all 16 permissions set through `set_permission`, then the
remapper on the live binding while slot 9 holds the IDE controller (70_reset_and_hazards.md R321, R326;
44_control.md R269), which is always so after an assembly. -/
def replayMapAndRemap (f : Nat → Byte) (s : State) : Res Unit :=
  (setPermissions (mapTargets f) s).andThen fun _ s' =>
    if slot9IsIde s' then remap s'.prdt s' else .ok () s'

/-- The reset of one fixed slot (70_reset_and_hazards.md R321): its image, if it holds its fixed kind. A device
of another kind is left unchanged, and an empty slot is refused by the copy: R321's fixed kinds read slot by
slot, DEDUCED, unsafe where a host put another kind there (assumption log 12). -/
def resetDevice (i : SlotIndex) (kind : Kind) (image : List Byte) (n : Nat) (s : State) : Res Unit :=
  match s.slot i with
  | none => copyDefault i image n s
  | some d => if d.kind = kind then copyDefault i image n s else .ok () s

/-- `reset()` (70_reset_and_hazards.md R321). -/
def resetBlock (s : State) : Res Unit :=
  (resetDevice 0#8 .hostBridge imgHb 128 { s with ca := 0#32, cyc := false }).andThen fun _ s1 =>
  (resetDevice 8#8 .isaBridge imgIsa 192 s1).andThen fun _ s2 =>
  (resetDevice 9#8 .ideController imgIde 64 s2).andThen fun _ s3 => replayMapAndRemap (fun _ => 0#8) s3

/-- `create_device(0, d, f, kind)` followed by `copy_default` of its image. -/
def assemble (d f : Word) (kind : Kind) (image : List Byte) (n : Nat) (s : State) : Res Unit :=
  (createDevice 0#32 d f kind s).andThen fun i s' => copyDefault i image n s'

/-- `init()` (70_reset_and_hazards.md R326). -/
def initBlock (s : State) : Res Unit :=
  (assemble 0#32 0#32 .hostBridge imgHb 128 s).andThen fun _ s1 =>
  (assemble 1#32 0#32 .isaBridge imgIsa 192 s1).andThen fun _ s2 =>
  (assemble 1#32 1#32 .ideController imgIde 64 s2).andThen fun _ s3 =>
  replayMapAndRemap (fun _ => 0#8) { s3 with ca := 0#32, cyc := false }

/-! ### Save and restore -/

/-- The record of a save (44_control.md R267, R268). -/
def saveRecord (s : State) : Record where
  addr := s.ca
  cyc := s.cyc
  pam := Vector.ofFn fun i => (s.pam[i.val]).setWidth 8
  dev := Vector.ofFn fun i => (s.slots[i.val]).map Device.cfg

/-- `keys(R.dev) = {s | SLOT[s] != empty}` (44_control.md R269, R271). -/
abbrev slotsMatch (r : Record) (s : State) : Prop :=
  ∀ i : Fin 256, (r.dev[i.val]).isSome = (s.slots[i.val]).isSome

/-- `CFG[s] <- R.dev[s]` for every listed slot, with no interceptor. -/
def restoredSlots (r : Record) (slots : Vector (Option Device) 256) : Vector (Option Device) 256 :=
  Vector.ofFn fun i =>
    match slots[i.val], r.dev[i.val] with
    | some d, some space => some { d with cfg := space }
    | old, _ => old

/-- `restore(R)` (44_control.md R269). -/
def restoreBlock (r : Record) (s : State) : Res Unit :=
  if slotsMatch r s then
    replayMapAndRemap (fun i => r.pam[i]?.getD 0#8)
      { s with ca := r.addr, cyc := r.cyc, slots := restoredSlots r s.slots }
  else refuse .restoreSlotMismatch s

/-! ### IRQ routing -/

/-- The bytes of the ISA bridge's pin-to-IRQ-line map, if slot 8 holds an ISA bridge. -/
def isaMapBytes (s : State) : Option (List Byte) :=
  match s.slot 8#8 with
  | some d => if d.kind = .isaBridge then some (Config.irqMapOffsets.map (cfgByte d.cfg)) else none
  | none => none

/-- IRQ_ROUTE(CFG, i) (43_prdt_irq.md R251): it reads the device's pin byte and the ISA bridge's map. -/
def irqLine (i : SlotIndex) (d : Device) (s : State) : Option (BitVec 4) :=
  Config.irqRoute i (cfgByte d.cfg (Config.irqPinOffset i)) (isaMapBytes s)

/-- `set_irq_line(d, l)` (R250): the level check comes before the slot check (R302). -/
def setIrqLine (deviceIndex level : Word) (s : State) : Res Unit :=
  if level ≠ 0#32 ∧ level ≠ 1#32 then refuse .badIrqLevel s
  else if deviceIndex.toNat > 255 then raise (.irqUnregisteredDevice deviceIndex) s
  else
    match s.slot (deviceIndex.setWidth 8) with
    | none => raise (.irqUnregisteredDevice deviceIndex) s
    | some d =>
      .ok () (s.emit ((irqLine (deviceIndex.setWidth 8) d s).toList.map fun line =>
        .irq line (level == 1#32)))

/-! ### The requests -/

/-- CTL_CREATE_DEVICE (R261). -/
def execCtlCreateDevice (bus d f : Word) (kind : Kind) (s : State) :
    Host.Outcome State Fault Refusal :=
  complete Reply.slot (createDevice bus d f kind s)

/-- CTL_GET_CONFIG_PTR (R263). -/
def execCtlGetConfigPtr (bus d f : Word) (s : State) : Host.Outcome State Fault Refusal :=
  complete Reply.configView (configPtr bus d f s)

/-- CTL_COPY_DEFAULT (R264). -/
def execCtlCopyDefault (i : SlotIndex) (image : List Byte) (n : Nat) (s : State) :
    Host.Outcome State Fault Refusal :=
  complete (fun _ => .done) (copyDefault i image n s)

/-- CTL_RESET (R265). -/
def execCtlReset (s : State) : Host.Outcome State Fault Refusal :=
  complete (fun _ => .done) (resetBlock s)

/-- CTL_SAVE (R268): changes no state and emits nothing. -/
def execCtlSave (s : State) : Host.Outcome State Fault Refusal :=
  .next { s with reply := .saved (saveRecord s) }

/-- CTL_RESTORE (R269). -/
def execCtlRestore (r : Record) (s : State) : Host.Outcome State Fault Refusal :=
  complete (fun _ => .done) (restoreBlock r s)

/-- CTL_SET_IRQ_LINE (43_prdt_irq.md R250). -/
def execCtlSetIrqLine (deviceIndex level : Word) (s : State) : Host.Outcome State Fault Refusal :=
  complete (fun _ => .done) (setIrqLine deviceIndex level s)

/-- CTL_INIT (R266). -/
def execCtlInit (s : State) : Host.Outcome State Fault Refusal :=
  complete (fun _ => .done) (initBlock s)

end Sys2Proof.Machine
end

