-- ==== Sys2Proof/Decode.lean ====
section
/-!
DEFINITION. Decoding of transaction descriptors, in the order of 30_encoding.md R107, and the encoder
written from R101, R102 and R105. Decoding depends on the PRDT binding, because the PRDT rows match a
port against it. It is total and rejects by name.
-/

namespace Sys2Proof

/-- Why a descriptor decodes to no request of the block (30_encoding.md R107, R116). -/
inductive Reject
  /-- A reserved field or value: `refuse(BadDescriptor)`. -/
  | badDescriptor
  /-- A size other than 1, 2 or 4: `refuse(BadSize)`. -/
  | badSize
  /-- A legal access that is not addressed to the block: "the block takes no step". -/
  | notThisBlock
  deriving DecidableEq, Repr

/-! ### The fields of a descriptor (R101) -/

/-- SPACE, bits 63:60. -/
def tdSpace (td : BitVec 64) : BitVec 4 := td.extractLsb' 60 4
/-- DIR, bit 59: set for a write. -/
def tdDir (td : BitVec 64) : Bool := td.getLsbD 59
/-- SIZE, bits 58:56. -/
def tdSize (td : BitVec 64) : BitVec 3 := td.extractLsb' 56 3
/-- The reserved bits 55:40. -/
def tdReserved (td : BitVec 64) : BitVec 16 := td.extractLsb' 40 16
/-- OP, bits 39:32. -/
def tdOp (td : BitVec 64) : BitVec 8 := td.extractLsb' 32 8
/-- ADDR, bits 31:0. -/
def tdAddr (td : BitVec 64) : Word := td.setWidth 32
/-- The port number of an I/O descriptor, ADDR[15:0] (R103). -/
def tdPort (td : BitVec 64) : Port := td.setWidth 16

/-- The port lies in the live PRDT binding: `PRDT != none and PRDT <= p <= PRDT + 15` (R107). -/
def inBinding (prdt : Option Port) (p : Port) : Bool :=
  match prdt with
  | none => false
  | some b => decide (b.toNat ≤ p.toNat ∧ p.toNat ≤ b.toNat + 15)

/-! ### The decoder -/

/-- The configuration-address row of a size and direction. -/
def decodeCfgAddr (write : Bool) (size : BitVec 3) (p : Port) (v : Word) : Instr :=
  if write then
    if size = 1#3 then .cfgAddrW8 p (v.setWidth 8)
    else if size = 2#3 then .cfgAddrW16 p (v.setWidth 16)
    else .cfgAddrW32 p v
  else if size = 1#3 then .cfgAddrR8 p
  else if size = 2#3 then .cfgAddrR16 p
  else .cfgAddrR32 p

/-- The configuration-data row of a size and direction. -/
def decodeCfgData (write : Bool) (size : BitVec 3) (p : Port) (v : Word) : Instr :=
  if write then
    if size = 1#3 then .cfgDataW8 p (v.setWidth 8)
    else if size = 2#3 then .cfgDataW16 p (v.setWidth 16)
    else .cfgDataW32 p v
  else if size = 1#3 then .cfgDataR8 p
  else if size = 2#3 then .cfgDataR16 p
  else .cfgDataR32 p

/-- The PRDT row of a size and direction. -/
def decodePrdt (write : Bool) (size : BitVec 3) (p : Port) (v : Word) : Instr :=
  if write then
    if size = 1#3 then .prdtW8 p (v.setWidth 8)
    else if size = 2#3 then .prdtW16 p (v.setWidth 16)
    else .prdtW32 p v
  else if size = 1#3 then .prdtR8 p
  else if size = 2#3 then .prdtR16 p
  else .prdtR32 p

/-- The memory-window row of a size and direction. -/
def decodeShadow (write : Bool) (size : BitVec 3) (a : Addr) (v : Word) : Instr :=
  if write then
    if size = 1#3 then .shadowW8 a (v.setWidth 8)
    else if size = 2#3 then .shadowW16 a (v.setWidth 16)
    else .shadowW32 a v
  else if size = 1#3 then .shadowR8 a
  else if size = 2#3 then .shadowR16 a
  else .shadowR32 a

/-- The control row of an OP (R105), with its operand record (R106). -/
def decodeCtl (op : BitVec 8) (x : RequestOperands) : Except Reject Instr :=
  if op = 0x01#8 then .ok (.ctlCreateDevice x.bus x.device x.function x.kind)
  else if op = 0x02#8 then .ok (.ctlGetConfigPtr x.bus x.device x.function)
  else if op = 0x03#8 then .ok (.ctlCopyDefault x.slot x.image x.size)
  else if op = 0x04#8 then .ok .ctlReset
  else if op = 0x05#8 then .ok .ctlSave
  else if op = 0x06#8 then .ok (.ctlRestore x.record)
  else if op = 0x07#8 then .ok (.ctlSetIrqLine x.deviceIndex x.level)
  else if op = 0x08#8 then .ok .ctlInit
  else .error .badDescriptor

/-- The I/O rows in the priority of R107: address register, data window, PRDT binding. -/
def decodeIo (prdt : Option Port) (write : Bool) (size : BitVec 3) (p : Port) (v : Word) :
    Except Reject Instr :=
  if isAddrPort p then .ok (decodeCfgAddr write size p v)
  else if isDataPort p then .ok (decodeCfgData write size p v)
  else if inBinding prdt p then .ok (decodePrdt write size p v)
  else .error .notThisBlock

/-- The memory rows. -/
def decodeMem (write : Bool) (size : BitVec 3) (a : Addr) (v : Word) : Except Reject Instr :=
  if inWindow a then .ok (decodeShadow write size a v) else .error .notThisBlock

/-- The validity checks of R107, in its order; the last one refuses an I/O or memory descriptor whose OP
is not 0, the value R101 gives it (assumption log 6). -/
def descriptorProblem (td : BitVec 64) : Option Reject :=
  if tdReserved td ≠ 0#16 ∨ (tdSpace td ≠ 1#4 ∧ tdSpace td ≠ 2#4 ∧ tdSpace td ≠ 3#4) then
    some .badDescriptor
  else if tdSpace td ≠ 3#4 ∧ tdSize td ≠ 1#3 ∧ tdSize td ≠ 2#3 ∧ tdSize td ≠ 4#3 then some .badSize
  else if tdSpace td = 3#4 ∧ (tdDir td = true ∨ tdSize td ≠ 0#3 ∨ tdAddr td ≠ 0#32) then
    some .badDescriptor
  else if tdSpace td = 1#4 ∧ (tdAddr td).extractLsb' 16 16 ≠ 0#16 then some .badDescriptor
  else if tdSpace td ≠ 3#4 ∧ tdOp td ≠ 0#8 then some .badDescriptor
  else none

/-- The decoder of R107, under the live binding `prdt`. -/
def decode (prdt : Option Port) (q : Request) : Except Reject Instr :=
  match descriptorProblem q.td with
  | some r => .error r
  | none =>
    if tdSpace q.td = 1#4 then
      decodeIo prdt (tdDir q.td) (tdSize q.td) (tdPort q.td) q.operands.wdata
    else if tdSpace q.td = 2#4 then
      decodeMem (tdDir q.td) (tdSize q.td) (tdAddr q.td) q.operands.wdata
    else decodeCtl (tdOp q.td) q.operands

/-! ### The encoder -/

/-- A descriptor from its top byte (R102), its OP and its ADDR; bits 55:40 are 0. -/
def tdOf (top op : BitVec 8) (addr : Word) : BitVec 64 :=
  (top.setWidth 64 <<< 56) ||| (op.setWidth 64 <<< 32) ||| addr.setWidth 64

/-- An I/O or memory request with WDATA. -/
def accessRequest (top : BitVec 8) (addr : Word) (wdata : Word) : Request :=
  { td := tdOf top 0#8 addr, operands := { wdata := wdata } }

/-- A control request. -/
def ctlRequest (op : BitVec 8) (x : RequestOperands) : Request :=
  { td := tdOf 0x30#8 op 0#32, operands := x }

/-- The request that spells an instruction (R101, R102, R105, R106). -/
def encode : Instr → Request
  | .cfgAddrW8 p v => accessRequest 0x19#8 (p.setWidth 32) (v.setWidth 32)
  | .cfgAddrW16 p v => accessRequest 0x1A#8 (p.setWidth 32) (v.setWidth 32)
  | .cfgAddrW32 p v => accessRequest 0x1C#8 (p.setWidth 32) v
  | .cfgAddrR8 p => accessRequest 0x11#8 (p.setWidth 32) 0
  | .cfgAddrR16 p => accessRequest 0x12#8 (p.setWidth 32) 0
  | .cfgAddrR32 p => accessRequest 0x14#8 (p.setWidth 32) 0
  | .cfgDataW8 p v => accessRequest 0x19#8 (p.setWidth 32) (v.setWidth 32)
  | .cfgDataW16 p v => accessRequest 0x1A#8 (p.setWidth 32) (v.setWidth 32)
  | .cfgDataW32 p v => accessRequest 0x1C#8 (p.setWidth 32) v
  | .cfgDataR8 p => accessRequest 0x11#8 (p.setWidth 32) 0
  | .cfgDataR16 p => accessRequest 0x12#8 (p.setWidth 32) 0
  | .cfgDataR32 p => accessRequest 0x14#8 (p.setWidth 32) 0
  | .shadowR8 a => accessRequest 0x21#8 a 0
  | .shadowR16 a => accessRequest 0x22#8 a 0
  | .shadowR32 a => accessRequest 0x24#8 a 0
  | .shadowW8 a v => accessRequest 0x29#8 a (v.setWidth 32)
  | .shadowW16 a v => accessRequest 0x2A#8 a (v.setWidth 32)
  | .shadowW32 a v => accessRequest 0x2C#8 a v
  | .prdtR8 p => accessRequest 0x11#8 (p.setWidth 32) 0
  | .prdtR16 p => accessRequest 0x12#8 (p.setWidth 32) 0
  | .prdtR32 p => accessRequest 0x14#8 (p.setWidth 32) 0
  | .prdtW8 p v => accessRequest 0x19#8 (p.setWidth 32) (v.setWidth 32)
  | .prdtW16 p v => accessRequest 0x1A#8 (p.setWidth 32) (v.setWidth 32)
  | .prdtW32 p v => accessRequest 0x1C#8 (p.setWidth 32) v
  | .ctlCreateDevice b d f k => ctlRequest 0x01#8 { bus := b, device := d, function := f, kind := k }
  | .ctlGetConfigPtr b d f => ctlRequest 0x02#8 { bus := b, device := d, function := f }
  | .ctlCopyDefault i im n => ctlRequest 0x03#8 { slot := i, image := im, size := n }
  | .ctlReset => ctlRequest 0x04#8 {}
  | .ctlSave => ctlRequest 0x05#8 {}
  | .ctlRestore r => ctlRequest 0x06#8 { record := r }
  | .ctlSetIrqLine d l => ctlRequest 0x07#8 { deviceIndex := d, level := l }
  | .ctlInit => ctlRequest 0x08#8 {}

/-- The state-dependent part of decoding: a PRDT row is read only while its port is in the binding. -/
def Claimed (prdt : Option Port) : Instr → Bool
  | .prdtR8 p => inBinding prdt p
  | .prdtR16 p => inBinding prdt p
  | .prdtR32 p => inBinding prdt p
  | .prdtW8 p _ => inBinding prdt p
  | .prdtW16 p _ => inBinding prdt p
  | .prdtW32 p _ => inBinding prdt p
  | _ => true

/-! ### The host's view of the table -/

/-- The request whose descriptor is `w` (its low `nbits` bits) and whose operands are all zero. -/
def tableRequest (nbits w : Nat) : Request :=
  { td := BitVec.ofNat 64 (w % 2 ^ nbits), operands := {} }

/-- A binding that holds the port of an I/O descriptor: the port aligned down to 16. For the ports
0xCF0..0xCF7 it is 0xCF0, which no remap would bind (43_prdt_irq.md R245): DESIGN CHOICE, unsafe (assumption
log 2). -/
def tableBinding (td : BitVec 64) : Option Port := some (tdPort td &&& 0xFFF0#16)

/-- The instruction the decoder reads from the descriptor `w`. The PRDT rows match under a binding that
holds the port (spec/opcode_table.json, `dynamic_condition`). -/
def decodeTableWord (nbits w : Nat) : Option Instr :=
  let q := tableRequest nbits w
  match decode (tableBinding q.td) q with
  | .ok i => some i
  | .error _ => none

end Sys2Proof
end

