-- ==== Sys2Proof/Machine/Prdt.lean ====
section
/-!
DEFINITION. The IDE PRDT window requests (43_prdt_irq.md R246, R247): each is forwarded whole, with its
offset in the window, to the external PRDT register logic.
-/

namespace Sys2Proof.Machine

/-- A forwarded read of `n` bytes (R246): the value is a draw from the external logic, and no state of
the block changes. A port outside the binding is not the block's (R248). -/
def forwardedRead (n : Nat) (p : Port) (s : State) : Host.Outcome State Fault Refusal :=
  match s.prdt with
  | none => notClaimed s
  | some base =>
    if inBinding (some base) p then
      .next { s.drawn with
        reply := .data (lowBytes n (Config.forwardRead s.draws (windowOffset base p) n)) }
    else notClaimed s

/-- A forwarded write of `n` bytes (R247): `emit Forward(write, P - PRDT, n, WDATA)`. -/
def forwardedWrite (n : Nat) (p : Port) (v : Word) (s : State) : Host.Outcome State Fault Refusal :=
  match s.prdt with
  | none => notClaimed s
  | some base =>
    if inBinding (some base) p then
      .next { s.emit [.forwardWrite (windowOffset base p) n v] with reply := .done }
    else notClaimed s

/-- PRDT_R8 (R246). -/
def execPrdtR8 (p : Port) (s : State) : Host.Outcome State Fault Refusal := forwardedRead 1 p s

/-- PRDT_R16 (R246). -/
def execPrdtR16 (p : Port) (s : State) : Host.Outcome State Fault Refusal := forwardedRead 2 p s

/-- PRDT_R32 (R246). -/
def execPrdtR32 (p : Port) (s : State) : Host.Outcome State Fault Refusal := forwardedRead 4 p s

/-- PRDT_W8 (R247). -/
def execPrdtW8 (p : Port) (v : BitVec 8) (s : State) : Host.Outcome State Fault Refusal :=
  forwardedWrite 1 p (v.setWidth 32) s

/-- PRDT_W16 (R247). -/
def execPrdtW16 (p : Port) (v : BitVec 16) (s : State) : Host.Outcome State Fault Refusal :=
  forwardedWrite 2 p (v.setWidth 32) s

/-- PRDT_W32 (R247). -/
def execPrdtW32 (p : Port) (v : BitVec 32) (s : State) : Host.Outcome State Fault Refusal :=
  forwardedWrite 4 p v s

end Sys2Proof.Machine
end

