-- ==== Sys2Proof/Machine/Shadow.lean ====
section
/-!
DEFINITION. The memory-window requests (42_shadow_ram.md R221-R226).
-/

namespace Sys2Proof.Machine

/-- A window read request of `n` bytes: reads are never gated and write nothing (R218, R219). -/
def shadowRead (n : Nat) (a : Addr) (s : State) : Host.Outcome State Fault Refusal :=
  .next { afterRead n a s with reply := .data (memRead n a s) }

/-- A window write request of `n` bytes. -/
def shadowWrite (n : Nat) (a : Addr) (v : Word) (s : State) : Host.Outcome State Fault Refusal :=
  .next { memWrite n a v s with reply := .done }

/-- SHADOW_R8 (R221). -/
def execShadowR8 (a : Addr) (s : State) : Host.Outcome State Fault Refusal := shadowRead 1 a s

/-- SHADOW_R16 (R222). -/
def execShadowR16 (a : Addr) (s : State) : Host.Outcome State Fault Refusal := shadowRead 2 a s

/-- SHADOW_R32 (R223). -/
def execShadowR32 (a : Addr) (s : State) : Host.Outcome State Fault Refusal := shadowRead 4 a s

/-- SHADOW_W8 (R224). -/
def execShadowW8 (a : Addr) (v : BitVec 8) (s : State) : Host.Outcome State Fault Refusal :=
  shadowWrite 1 a (v.setWidth 32) s

/-- SHADOW_W16 (R225). -/
def execShadowW16 (a : Addr) (v : BitVec 16) (s : State) : Host.Outcome State Fault Refusal :=
  shadowWrite 2 a (v.setWidth 32) s

/-- SHADOW_W32 (R226). -/
def execShadowW32 (a : Addr) (v : BitVec 32) (s : State) : Host.Outcome State Fault Refusal :=
  shadowWrite 4 a v s

end Sys2Proof.Machine
end

