-- ==== Sys2Proof/Machine/Dispatch.lean ====
section
/-!
DEFINITION. The meaning of every request: one arm per row of spec/opcode_table.json.
-/

namespace Sys2Proof.Machine

def exec (i : Instr) (s : State) : Host.Outcome State Fault Refusal :=
  match i with
  | .cfgAddrW8 port data => Sys2Proof.Machine.execCfgAddrW8 port data s
  | .cfgAddrW16 port data => Sys2Proof.Machine.execCfgAddrW16 port data s
  | .cfgAddrW32 port data => Sys2Proof.Machine.execCfgAddrW32 port data s
  | .cfgAddrR8 port => Sys2Proof.Machine.execCfgAddrR8 port s
  | .cfgAddrR16 port => Sys2Proof.Machine.execCfgAddrR16 port s
  | .cfgAddrR32 port => Sys2Proof.Machine.execCfgAddrR32 port s
  | .cfgDataW8 port data => Sys2Proof.Machine.execCfgDataW8 port data s
  | .cfgDataW16 port data => Sys2Proof.Machine.execCfgDataW16 port data s
  | .cfgDataW32 port data => Sys2Proof.Machine.execCfgDataW32 port data s
  | .cfgDataR8 port => Sys2Proof.Machine.execCfgDataR8 port s
  | .cfgDataR16 port => Sys2Proof.Machine.execCfgDataR16 port s
  | .cfgDataR32 port => Sys2Proof.Machine.execCfgDataR32 port s
  | .shadowR8 addr => Sys2Proof.Machine.execShadowR8 addr s
  | .shadowR16 addr => Sys2Proof.Machine.execShadowR16 addr s
  | .shadowR32 addr => Sys2Proof.Machine.execShadowR32 addr s
  | .shadowW8 addr data => Sys2Proof.Machine.execShadowW8 addr data s
  | .shadowW16 addr data => Sys2Proof.Machine.execShadowW16 addr data s
  | .shadowW32 addr data => Sys2Proof.Machine.execShadowW32 addr data s
  | .prdtR8 port => Sys2Proof.Machine.execPrdtR8 port s
  | .prdtR16 port => Sys2Proof.Machine.execPrdtR16 port s
  | .prdtR32 port => Sys2Proof.Machine.execPrdtR32 port s
  | .prdtW8 port data => Sys2Proof.Machine.execPrdtW8 port data s
  | .prdtW16 port data => Sys2Proof.Machine.execPrdtW16 port data s
  | .prdtW32 port data => Sys2Proof.Machine.execPrdtW32 port data s
  | .ctlCreateDevice bus device function kind => Sys2Proof.Machine.execCtlCreateDevice bus device function kind s
  | .ctlGetConfigPtr bus device function => Sys2Proof.Machine.execCtlGetConfigPtr bus device function s
  | .ctlCopyDefault slot image size => Sys2Proof.Machine.execCtlCopyDefault slot image size s
  | .ctlReset => Sys2Proof.Machine.execCtlReset s
  | .ctlSave => Sys2Proof.Machine.execCtlSave s
  | .ctlRestore record => Sys2Proof.Machine.execCtlRestore record s
  | .ctlSetIrqLine deviceIndex level => Sys2Proof.Machine.execCtlSetIrqLine deviceIndex level s
  | .ctlInit => Sys2Proof.Machine.execCtlInit s

end Sys2Proof.Machine
end

