-- ==== Sys2Proof/Machine/Fetch.lean ====
section
/-!
DEFINITION. How the block takes its next request from those that have arrived (10_state.md R31, R33), and
what a request that decodes to nothing does.
-/

namespace Sys2Proof.Machine

/-- The next request, if one waits: the oldest, with the state that no longer holds it. -/
def nextRequest (s : State) : Option (Request × State) :=
  match s.pending with
  | [] => none
  | q :: rest => some (q, { s with pending := rest })

/-- What a request that decodes to nothing does: the two refusals of 30_encoding.md R107 set the refusal
mark, and an access that is not addressed to the block leaves it as it is. -/
def rejectRequest (r : Reject) (s : State) : Host.Outcome State Fault Refusal :=
  match r with
  | .badDescriptor => complete (fun _ : Unit => .done) (refuse .badDescriptor s)
  | .badSize => complete (fun _ : Unit => .done) (refuse .badSize s)
  | .notThisBlock => notClaimed s

/-- The binding under which a table descriptor is decoded: the live one, or, for a PRDT row whose port it
does not hold, the one that holds it. DESIGN CHOICE, unsafe (assumption log 2): this sets the binding outside
any step, with no Unbind or Bind event and no refusal, also at the ports 0xCF0..0xCF7, whose base 0xCF0 the
remapper would refuse (43_prdt_irq.md R245). -/
def fetchBinding (prdt : Option Port) (q : Request) : Option Port :=
  match decode prdt q with
  | .ok _ => prdt
  | .error _ =>
    match decode (tableBinding q.td) q with
    | .ok _ => tableBinding q.td
    | .error _ => prdt

/-- The host submits a request: it waits behind those that arrived before it (R33). -/
def State.submit (s : State) (q : Request) : State := { s with pending := s.pending ++ [q] }

end Sys2Proof.Machine
end

