-- ==== Sys2Proof/Machine/Step.lean ====
section
/-!
DEFINITION. One step of the block (10_state.md R31, R33; 92_eei_decisions.md D1): the oldest waiting
request is decoded and performed to completion.
-/

namespace Sys2Proof.Machine

/-- Perform one request. -/
def performRequest (q : Request) (s : State) : Host.Outcome State Fault Refusal :=
  match decode s.prdt q with
  | .ok i => exec i s
  | .error r => rejectRequest r s

/-- One step. A faulted or refused block takes no further step (60_exceptions.md R296, R299). Without a
waiting request the block does nothing: it never initiates a step (10_state.md R31). -/
def step (s : State) : Host.Outcome State Fault Refusal :=
  match s.fault with
  | some reason => .fault (.halted reason)
  | none =>
    match s.refusal with
    | some reason => .refused (.marked reason)
    | none =>
      match nextRequest s with
      | none => .next s
      | some (q, s') => performRequest q s'

/-- The descriptor `w`, with operands of zeros, put first among the waiting requests. A PRDT row is
selected by the live binding (30_encoding.md R107), so for such a row the binding is moved over its port,
outside any step and without a refusal even for the base 0xCF0 (43_prdt_irq.md R245): DESIGN CHOICE, unsafe
(assumption log 2). -/
def State.withFetchWord (s : State) (nbits w : Nat) : State :=
  { s with
    pending := tableRequest nbits w :: s.pending
    prdt := fetchBinding s.prdt (tableRequest nbits w) }

end Sys2Proof.Machine
end

