-- ==== Sys2Proof/Safety.lean ====
section
/-!
DEFINITION. What a safe run is, in the terms the claims use: a running block, the invariants every step
keeps, the rows by kind, and the ways to say that a request leaves something as it was.
-/

namespace Sys2Proof.Machine

/-- The block still takes steps: no fatal has been raised and no refusal marked
(60_exceptions.md R296, R299). -/
abbrev State.Running (s : State) : Prop := s.fault = none ∧ s.refusal = none

/-! ### Reading the store -/

/-- The kind of the device in a slot. -/
def State.kindAt (s : State) (i : SlotIndex) : Option Kind := (s.slot i).map Device.kind

/-- `CFG[i][o]`, if slot `i` is populated. -/
def State.cfgAt (s : State) (i : SlotIndex) (o : Offset) : Option Byte :=
  (s.slot i).map fun d => cfgByte d.cfg o

/-- Data-window accesses reach slot `i`, which holds `d`, at register `r`: the cycle is enabled, the bus
is 0 and `CA` names the slot and the register (40_config_cycle.md R135, R136). -/
abbrev State.Selects (s : State) (i : SlotIndex) (d : Device) (r : BitVec 6) : Prop :=
  s.cyc = true ∧ caBus s.ca = 0#8 ∧ caDevfn s.ca = i ∧ caReg s.ca = r ∧ s.slot i = some d

/-- Data-window accesses find no device: the block is `Idle`, the bus is not 0, or the slot is empty
(40_config_cycle.md R153). -/
abbrev State.NoDevice (s : State) : Prop :=
  s.cyc = false ∨ caBus s.ca ≠ 0#8 ∨ s.slot (caDevfn s.ca) = none

/-- A configuration space whose first bytes are those of an image (44_control.md R264). -/
def withImage (image : List Byte) (space : CfgSpace) : CfgSpace :=
  Vector.ofFn fun o => if o.val < image.length then image.getD o.val 0 else space[o.val]

/-- The permission map lets a write to address `x` through: bit 1 of the entry of its 16 KiB region
(42_shadow_ram.md R211, R220). -/
def State.writeAllowed (s : State) (x : Nat) : Bool :=
  (s.pam[(x - 0xC0000) / 0x4000]?.getD 0#4).getLsbD 1

/-- The notifications of a whole map, in region order (42_shadow_ram.md R212). -/
def noticesOfMap (f : Nat → Nibble) : List Event :=
  (List.range 16).map fun i => .permChanged (BitVec.ofNat 4 i) (f i)

/-- The events of a binding change: the old base unbound, if there was one, then the new one bound
(43_prdt_irq.md R242). -/
def rebindEvents (old : Option Port) (new : Port) : List Event := old.toList.map Event.unbind ++ [.bind new]

/-- The IDE controller is in slot 9 and its BAR4 selects I/O space (10_state.md R44). -/
abbrev State.IdeBarIsIo (s : State) : Prop :=
  ∃ d, s.slot 9#8 = some d ∧ d.kind = .ideController ∧ d.cfg[0x20].getLsbD 0 = true

/-! ### Invariants -/

/-- The window memory is in canonical form and lists only window addresses. -/
abbrev WindowInv (m : Memory) : Prop :=
  m.wf ∧ ∀ e ∈ m, 0xC0000 ≤ e.1 ∧ e.1 ≤ 0xFFFFF

/-- A live binding is aligned to 16 ports and does not cover the configuration ports
(10_state.md R46, 43_prdt_irq.md R245). -/
abbrev BindingInv (prdt : Option Port) : Prop :=
  ∀ b, prdt = some b → b &&& 0x000F#16 = 0#16 ∧ b ≠ 0x0CF0#16

/-- What every step of the block keeps, whatever is requested. -/
abbrev BlockInv (s : State) : Prop := WindowInv s.win ∧ BindingInv s.prdt

/-- `CA` holds no reserved bit and `CYC` is `CA[31]` (10_state.md R35, R37). -/
abbrev AddressLegal (ca : Word) (cyc : Bool) : Prop := ca &&& 0x7F000003#32 = 0#32 ∧ cyc = ca.getLsbD 31

/-- `AddressLegal`, and every waiting restore carries a record that obeys it: a restore writes `CA` and
`CYC` verbatim (44_control.md R269), so it alone can break the rule. -/
abbrev AddressInv (s : State) : Prop :=
  AddressLegal s.ca s.cyc ∧
    ∀ q ∈ s.pending, AddressLegal q.operands.record.addr q.operands.record.cyc

/-! ### Rows by kind -/

/-- The rows a CPU issues: port and memory accesses (60_exceptions.md R295). -/
def isCpuRow : Instr → Bool
  | .cfgAddrW8 _ _ | .cfgAddrW16 _ _ | .cfgAddrW32 _ _ => true
  | .cfgAddrR8 _ | .cfgAddrR16 _ | .cfgAddrR32 _ => true
  | .cfgDataW8 _ _ | .cfgDataW16 _ _ | .cfgDataW32 _ _ => true
  | .cfgDataR8 _ | .cfgDataR16 _ | .cfgDataR32 _ => true
  | .shadowR8 _ | .shadowR16 _ | .shadowR32 _ => true
  | .shadowW8 _ _ | .shadowW16 _ _ | .shadowW32 _ _ => true
  | .prdtR8 _ | .prdtR16 _ | .prdtR32 _ => true
  | .prdtW8 _ _ | .prdtW16 _ _ | .prdtW32 _ _ => true
  | .ctlCreateDevice _ _ _ _ | .ctlGetConfigPtr _ _ _ | .ctlCopyDefault _ _ _ => false
  | .ctlReset | .ctlSave | .ctlRestore _ | .ctlSetIrqLine _ _ | .ctlInit => false

/-- The rows that only read (20_memory.md R82). -/
def isReadRow : Instr → Bool
  | .cfgAddrR8 _ | .cfgAddrR16 _ | .cfgAddrR32 _ => true
  | .cfgDataR8 _ | .cfgDataR16 _ | .cfgDataR32 _ => true
  | .shadowR8 _ | .shadowR16 _ | .shadowR32 _ => true
  | .prdtR8 _ | .prdtR16 _ | .prdtR32 _ => true
  | _ => false

/-- The rows that write the address register (40_config_cycle.md R140-R142). -/
def isAddrWriteRow : Instr → Bool
  | .cfgAddrW8 _ _ | .cfgAddrW16 _ _ | .cfgAddrW32 _ _ => true
  | _ => false

/-- The rows that can write a data-window byte: the data writes, and the address writes that run past
0xCFB (70_reset_and_hazards.md R328). -/
def isConfigWriteRow : Instr → Bool
  | .cfgAddrW8 _ _ | .cfgAddrW16 _ _ | .cfgAddrW32 _ _ => true
  | .cfgDataW8 _ _ | .cfgDataW16 _ _ | .cfgDataW32 _ _ => true
  | _ => false

/-- The data accesses of several bytes that run past 0xCFF (20_memory.md R76). -/
def runsPastDataWindow : Instr → Bool
  | .cfgDataW16 p _ | .cfgDataR16 p => decide (0xD00 < p.toNat + 2)
  | .cfgDataW32 p _ | .cfgDataR32 p => decide (0xD00 < p.toNat + 4)
  | _ => false

/-- The rows that write the window (42_shadow_ram.md R224-R226). -/
def isShadowWriteRow : Instr → Bool
  | .shadowW8 _ _ | .shadowW16 _ _ | .shadowW32 _ _ => true
  | _ => false

/-- The host operations that set the whole configuration state: reset, restore and assembly. -/
def isReloadRow : Instr → Bool
  | .ctlReset | .ctlRestore _ | .ctlInit => true
  | _ => false

/-! ### Byte requests in sequence (40_config_cycle.md R139) -/

/-- The one-byte write request at a port: the address row on 0xCF8..0xCFB, the data row elsewhere. -/
def byteWriteRow (p : Port) (v : Byte) : Instr :=
  if isAddrPort p then .cfgAddrW8 p v else .cfgDataW8 p v

/-- The one-byte read request at a port: the address row on 0xCF8..0xCFB, the data row elsewhere. -/
def byteReadRow (p : Port) : Instr :=
  if isAddrPort p then .cfgAddrR8 p else .cfgDataR8 p

/-- One request after another, up to the first that ends in a fatal or a refusal. -/
def execInTurn : List Instr → State → Host.Outcome State Fault Refusal
  | [], s => .next s
  | i :: rest, s =>
    match exec i s with
    | .next t => if t.reply = .stopped then .next t else execInTurn rest t
    | .fault r => .fault r
    | .refused r => .refused r

end Sys2Proof.Machine
end

