-- ==== Sys2Proof/Certificates/Slice0/Obligations.lean ====
section
/-!
DEFINITION. The statements for the provers. Each says what a request, the decoder or the whole block does,
in the terms of the rules of spec/. An equation with a next state written out as an update of the old
state is result, frame and completion in one: every field it does not name is unchanged. The optional log
is left open (60_exceptions.md R300: no claim may depend on it).
-/

open Sys2Proof Sys2Proof.Machine

/-! ### Requests, steps and decoding -/

/-- A running block performs the request it decodes: the step is `exec` of it, on the state that no longer
holds the request (10_state.md R31, R33; that requests wait in a queue of the state is the model's choice,
assumption log 1). -/
def Obligations.StepRunsTheDecodedRequest : Prop :=
  ∀ (s : State) (q : Request) (rest : List Request) (i : Instr),
    s.Running → s.pending = q :: rest → decode s.prdt q = .ok i →
    step s = exec i { s with pending := rest }

/-- A reserved descriptor sets the refusal mark, and an access that is not the block's leaves the block as
it is; both leave the queue (assumption logs 1 and 3 say that this is the model's choice). -/
def Obligations.StepOnUndecodedRequest : Prop :=
  ∀ (s : State) (q : Request) (rest : List Request), s.Running → s.pending = q :: rest →
    (decode s.prdt q = .error .badDescriptor →
      step s = .next { s with pending := rest, refusal := some .badDescriptor, reply := .stopped }) ∧
    (decode s.prdt q = .error .badSize →
      step s = .next { s with pending := rest, refusal := some .badSize, reply := .stopped }) ∧
    (decode s.prdt q = .error .notThisBlock →
      step s = .next { s with pending := rest, reply := .notClaimed })

/-- A faulted block and a refused block take no further step (60_exceptions.md R296, R299; the form of
the outcome is the model's choice, assumption log 1). -/
def Obligations.StoppedBlockTakesNoStep : Prop :=
  ∀ s : State,
    (∀ r, s.fault = some r → step s = .fault (.halted r)) ∧
    (∀ r, s.fault = none → s.refusal = some r → step s = .refused (.marked r))

/-- Descriptors written out from 30_encoding.md R101 and 95_test_vectors.md decode to their rows. -/
def Obligations.SampleDescriptorsDecode : Prop :=
  decode none ⟨0x1C00000000000CF8, { wdata := 0x80000920 }⟩ = .ok (.cfgAddrW32 0xCF8#16 0x80000920) ∧
  decode none ⟨0x1200000000000CFE, {}⟩ = .ok (.cfgDataR16 0xCFE) ∧
  decode none ⟨0x29000000000F0000, { wdata := 0x155 }⟩ = .ok (.shadowW8 0xF0000 0x55) ∧
  decode (some 0xC000#16) ⟨0x110000000000C002, {}⟩ = .ok (.prdtR8 0xC002) ∧
  decode (some 0xD000) ⟨0x110000000000C002, {}⟩ = .error .notThisBlock ∧
  decode none ⟨0x3000000700000000, { deviceIndex := 9, level := 1 }⟩ = .ok (.ctlSetIrqLine 9 1) ∧
  decode none ⟨0x3000000800000000, {}⟩ = .ok .ctlInit

/-- Decoding the encoding of any well-formed request gives it back, with every operand at every value, under
any binding that claims it. -/
def Obligations.DecodeOfEncode : Prop :=
  ∀ (prdt : Option Port) (i : Instr),
    WellFormed i = true → Claimed prdt i = true → decode prdt (encode i) = .ok i

/-- The decoder accepts only the descriptors the encoder writes: no bit of a descriptor is dropped, and what
it reads is well-formed and claimed by the binding. That an I/O or memory descriptor whose OP is not 0 is
refused (30_encoding.md R101, R116) is the model's reading, which the listing of R107 does not say (assumption
log 6). -/
def Obligations.EncodeOfDecode : Prop :=
  ∀ (prdt : Option Port) (q : Request) (i : Instr), decode prdt q = .ok i →
    (encode i).td = q.td ∧ WellFormed i = true ∧ Claimed prdt i = true

/-- The validity lines of 30_encoding.md R107, for descriptors that pass the lines before them; a port that
neither the configuration rows nor the binding claim, and an address outside the window, are not the block's
(43_prdt_irq.md R248). -/
def Obligations.RejectedDescriptors : Prop :=
  (∀ (prdt : Option Port) (q : Request),
    (tdReserved q.td ≠ 0 ∨ tdSpace q.td ∉ [1#4, 2#4, 3#4] → decode prdt q = .error .badDescriptor) ∧
    (tdReserved q.td = 0 → tdSpace q.td ∈ [1#4, 2#4] → tdSize q.td ∉ [1#3, 2#3, 4#3] →
      decode prdt q = .error .badSize) ∧
    (tdReserved q.td = 0 → tdSpace q.td = 3#4 →
      (tdDir q.td = true ∨ tdSize q.td ≠ 0 ∨ tdAddr q.td ≠ 0 ∨ tdOp q.td = 0 ∨ 8 < (tdOp q.td).toNat) →
      decode prdt q = .error .badDescriptor) ∧
    (tdReserved q.td = 0 → tdSpace q.td = 1#4 → tdSize q.td ∈ [1#3, 2#3, 4#3] →
      0xFFFF < (tdAddr q.td).toNat → decode prdt q = .error .badDescriptor)) ∧
  (∀ (prdt : Option Port) (p : Port) (v : Word), isAddrPort p = false → isDataPort p = false →
    (∀ b, prdt = some b → p.toNat < b.toNat ∨ b.toNat + 15 < p.toNat) →
    ∀ top ∈ [0x11#8, 0x12#8, 0x14#8, 0x19#8, 0x1A#8, 0x1C#8],
      decode prdt (accessRequest top (p.setWidth 32) v) = .error .notThisBlock) ∧
  (∀ (prdt : Option Port) (a : Addr) (v : Word), (a.toNat < 0xC0000 ∨ 0xFFFFF < a.toNat) →
    ∀ top ∈ [0x21#8, 0x22#8, 0x24#8, 0x29#8, 0x2A#8, 0x2C#8],
      decode prdt (accessRequest top a v) = .error .notThisBlock)

/-! ### The configuration address register -/

/-- CFG_ADDR_W8: the byte replaces its lane, reserved bits read 0 afterwards, and the cycle flag is bit 31
(40_config_cycle.md R132, R140). -/
def Obligations.AddressByteWrite : Prop :=
  ∀ (s : State) (p : Port) (v : BitVec 8), isAddrPort p = true →
    ∃ (ca : Word) (l : List LogCode),
      exec (.cfgAddrW8 p v) s =
        .next { s with ca := ca, cyc := ca.getLsbD 31, log := l, reply := .done } ∧
      ∀ j, j < 32 → ca.getLsbD j =
        (!(0x7F000003#32).getLsbD j &&
          if 8 * (p.toNat - 0xCF8) ≤ j ∧ j < 8 * (p.toNat - 0xCF8) + 8
          then v.getLsbD (j - 8 * (p.toNat - 0xCF8)) else s.ca.getLsbD j)

/-- CFG_ADDR_W16 inside the register: its two lanes, as for one byte (40_config_cycle.md R141). -/
def Obligations.AddressWordWrite : Prop :=
  ∀ (s : State) (p : Port) (v : BitVec 16), isAddrPort p = true → p ≠ 0xCFB#16 →
    ∃ (ca : Word) (l : List LogCode),
      exec (.cfgAddrW16 p v) s =
        .next { s with ca := ca, cyc := ca.getLsbD 31, log := l, reply := .done } ∧
      ∀ j, j < 32 → ca.getLsbD j =
        (!(0x7F000003#32).getLsbD j &&
          if 8 * (p.toNat - 0xCF8) ≤ j ∧ j < 8 * (p.toNat - 0xCF8) + 16
          then v.getLsbD (j - 8 * (p.toNat - 0xCF8)) else s.ca.getLsbD j)

/-- CFG_ADDR_W32 at 0xCF8 replaces the register with `WDATA & 0x80FFFFFC` (40_config_cycle.md R142). -/
def Obligations.AddressDwordWrite : Prop :=
  ∀ (s : State) (v : BitVec 32), ∃ l : List LogCode,
    exec (.cfgAddrW32 0xCF8#16 v) s =
      .next { s with ca := v &&& 0x80FFFFFC, cyc := v.getLsbD 31, log := l, reply := .done }

/-- A byte read of the register: `CA[8k+7:8k]`, in either state, writing nothing
(40_config_cycle.md R134). -/
def Obligations.AddressByteRead : Prop :=
  ∀ (s : State) (p : Port), isAddrPort p = true →
    exec (.cfgAddrR8 p) s =
      .next { s with reply := .data ((s.ca.extractLsb' (8 * (p.toNat - 0xCF8)) 8).setWidth 32) }

/-- Wide reads inside the register (40_config_cycle.md R144, R145). -/
def Obligations.AddressWideRead : Prop :=
  (∀ (s : State) (p : Port), isAddrPort p = true → p ≠ 0xCFB#16 →
    exec (.cfgAddrR16 p) s =
      .next { s with reply := .data ((s.ca.extractLsb' (8 * (p.toNat - 0xCF8)) 16).setWidth 32) }) ∧
  (∀ s : State, exec (.cfgAddrR32 0xCF8#16) s = .next { s with reply := .data s.ca })

/-- A 16- or 32-bit port read at any start port joins its byte reads, the lowest port in bits 7:0, whether
they fall in the register or in the window (20_memory.md R74; 40_config_cycle.md R139, R144). -/
def Obligations.WideReadsJoinByteReads : Prop :=
  ∀ (s : State) (p : Port) (b : Fin 4 → Byte), (isAddrPort p || isDataPort p) = true →
    let reads := fun k : Fin 4 =>
      exec (byteReadRow (p + BitVec.ofNat 16 k.val)) s =
        .next { s with reply := .data ((b k).setWidth 32) }
    (reads 0 → reads 1 →
      exec (if isAddrPort p then .cfgAddrR16 p else .cfgDataR16 p) s =
        .next { s with reply := .data ((b 0).setWidth 32 ||| (b 1).setWidth 32 <<< 8) }) ∧
    (reads 0 → reads 1 → reads 2 → reads 3 →
      exec (if isAddrPort p then .cfgAddrR32 p else .cfgDataR32 p) s =
        .next { s with
          reply := .data ((b 0).setWidth 32 ||| (b 1).setWidth 32 <<< 8 ||| (b 2).setWidth 32 <<< 16 |||
            (b 3).setWidth 32 <<< 24) })

/-- "Address-register write then immediate read-back of the same byte lanes returns the written value with
reserved bits forced to zero" (40_config_cycle.md R145). -/
def Obligations.AddressReadBack : Prop :=
  ∀ (s t : State) (v : BitVec 32), exec (.cfgAddrW32 0xCF8#16 v) s = .next t →
    exec (.cfgAddrR32 0xCF8#16) t = .next { t with reply := .data (v &&& ~~~0x7F000003#32) }

/-- A 16- or 32-bit port write is its byte writes in port order, each seeing the state the one before left,
up to the first that ends the request (40_config_cycle.md R139; 70_reset_and_hazards.md R328). -/
def Obligations.WideWritesAreByteWritesInTurn : Prop :=
  (∀ (s : State) (p : Port) (v : BitVec 16), (isAddrPort p || isDataPort p) = true →
    exec (if isAddrPort p then .cfgAddrW16 p v else .cfgDataW16 p v) s =
      execInTurn [byteWriteRow p (v.extractLsb' 0 8), byteWriteRow (p + 1#16) (v.extractLsb' 8 8)] s) ∧
  (∀ (s : State) (p : Port) (v : BitVec 32), (isAddrPort p || isDataPort p) = true →
    exec (if isAddrPort p then .cfgAddrW32 p v else .cfgDataW32 p v) s =
      execInTurn [byteWriteRow p (v.extractLsb' 0 8), byteWriteRow (p + 1#16) (v.extractLsb' 8 8),
        byteWriteRow (p + 2#16) (v.extractLsb' 16 8), byteWriteRow (p + 3#16) (v.extractLsb' 24 8)] s)

/-! ### The configuration data window -/

/-- A data read returns all-ones of its width without a device, and else the configuration bytes of the
slot at `4*REG + lane`, little-endian; it changes nothing (40_config_cycle.md R136; 20_memory.md R74). -/
def Obligations.DataReads : Prop :=
  (∀ s : State, s.NoDevice →
    (∀ p, isDataPort p = true → exec (.cfgDataR8 p) s = .next { s with reply := .data 0xFF }) ∧
    (∀ p, isDataPort p = true → p ≠ 0xCFF#16 →
      exec (.cfgDataR16 p) s = .next { s with reply := .data 0xFFFF }) ∧
    exec (.cfgDataR32 0xCFC#16) s = .next { s with reply := .data 0xFFFFFFFF }) ∧
  (∀ (s : State) (i : SlotIndex) (d : Device) (r : BitVec 6), s.Selects i d r →
    (∀ p, isDataPort p = true →
      exec (.cfgDataR8 p) s =
        .next { s with reply := .data ((d.cfg[4 * r.toNat + (p.toNat - 0xCFC)]?.getD 0).setWidth 32) }) ∧
    (∀ p, isDataPort p = true → p ≠ 0xCFF#16 →
      exec (.cfgDataR16 p) s =
        .next { s with
          reply := .data ((d.cfg[4 * r.toNat + (p.toNat - 0xCFC)]?.getD 0).setWidth 32 |||
            (d.cfg[4 * r.toNat + (p.toNat - 0xCFC) + 1]?.getD 0).setWidth 32 <<< 8) }) ∧
    exec (.cfgDataR32 0xCFC#16) s =
      .next { s with
        reply := .data ((d.cfg[4 * r.toNat]?.getD 0).setWidth 32 |||
          (d.cfg[4 * r.toNat + 1]?.getD 0).setWidth 32 <<< 8 |||
          (d.cfg[4 * r.toNat + 2]?.getD 0).setWidth 32 <<< 16 |||
          (d.cfg[4 * r.toNat + 3]?.getD 0).setWidth 32 <<< 24) })

/-- Without a device every data write is dropped (40_config_cycle.md R135, R153). -/
def Obligations.DataWriteWithoutDevice : Prop :=
  ∀ s : State, s.NoDevice →
    (∀ p v, isDataPort p = true →
      ∃ l, exec (.cfgDataW8 p v) s = .next { s with log := l, reply := .done }) ∧
    (∀ p v, isDataPort p = true → p ≠ 0xCFF#16 →
      ∃ l, exec (.cfgDataW16 p v) s = .next { s with log := l, reply := .done }) ∧
    (∀ v, ∃ l, exec (.cfgDataW32 0xCFC#16 v) s = .next { s with log := l, reply := .done })

/-- A data access that runs past 0xCFF is fatal at port 0xD00: a read gives no data and changes nothing else;
a write keeps the effects of its bytes up to 0xCFF, which are those of the byte requests in port order, unless
one of them has ended the request (20_memory.md R76; 40_config_cycle.md R139, R147, R148, R150, R151). -/
def Obligations.DataOverrunIsFatal : Prop :=
  (∀ s : State,
    exec (.cfgDataR16 0xCFF#16) s =
      .next { s with fault := some (.unrecognizedPort 0xD00#16), reply := .stopped } ∧
    ∀ p ∈ [0xCFD#16, 0xCFE#16, 0xCFF#16],
      exec (.cfgDataR32 p) s =
        .next { s with fault := some (.unrecognizedPort 0xD00#16), reply := .stopped }) ∧
  (∀ (s u : State) (v : BitVec 16),
    exec (.cfgDataW8 0xCFF#16 (v.extractLsb' 0 8)) s = .next u → u.reply = .done →
    exec (.cfgDataW16 0xCFF#16 v) s =
      .next { u with fault := some (.unrecognizedPort 0xD00#16), reply := .stopped }) ∧
  ∀ p ∈ [0xCFD#16, 0xCFE#16, 0xCFF#16], ∀ (s u : State) (v : BitVec 32),
    execInTurn ((List.range (0xD00 - p.toNat)).map fun k =>
      .cfgDataW8 (p + BitVec.ofNat 16 k) (v.extractLsb' (8 * k) 8)) s = .next u → u.reply = .done →
    exec (.cfgDataW32 p v) s =
      .next { u with fault := some (.unrecognizedPort 0xD00#16), reply := .stopped }

/-! ### Write classes of the devices -/

/-- Host bridge offset 0x04: bit 6 takes the written bit, the others HB_CMD_FIXED, whose bit 6 is 0
(41_device_models.md R175). -/
def Obligations.HostBridgeCommandWrite : Prop :=
  (∀ (s : State) (i : SlotIndex) (d : Device) (v : Byte), s.Selects i d 1#6 → d.kind = .hostBridge →
    exec (.cfgDataW8 0xCFC#16 v) s =
      .next { s with
        slots := s.slots.set i.toNat (some ⟨d.kind, d.cfg.set 4 ((v &&& 0x40) ||| hbCmdFixed)⟩) i.isLt
        reply := .done }) ∧
  hbCmdFixed.getLsbD 6 = false

/-- Host bridge offset 0x07: write-1-to-clear with mask 0xF9 (41_device_models.md R176). -/
def Obligations.HostBridgeStatusWriteClears : Prop :=
  ∀ (s : State) (i : SlotIndex) (d : Device) (v : Byte), s.Selects i d 1#6 → d.kind = .hostBridge →
    exec (.cfgDataW8 0xCFF#16 v) s =
      .next { s with
        slots := s.slots.set i.toNat (some ⟨d.kind, d.cfg.set 7 (d.cfg[7] &&& ~~~(v &&& 0xF9))⟩) i.isLt
        reply := .done }

/-- Host bridge offset 0x59: the byte is stored and its high nibble becomes the permission of regions
12..15, with their notifications in order (41_device_models.md R177; 42_shadow_ram.md R215). -/
def Obligations.BiosPamWrite : Prop :=
  ∀ (s : State) (i : SlotIndex) (d : Device) (v : Byte), s.Selects i d 0x16#6 → d.kind = .hostBridge →
    exec (.cfgDataW8 0xCFD#16 v) s =
      .next { s with
        slots := s.slots.set i.toNat (some ⟨d.kind, d.cfg.set 0x59 v⟩) i.isLt
        pam := Vector.ofFn fun k => if 12 ≤ k.val then v.extractLsb' 4 4 else s.pam[k.val]
        trace := s.trace ++ [.permChanged 12 (v.extractLsb' 4 4), .permChanged 13 (v.extractLsb' 4 4),
          .permChanged 14 (v.extractLsb' 4 4), .permChanged 15 (v.extractLsb' 4 4)]
        reply := .done }

/-- Host bridge offsets 0x5A..0x5F: the byte is stored, its low nibble becomes the permission of region
`2*(o - 0x5A)` and its high nibble that of the next region (42_shadow_ram.md R216). -/
def Obligations.PairPamWrite : Prop :=
  ∀ (s : State) (i : SlotIndex) (d : Device) (v : Byte) (r : BitVec 6) (p : Port) (n : Nat),
    n < 6 → isDataPort p = true → 4 * r.toNat + (p.toNat - 0xCFC) = 0x5A + n →
    s.Selects i d r → d.kind = .hostBridge →
    exec (.cfgDataW8 p v) s =
      .next { s with
        slots := s.slots.set i.toNat (some ⟨d.kind, d.cfg.setIfInBounds (0x5A + n) v⟩) i.isLt
        pam := Vector.ofFn fun k =>
          if k.val = 2 * n then v.extractLsb' 0 4
          else if k.val = 2 * n + 1 then v.extractLsb' 4 4 else s.pam[k.val]
        trace := s.trace ++ [.permChanged (BitVec.ofNat 4 (2 * n)) (v.extractLsb' 0 4),
          .permChanged (BitVec.ofNat 4 (2 * n + 1)) (v.extractLsb' 4 4)]
        reply := .done }

/-- The ISA bridge's and the IDE controller's command bytes are masked and the ISA bridge's status byte is
write-1-to-clear, with their parameters; a fixed bit is never a writable one
(41_device_models.md R179, R180, R182). -/
def Obligations.IsaAndIdeCommandAndStatusWrite : Prop :=
  (∀ (s : State) (i : SlotIndex) (d : Device) (v : Byte), s.Selects i d 1#6 → d.kind = .isaBridge →
    exec (.cfgDataW8 0xCFC#16 v) s =
      .next { s with
        slots := s.slots.set i.toNat
          (some ⟨d.kind, d.cfg.set 4 ((v &&& Config.isaCmdWmask) ||| isaCmdFixed)⟩) i.isLt
        reply := .done } ∧
    exec (.cfgDataW8 0xCFF#16 v) s =
      .next { s with
        slots := s.slots.set i.toNat
          (some ⟨d.kind, d.cfg.set 7 (d.cfg[7] &&& ~~~(v &&& Config.isaStsClearMask))⟩) i.isLt
        reply := .done }) ∧
  isaCmdFixed &&& Config.isaCmdWmask = 0#8 ∧
  (∀ (s : State) (i : SlotIndex) (d : Device) (v : Byte), s.Selects i d 1#6 → d.kind = .ideController →
    exec (.cfgDataW8 0xCFC#16 v) s =
      .next { s with
        slots := s.slots.set i.toNat
          (some ⟨d.kind, d.cfg.set 4 ((v &&& Config.ideCmdWmask) ||| ideCmdFixed)⟩) i.isLt
        reply := .done }) ∧
  ideCmdFixed &&& Config.ideCmdWmask = 0#8

/-- IDE offsets 0x20, 0x21 and 0x22: bit 0 forced to 1, stored raw, forced to 0; none of them rebinds
(41_device_models.md R183, R184, R185). The 0 at 0x22 is the spec's own reading of the source, its decision
D8 (R185). -/
def Obligations.IdeBarLowBytesWrite : Prop :=
  ∀ (s : State) (i : SlotIndex) (d : Device) (v : Byte), s.Selects i d 8#6 → d.kind = .ideController →
    exec (.cfgDataW8 0xCFC#16 v) s =
      .next { s with
        slots := s.slots.set i.toNat (some ⟨d.kind, d.cfg.set 0x20 (v ||| 0x01)⟩) i.isLt
        reply := .done } ∧
    exec (.cfgDataW8 0xCFD#16 v) s =
      .next { s with
        slots := s.slots.set i.toNat (some ⟨d.kind, d.cfg.set 0x21 v⟩) i.isLt, reply := .done } ∧
    exec (.cfgDataW8 0xCFE#16 v) s =
      .next { s with
        slots := s.slots.set i.toNat (some ⟨d.kind, d.cfg.set 0x22 0⟩) i.isLt, reply := .done }

/-- IDE offset 0x23 in slot 9: stored as 0, then the check of the base `BAR4[15:0] & 0xFFF0` against the live
binding, the overlap refusal and the rebinding (41_device_models.md R186; 43_prdt_irq.md R242, R245). That no
memory-space fatal stands among the ends, whatever bit 0 of BAR4 is, follows 90_conflicts.md C12 and
60_exceptions.md R295 (assumption log 13). -/
def Obligations.IdeBarTopByteWrite : Prop :=
  ∀ (s : State) (d : Device) (v : Byte), s.Selects 9#8 d 8#6 → d.kind = .ideController →
    let base : Port := (d.cfg[0x20].setWidth 16 ||| d.cfg[0x21].setWidth 16 <<< 8) &&& 0xFFF0#16
    let stored : State :=
      { s with slots := s.slots.set 9 (some ⟨d.kind, d.cfg.set 0x23 0⟩) }
    exec (.cfgDataW8 0xCFF#16 v) s =
      if s.prdt = some base then .next { stored with reply := .done }
      else if base = 0xCF0#16 then
        .next { stored with refusal := some .prdtOverlapsConfigPorts, reply := .stopped }
      else
        .next { stored with
          prdt := some base, trace := s.trace ++ rebindEvents s.prdt base, reply := .done }

/-- A 32-bit write of BAR4 stores the four forced bytes and moves the binding to `WDATA[15:0] & 0xFFF0`
when it differs; a base of 0xCF0 is refused with BAR4 stored (40_config_cycle.md R148; 43_prdt_irq.md
R245). -/
def Obligations.IdeBarDwordWrite : Prop :=
  ∀ (s : State) (d : Device) (v : BitVec 32), s.Selects 9#8 d 8#6 → d.kind = .ideController →
    let base : Port := v.setWidth 16 &&& 0xFFF0#16
    let stored : State :=
      { s with
        slots := s.slots.set 9 (some ⟨d.kind,
          (((d.cfg.set 0x20 (v.extractLsb' 0 8 ||| 0x01)).set 0x21 (v.extractLsb' 8 8)).set 0x22 0).set
            0x23 0⟩) }
    exec (.cfgDataW32 0xCFC#16 v) s =
      if s.prdt = some base then .next { stored with reply := .done }
      else if base = 0xCF0#16 then
        .next { stored with refusal := some .prdtOverlapsConfigPorts, reply := .stopped }
      else
        .next { stored with
          prdt := some base, trace := s.trace ++ rebindEvents s.prdt base, reply := .done }

/-- A 16-bit write of BAR4's low half stores two bytes and leaves the binding
(40_config_cycle.md R147; 70_reset_and_hazards.md R329). -/
def Obligations.IdeBarLowHalfWriteKeepsBinding : Prop :=
  ∀ (s : State) (i : SlotIndex) (d : Device) (v : BitVec 16), s.Selects i d 8#6 → d.kind = .ideController →
    exec (.cfgDataW16 0xCFC#16 v) s =
      .next { s with
        slots := s.slots.set i.toNat (some ⟨d.kind,
          (d.cfg.set 0x20 (v.extractLsb' 0 8 ||| 0x01)).set 0x21 (v.extractLsb' 8 8)⟩) i.isLt
        reply := .done }

/-- Offsets the spec does not name take the open table's class: RAW, RO, MASK with disjoint masks, or
write-1-to-clear; nothing but that byte changes (41_device_models.md R178, R181, R187, R188). The ISA bridge's
class is the parameter's, but at an offset of its programmable map it is RAW or MASK, never RO: R181 says only
that such an offset should be, and the model reads an RO or W1C entry there as RAW (assumption log 7). -/
def Obligations.OpenTableWrite : Prop :=
  (∀ (s : State) (i : SlotIndex) (d : Device) (v : Byte) (r : BitVec 6) (p : Port) (o : Offset),
    s.Selects i d r → isDataPort p = true → o.toNat = 4 * r.toNat + (p.toNat - 0xCFC) →
    let stored := fun b : Byte =>
      { s with slots := s.slots.set i.toNat (some ⟨d.kind, d.cfg.set o.toNat b o.isLt⟩) i.isLt }
    let result := fun rule : PlainClass =>
      match rule with
      | .raw => v
      | .ro => d.cfg[o.toNat]'(o.isLt)
      | .mask w f => (v &&& w) ||| (f &&& ~~~w)
      | .w1c m => d.cfg[o.toNat]'(o.isLt) &&& ~~~(v &&& m)
    (d.kind = .hostBridge → o ∉ [0x04#8, 0x07#8, 0x59#8, 0x5A#8, 0x5B#8, 0x5C#8, 0x5D#8, 0x5E#8, 0x5F#8] →
      exec (.cfgDataW8 p v) s = .next { stored (result (Config.hbTable o)) with reply := .done }) ∧
    (d.kind = .isaBridge → o ∉ [0x04#8, 0x07#8] →
      exec (.cfgDataW8 p v) s = .next { stored (result (isaTable o)) with reply := .done }) ∧
    (d.kind = .ideController → o ∉ [0x04#8, 0x20#8, 0x21#8, 0x22#8, 0x23#8] →
      exec (.cfgDataW8 p v) s = .next { stored (result (Config.ideTable o)) with reply := .done })) ∧
  ∀ o : Offset,
    (o ∉ Config.irqMapOffsets ∧ isaTable o = disjointMask (Config.isaTable o)) ∨
    (o ∈ Config.irqMapOffsets ∧
      (isaTable o = .raw ∨ ∃ w f, w &&& f = 0#8 ∧ isaTable o = .mask w f))

/-- A write to a generic device stores what its interceptor hands back, or else the raw byte, in its own
configuration space only (41_device_models.md R190; that the interceptor gets the model `g` is the model's
choice, assumption log 14). -/
def Obligations.GenericDeviceWrite : Prop :=
  ∀ (s : State) (i : SlotIndex) (d : Device) (g : Nat) (v : Byte) (r : BitVec 6) (p : Port) (o : Offset),
    s.Selects i d r → isDataPort p = true → o.toNat = 4 * r.toNat + (p.toNat - 0xCFC) →
    d.kind = .generic g →
    exec (.cfgDataW8 p v) s =
      .next { s with
        slots := s.slots.set i.toNat
          (some ⟨d.kind, (Config.genericIcpt g i d.cfg o v).getD (d.cfg.set o.toNat v o.isLt)⟩) i.isLt
        reply := .done }

/-! ### The memory window -/

/-- Window reads inside the window return the backing bytes, little-endian, and change nothing
(42_shadow_ram.md R219, R221-R223). -/
def Obligations.ShadowReads : Prop :=
  ∀ (s : State) (a : Addr), 0xC0000 ≤ a.toNat →
    (a.toNat ≤ 0xFFFFF →
      exec (.shadowR8 a) s = .next { s with reply := .data ((s.win.read a.toNat).setWidth 32) }) ∧
    (a.toNat + 1 ≤ 0xFFFFF →
      exec (.shadowR16 a) s =
        .next { s with
          reply := .data ((s.win.read a.toNat).setWidth 32 ||| (s.win.read (a.toNat + 1)).setWidth 32 <<< 8) }) ∧
    (a.toNat + 3 ≤ 0xFFFFF →
      exec (.shadowR32 a) s =
        .next { s with
          reply := .data ((s.win.read a.toNat).setWidth 32 ||| (s.win.read (a.toNat + 1)).setWidth 32 <<< 8 |||
            (s.win.read (a.toNat + 2)).setWidth 32 <<< 16 |||
            (s.win.read (a.toNat + 3)).setWidth 32 <<< 24) })

/-- A window read that runs past 0xFFFFF: the block supplies the bytes inside the window; the others are
another component's, here free values (42_shadow_ram.md R222, R223; assumption log 8); the bits above the
access's width are 0 (30_encoding.md R101). -/
def Obligations.ShadowReadsAtWindowEnd : Prop :=
  ∀ (s : State) (a : Addr), a.toNat ≤ 0xFFFFF →
    (a.toNat = 0xFFFFF → ∃ r : Word,
      exec (.shadowR16 a) s = .next { s with draws := s.draws + 1, reply := .data r } ∧
      r.extractLsb' 0 8 = s.win.read 0xFFFFF ∧ r.toNat < 2 ^ 16) ∧
    (0xFFFFD ≤ a.toNat → ∃ r : Word,
      exec (.shadowR32 a) s = .next { s with draws := s.draws + 1, reply := .data r } ∧
      ∀ k, a.toNat + k ≤ 0xFFFFF → r.extractLsb' (8 * k) 8 = s.win.read (a.toNat + k))

/-- Window writes store each byte whose own region allows writes, and change no other byte and nothing else
(42_shadow_ram.md R220, R224-R226). -/
def Obligations.ShadowWritesAreGatedPerByte : Prop :=
  ∀ (s : State) (a : Addr), 0xC0000 ≤ a.toNat → a.toNat ≤ 0xFFFFF →
    (∀ v : BitVec 8, ∃ m l,
      exec (.shadowW8 a v) s = .next { s with win := m, log := l, reply := .done } ∧
      ∀ x, m.read x = if x = a.toNat ∧ s.writeAllowed x = true then v else s.win.read x) ∧
    (∀ v : BitVec 16, ∃ m l,
      exec (.shadowW16 a v) s = .next { s with win := m, log := l, reply := .done } ∧
      ∀ x, m.read x =
        if a.toNat ≤ x ∧ x < a.toNat + 2 ∧ x ≤ 0xFFFFF ∧ s.writeAllowed x = true
        then v.extractLsb' (8 * (x - a.toNat)) 8 else s.win.read x) ∧
    (∀ v : BitVec 32, ∃ m l,
      exec (.shadowW32 a v) s = .next { s with win := m, log := l, reply := .done } ∧
      ∀ x, m.read x =
        if a.toNat ≤ x ∧ x < a.toNat + 4 ∧ x ≤ 0xFFFFF ∧ s.writeAllowed x = true
        then v.extractLsb' (8 * (x - a.toNat)) 8 else s.win.read x)

/-- Read permission is never enforced and bits 3:2 have no effect: window reads do not depend on the map,
and window writes depend on bit 1 of its entries alone (42_shadow_ram.md R218). -/
def Obligations.OnlyTheWriteBitIsEnforced : Prop :=
  ∀ (s t : State) (m : Vector Nibble 16) (a : Addr),
    (∀ i ∈ [Instr.shadowR8 a, Instr.shadowR16 a, Instr.shadowR32 a],
      exec i s = .next t → exec i { s with pam := m } = .next { t with pam := m }) ∧
    ((∀ k : Fin 16, m[k.val].getLsbD 1 = s.pam[k.val].getLsbD 1) →
      ∀ v8 v16 v32, ∀ i ∈ [Instr.shadowW8 a v8, Instr.shadowW16 a v16, Instr.shadowW32 a v32],
        exec i s = .next t → exec i { s with pam := m } = .next { t with pam := m })

/-! ### The IDE PRDT window -/

/-- A read inside the binding is forwarded with its offset `P - PRDT` and its size: the reply is what the
external logic returns for them, in the bits of the access's width, and the block's state is unchanged but for
the model's counter (43_prdt_irq.md R246). The external value is a free value (assumption log 4). -/
def Obligations.PrdtReadsAreForwarded : Prop :=
  ∀ (s : State) (b p : Port), s.prdt = some b → b.toNat ≤ p.toNat → p.toNat ≤ b.toNat + 15 →
    let returned := fun n : Nat =>
      lowBytes n (Config.forwardRead s.draws (BitVec.ofNat 4 (p.toNat - b.toNat)) n)
    exec (.prdtR8 p) s = .next { s with draws := s.draws + 1, reply := .data (returned 1) } ∧
    exec (.prdtR16 p) s = .next { s with draws := s.draws + 1, reply := .data (returned 2) } ∧
    exec (.prdtR32 p) s = .next { s with draws := s.draws + 1, reply := .data (returned 4) } ∧
    (returned 1).toNat < 2 ^ 8 ∧ (returned 2).toNat < 2 ^ 16

/-- A write inside the binding is forwarded whole, with its offset, and changes no state of the block
(43_prdt_irq.md R247). -/
def Obligations.PrdtWritesAreForwarded : Prop :=
  ∀ (s : State) (b p : Port), s.prdt = some b → b.toNat ≤ p.toNat → p.toNat ≤ b.toNat + 15 →
    let off := BitVec.ofNat 4 (p.toNat - b.toNat)
    (∀ v : BitVec 8, exec (.prdtW8 p v) s =
      .next { s with trace := s.trace ++ [.forwardWrite off 1 (v.setWidth 32)], reply := .done }) ∧
    (∀ v : BitVec 16, exec (.prdtW16 p v) s =
      .next { s with trace := s.trace ++ [.forwardWrite off 2 (v.setWidth 32)], reply := .done }) ∧
    (∀ v : BitVec 32, exec (.prdtW32 p v) s =
      .next { s with trace := s.trace ++ [.forwardWrite off 4 v], reply := .done })

/-! ### Host operations -/

/-- Creating a device zeroes its configuration space, replaces its kind, whatever was there, and returns its
slot; a bus other than 0, a device above 31 or a function above 7 is fatal, naming the three
(44_control.md R261, R262). -/
def Obligations.CreateDevice : Prop :=
  (∀ (prdt : Option Port) (x : RequestOperands),
    decode prdt ⟨0x3000000100000000, x⟩ = .ok (.ctlCreateDevice x.bus x.device x.function x.kind)) ∧
  (∀ (s : State) (d f : Word) (k : Kind) (hd : d.toNat ≤ 31) (hf : f.toNat ≤ 7),
    exec (.ctlCreateDevice 0 d f k) s =
      .next { s with
        slots := s.slots.set (8 * d.toNat + f.toNat) (some ⟨k, Vector.replicate 256 0⟩) (by omega)
        reply := .slot (BitVec.ofNat 8 (8 * d.toNat + f.toNat)) }) ∧
  (∀ (s : State) (bus d f : Word) (k : Kind), (bus ≠ 0 ∨ 31 < d.toNat ∨ 7 < f.toNat) →
    exec (.ctlCreateDevice bus d f k) s =
      .next { s with fault := some (.badTopology bus d f), reply := .stopped })

/-- A configuration pointer is the view of the slot, or none for an empty one; nothing changes; the
topology check is that of a creation (44_control.md R262, R263). -/
def Obligations.GetConfigPointer : Prop :=
  (∀ (prdt : Option Port) (x : RequestOperands),
    decode prdt ⟨0x3000000200000000, x⟩ = .ok (.ctlGetConfigPtr x.bus x.device x.function)) ∧
  (∀ (s : State) (d f : Word) (hd : d.toNat ≤ 31) (hf : f.toNat ≤ 7),
    exec (.ctlGetConfigPtr 0 d f) s =
      .next { s with
        reply := .configView ((s.slots[8 * d.toNat + f.toNat]'(by omega)).map Device.cfg) }) ∧
  (∀ (s : State) (bus d f : Word), (bus ≠ 0 ∨ 31 < d.toNat ∨ 7 < f.toNat) →
    exec (.ctlGetConfigPtr bus d f) s =
      .next { s with fault := some (.badTopology bus d f), reply := .stopped })

/-- Copying a default image: refused into an empty slot or with a short image, else the first
`min(n, 256)` bytes are the image's and nothing else changes (44_control.md R264). -/
def Obligations.CopyDefaultImage : Prop :=
  (∀ (prdt : Option Port) (x : RequestOperands),
    decode prdt ⟨0x3000000300000000, x⟩ = .ok (.ctlCopyDefault x.slot x.image x.size)) ∧
  ∀ (s : State) (i : SlotIndex) (image : List Byte) (n : Nat),
    (s.slot i = none →
      exec (.ctlCopyDefault i image n) s =
        .next { s with refusal := some .copyToEmptySlot, reply := .stopped }) ∧
    (∀ d, s.slot i = some d → image.length < min n 256 →
      exec (.ctlCopyDefault i image n) s =
        .next { s with refusal := some .shortImage, reply := .stopped }) ∧
    (∀ d, s.slot i = some d → min n 256 ≤ image.length →
      exec (.ctlCopyDefault i image n) s =
        .next { s with
          slots := s.slots.set i.toNat (some ⟨d.kind, withImage (image.take (min n 256)) d.cfg⟩) i.isLt
          reply := .done })

/-- The block reset: address register and flag 0, the three images laid over their slots, every permission
0, the binding at 0xC000, with its events in order (70_reset_and_hazards.md R321, R323). R321 applies to a
fixed slot only while it holds its fixed kind: a device of another kind in slot 0, 8 or 9 is left as it is, and
without the IDE controller in slot 9 nothing is rebound. That the rest of the reset still happens then is the
model's reading (assumption log 12). -/
def Obligations.BlockReset : Prop :=
  ∀ (s : State) (d0 d8 d9 : Device),
    s.slot 0#8 = some d0 → s.slot 8#8 = some d8 → s.slot 9#8 = some d9 →
    let laid := fun (kind : Kind) (image : List Byte) (d : Device) =>
      (⟨d.kind, if d.kind = kind then withImage image d.cfg else d.cfg⟩ : Device)
    exec .ctlReset s =
      .next { s with
        ca := 0
        cyc := false
        slots := ((s.slots.set 0 (some (laid .hostBridge imgHb d0))).set 8
          (some (laid .isaBridge imgIsa d8))).set 9 (some (laid .ideController imgIde d9))
        pam := Vector.replicate 16 0
        prdt := if d9.kind = .ideController then some 0xC000#16 else s.prdt
        trace := s.trace ++ noticesOfMap (fun _ => 0) ++
          if d9.kind = .ideController then rebindEvents s.prdt 0xC000#16 else []
        reply := .done }

/-- A reset before machine assembly is refused from the first copy (70_reset_and_hazards.md R321). -/
def Obligations.ResetBeforeAssemblyIsRefused : Prop :=
  ∀ s : State, s.slot 0#8 = none →
    exec .ctlReset s =
      .next { s with ca := 0, cyc := false, refusal := some .copyToEmptySlot, reply := .stopped }

/-- Reset is idempotent on the assembled machine: a second reset changes nothing and emits its events again
(70_reset_and_hazards.md R324; R321 gives reset its meaning while the three slots hold their fixed kinds). -/
def Obligations.ResetIsIdempotent : Prop :=
  ∀ s t : State, s.kindAt 0#8 = some .hostBridge → s.kindAt 8#8 = some .isaBridge →
    s.kindAt 9#8 = some .ideController → exec .ctlReset s = .next t →
    exec .ctlReset t =
      .next { t with
        trace := t.trace ++ noticesOfMap (fun _ => 0) ++ [.unbind 0xC000#16, .bind 0xC000#16] }

/-- Machine assembly, from any state: the three devices with their images over zeros, the address register
and the map 0, the binding at 0xC000 (70_reset_and_hazards.md R326). -/
def Obligations.MachineAssembly : Prop :=
  ∀ s : State,
    exec .ctlInit s =
      .next { s with
        ca := 0
        cyc := false
        slots := ((s.slots.set 0 (some ⟨.hostBridge, withImage imgHb (Vector.replicate 256 0)⟩)).set 8
          (some ⟨.isaBridge, withImage imgIsa (Vector.replicate 256 0)⟩)).set 9
          (some ⟨.ideController, withImage imgIde (Vector.replicate 256 0)⟩)
        pam := Vector.replicate 16 0
        prdt := some 0xC000#16
        trace := s.trace ++ noticesOfMap (fun _ => 0) ++ rebindEvents s.prdt 0xC000#16
        reply := .done }

/-- The reset state holds the values 70_reset_and_hazards.md R323 states for `CA`, `CYC`, `PAM`, `PRDT`, the
default BAR4 and no fault; and it is what assembly leaves at power-on, but for the outputs of the request
itself (that State.reset is this state is assumption log 2's choice). -/
def Obligations.ResetStateIsTheAssembledMachine : Prop :=
  (State.reset.ca = 0#32 ∧ State.reset.cyc = false ∧
    (∀ k : Fin 16, State.reset.pam[k.val] = 0#4) ∧ State.reset.prdt = some 0xC000#16 ∧
    State.reset.fault = none ∧ bar4 State.reset = 0x0000C001#32) ∧
  exec .ctlInit State.powerOn =
    .next { State.reset with trace := noticesOfMap (fun _ => 0#4) ++ [.bind 0xC000#16], reply := .done }

/-- A save returns the record of `CA`, `CYC`, `PAM` and every populated configuration space, and changes
nothing (44_control.md R267, R268). -/
def Obligations.SaveReturnsTheRecord : Prop :=
  (∀ (prdt : Option Port) (x : RequestOperands), decode prdt ⟨0x3000000500000000, x⟩ = .ok .ctlSave) ∧
  ∀ s : State, ∃ r : Record,
    exec .ctlSave s = .next { s with reply := .saved r } ∧
    r.addr = s.ca ∧ r.cyc = s.cyc ∧
    (∀ k : Fin 16, r.pam[k.val] = s.pam[k.val].setWidth 8) ∧
    (∀ i : Fin 256, r.dev[i.val] = s.slots[i.val].map Device.cfg)

/-- A restore that the remapper accepts: `CA` and `CYC` verbatim, every image from the record with the kinds
kept, the map replayed with 16 notifications, then the rebinding from the restored BAR4; without an IDE
controller in slot 9 no rebinding (44_control.md R269, R270). -/
def Obligations.RestoreReloadsTheRecord : Prop :=
  ∀ (s : State) (r : Record),
    (∀ i : Fin 256, r.dev[i.val].isSome = s.slots[i.val].isSome) →
    ∃ slots : Vector (Option Device) 256,
      (∀ i : Fin 256, slots[i.val].map Device.cfg = r.dev[i.val] ∧
        slots[i.val].map Device.kind = s.slots[i.val].map Device.kind) ∧
      let restored : State :=
        { s with
          ca := r.addr, cyc := r.cyc, slots := slots
          pam := Vector.ofFn fun k => r.pam[k.val].setWidth 4
          trace := s.trace ++ noticesOfMap (fun k => (r.pam[k]?.getD 0).setWidth 4) }
      (s.kindAt 9#8 ≠ some .ideController →
        exec (.ctlRestore r) s = .next { restored with reply := .done }) ∧
      ∀ space, s.kindAt 9#8 = some .ideController → r.dev[9] = some space →
        let base : Port := (space[0x20].setWidth 16 ||| space[0x21].setWidth 16 <<< 8) &&& 0xFFF0#16
        (space[0x20].getLsbD 0 = true → base ≠ 0xCF0#16 →
          exec (.ctlRestore r) s =
            .next { restored with
              prdt := some base, trace := restored.trace ++ rebindEvents s.prdt base
              reply := .done }) ∧
        (space[0x20].getLsbD 0 = true → base = 0xCF0#16 →
          exec (.ctlRestore r) s =
            .next { restored with refusal := some .prdtOverlapsConfigPorts, reply := .stopped }) ∧
        (space[0x20].getLsbD 0 = false →
          exec (.ctlRestore r) s =
            .next { restored with fault := some .ideBarMemorySpace, reply := .stopped })

/-- A record whose slots differ from the populated slots is refused, and nothing is restored
(44_control.md R271). -/
def Obligations.RestoreMismatchIsRefused : Prop :=
  ∀ (s : State) (r : Record) (i : Fin 256), r.dev[i.val].isSome ≠ s.slots[i.val].isSome →
    exec (.ctlRestore r) s =
      .next { s with refusal := some .restoreSlotMismatch, reply := .stopped }

/-- Save-restore round trip: a record saved in one state, restored in any state with the same populated
slots and the IDE controller in slot 9, brings back `CA`, `CYC`, `PAM` and every configuration space, and
binds the base of the saved BAR4 (44_control.md R272). -/
def Obligations.SaveRestoreRoundTrip : Prop :=
  ∀ (s u t : State) (r : Record) (d : Device),
    exec .ctlSave s = .next { s with reply := .saved r } →
    (∀ i, (s.slot i).isSome = (u.slot i).isSome) →
    s.slot 9#8 = some d → d.cfg[0x20].getLsbD 0 = true → prdtBase (bar4 s) ≠ 0xCF0#16 →
    u.kindAt 9#8 = some .ideController → exec (.ctlRestore r) u = .next t →
    t.reply = .done ∧ t.ca = s.ca ∧ t.cyc = s.cyc ∧ t.pam = s.pam ∧
    (∀ i o, t.cfgAt i o = s.cfgAt i o) ∧ t.prdt = some (prdtBase (bar4 s))

/-- Driving an IRQ line: the level check, the slot check, then at most one event on the routed line; no
state changes (43_prdt_irq.md R250). -/
def Obligations.SetIrqLine : Prop :=
  (∀ (prdt : Option Port) (y : RequestOperands),
    decode prdt ⟨0x3000000700000000, y⟩ = .ok (.ctlSetIrqLine y.deviceIndex y.level)) ∧
  ∀ (s : State) (x l : Word),
    (l ≠ 0 → l ≠ 1 →
      exec (.ctlSetIrqLine x l) s = .next { s with refusal := some .badIrqLevel, reply := .stopped }) ∧
    ((l = 0 ∨ l = 1) → (255 < x.toNat ∨ s.slot (x.setWidth 8) = none) →
      exec (.ctlSetIrqLine x l) s =
        .next { s with fault := some (.irqUnregisteredDevice x), reply := .stopped }) ∧
    (∀ d, (l = 0 ∨ l = 1) → x.toNat ≤ 255 → s.slot (x.setWidth 8) = some d →
      exec (.ctlSetIrqLine x l) s =
        .next { s with
          trace := s.trace ++ (match irqLine (x.setWidth 8) d s with
            | some line => [.irq line (l == 1)]
            | none => [])
          reply := .done })

/-! ### Rules of the whole block -/

/-- Every step keeps the window memory canonical and inside the window, and a live binding aligned and off
the configuration ports (10_state.md R46, 43_prdt_irq.md R245; the form of the memory is the model's choice,
assumption log 10). -/
def Obligations.StepKeepsBlockInv : Prop :=
  ∀ s t : State, BlockInv s → step s = .next t → BlockInv t

/-- The reset state has both invariants that every step keeps. It rests on the model's own values in that
state: no request waits in it (assumption log 2), and the window memory has the model's form (assumption
log 10). -/
def Obligations.ResetHasTheInvariants : Prop := BlockInv State.reset ∧ AddressInv State.reset

/-- Every step keeps `CA & 0x7F000003 = 0` and `CYC = CA[31]`, as long as the restores that wait carry
records that obey it (10_state.md R35, R37). -/
def Obligations.StepKeepsAddressInv : Prop :=
  ∀ s t : State, AddressInv s → step s = .next t → AddressInv t

/-- Nothing but an address-register write, a reset, an assembly or a restore changes `CA`, or `CYC`
(70_reset_and_hazards.md R333). -/
def Obligations.AddressRegisterPersists : Prop :=
  ∀ (i : Instr) (s t : State), WellFormed i = true → exec i s = .next t →
    isAddrWriteRow i = false → isReloadRow i = false →
    t.ca = s.ca ∧ t.cyc = s.cyc

/-- The permission map and the binding change only through configuration writes, reset, assembly and
restore (20_memory.md R83). -/
def Obligations.MapAndBindingChangeOnlyByConfiguration : Prop :=
  ∀ (i : Instr) (s t : State), exec i s = .next t → isConfigWriteRow i = false → isReloadRow i = false →
    t.pam = s.pam ∧ t.prdt = s.prdt

/-- The window memory changes only through window writes: no other request changes any byte of it, resets
and restores included (10_state.md R47). -/
def Obligations.WindowChangesOnlyByWindowWrites : Prop :=
  ∀ (i : Instr) (s t : State), exec i s = .next t → isShadowWriteRow i = false →
    ∀ x, t.win.read x = s.win.read x

/-- A populated slot never becomes empty again, and keeps its kind unless a device is created or the machine
assembled (10_state.md R40; 41_device_models.md R171). -/
def Obligations.SlotsStayPopulated : Prop :=
  ∀ (i : Instr) (s t : State), exec i s = .next t → ∀ k,
    ((s.slot k).isSome = true → (t.slot k).isSome = true) ∧
    ((∀ b d f kind, i ≠ .ctlCreateDevice b d f kind) → i ≠ .ctlInit → t.kindAt k = s.kindAt k)

/-- The output trace only grows (00_scope.md R13). -/
def Obligations.TraceOnlyGrows : Prop :=
  ∀ (i : Instr) (s t : State), exec i s = .next t → s.trace <+: t.trace

/-- A read row changes nothing but the reply and the model's counter, or ends in the fatal of an overrun
(20_memory.md R82). -/
def Obligations.ReadsChangeNoState : Prop :=
  ∀ (i : Instr) (s t : State), isReadRow i = true → exec i s = .next t →
    t = { s with reply := t.reply, draws := t.draws, fault := t.fault } ∧
    (t.fault = s.fault ∨ ∃ p, t.fault = some (.unrecognizedPort p))

/-- The only fatal a CPU request can raise is the unrecognized port 0xD00, through a multi-byte data access
that runs past 0xCFF (60_exceptions.md R295; 43_prdt_irq.md R243); and a BAR4 in I/O space stays in I/O space.
That a write at IDE offset 0x23 does not raise the memory-space fatal even after a host operation cleared bit 0
of BAR4 is assumption log 13's reading. -/
def Obligations.CpuRequestsOnlyFaultByOverrun : Prop :=
  ∀ (i : Instr) (s t : State), isCpuRow i = true → exec i s = .next t →
    (t.fault = s.fault ∨ ∃ p, t.fault = some (.unrecognizedPort p)) ∧
    (WellFormed i = true →
      t.fault = s.fault ∨ (runsPastDataWindow i = true ∧ t.fault = some (.unrecognizedPort 0xD00#16))) ∧
    (s.IdeBarIsIo → t.IdeBarIsIo)

/-! ### An IDE controller outside slot 9 -/

/-- IDE offset 0x23 of an IDE controller outside slot 9: stored as 0, then the check and the rebinding of slot
9's BAR4 (10_state.md R44; 41_device_models.md R186; 43_prdt_irq.md R242, R245), which is a free value while
slot 9 is empty (assumption log 9); no memory-space fatal stands among the ends (assumption log 13). -/
def Obligations.IdeBarTopByteWriteOutsideSlotNine : Prop :=
  ∀ (s : State) (i : SlotIndex) (d : Device) (v : Byte),
    i ≠ 9#8 → s.Selects i d 8#6 → d.kind = .ideController →
    let stored : State :=
      { s with slots := s.slots.set i.toNat (some ⟨d.kind, d.cfg.set 0x23 0⟩) i.isLt }
    let checked := fun (base : Port) (t : State) =>
      if s.prdt = some base then Host.Outcome.next { t with reply := .done }
      else if base = 0xCF0#16 then
        .next { t with refusal := some .prdtOverlapsConfigPorts, reply := .stopped }
      else
        .next { t with prdt := some base, trace := s.trace ++ rebindEvents s.prdt base, reply := .done }
    (∀ e, s.slot 9#8 = some e →
      exec (.cfgDataW8 0xCFF#16 v) s =
        checked ((e.cfg[0x20].setWidth 16 ||| e.cfg[0x21].setWidth 16 <<< 8) &&& 0xFFF0#16) stored) ∧
    (s.slot 9#8 = none →
      exec (.cfgDataW8 0xCFF#16 v) s =
        checked ((Config.unplacedBar4 s.draws).setWidth 16 &&& 0xFFF0#16)
          { stored with draws := s.draws + 1 })
end

