-- ==== Sys2Proof/Laws/State.lean ====
section
/-!
SUPPORT. The small lemmas of the state updates: what each named update leaves in each field.
-/

namespace Sys2Proof.Machine

/-! ### `State.emit` -/

@[simp] theorem State.emit_ca (s : State) (es : List Event) : (s.emit es).ca = s.ca := rfl
@[simp] theorem State.emit_cyc (s : State) (es : List Event) : (s.emit es).cyc = s.cyc := rfl
@[simp] theorem State.emit_slots (s : State) (es : List Event) : (s.emit es).slots = s.slots := rfl
@[simp] theorem State.emit_pam (s : State) (es : List Event) : (s.emit es).pam = s.pam := rfl
@[simp] theorem State.emit_prdt (s : State) (es : List Event) : (s.emit es).prdt = s.prdt := rfl
@[simp] theorem State.emit_win (s : State) (es : List Event) : (s.emit es).win = s.win := rfl
@[simp] theorem State.emit_fault (s : State) (es : List Event) : (s.emit es).fault = s.fault := rfl
@[simp] theorem State.emit_refusal (s : State) (es : List Event) : (s.emit es).refusal = s.refusal := rfl
@[simp] theorem State.emit_trace (s : State) (es : List Event) : (s.emit es).trace = s.trace ++ es := rfl
@[simp] theorem State.emit_log (s : State) (es : List Event) : (s.emit es).log = s.log := rfl
@[simp] theorem State.emit_reply (s : State) (es : List Event) : (s.emit es).reply = s.reply := rfl
@[simp] theorem State.emit_draws (s : State) (es : List Event) : (s.emit es).draws = s.draws := rfl
@[simp] theorem State.emit_pending (s : State) (es : List Event) : (s.emit es).pending = s.pending := rfl

/-! ### `State.logged` -/

@[simp] theorem State.logged_ca (s : State) (k : LogCode) : (s.logged k).ca = s.ca := rfl
@[simp] theorem State.logged_cyc (s : State) (k : LogCode) : (s.logged k).cyc = s.cyc := rfl
@[simp] theorem State.logged_slots (s : State) (k : LogCode) : (s.logged k).slots = s.slots := rfl
@[simp] theorem State.logged_pam (s : State) (k : LogCode) : (s.logged k).pam = s.pam := rfl
@[simp] theorem State.logged_prdt (s : State) (k : LogCode) : (s.logged k).prdt = s.prdt := rfl
@[simp] theorem State.logged_win (s : State) (k : LogCode) : (s.logged k).win = s.win := rfl
@[simp] theorem State.logged_fault (s : State) (k : LogCode) : (s.logged k).fault = s.fault := rfl
@[simp] theorem State.logged_refusal (s : State) (k : LogCode) : (s.logged k).refusal = s.refusal := rfl
@[simp] theorem State.logged_trace (s : State) (k : LogCode) : (s.logged k).trace = s.trace := rfl
@[simp] theorem State.logged_log (s : State) (k : LogCode) : (s.logged k).log = s.log ++ [k] := rfl
@[simp] theorem State.logged_reply (s : State) (k : LogCode) : (s.logged k).reply = s.reply := rfl
@[simp] theorem State.logged_draws (s : State) (k : LogCode) : (s.logged k).draws = s.draws := rfl
@[simp] theorem State.logged_pending (s : State) (k : LogCode) : (s.logged k).pending = s.pending := rfl

/-! ### `State.drawn` -/

@[simp] theorem State.drawn_ca (s : State) : s.drawn.ca = s.ca := rfl
@[simp] theorem State.drawn_cyc (s : State) : s.drawn.cyc = s.cyc := rfl
@[simp] theorem State.drawn_slots (s : State) : s.drawn.slots = s.slots := rfl
@[simp] theorem State.drawn_pam (s : State) : s.drawn.pam = s.pam := rfl
@[simp] theorem State.drawn_prdt (s : State) : s.drawn.prdt = s.prdt := rfl
@[simp] theorem State.drawn_win (s : State) : s.drawn.win = s.win := rfl
@[simp] theorem State.drawn_fault (s : State) : s.drawn.fault = s.fault := rfl
@[simp] theorem State.drawn_refusal (s : State) : s.drawn.refusal = s.refusal := rfl
@[simp] theorem State.drawn_trace (s : State) : s.drawn.trace = s.trace := rfl
@[simp] theorem State.drawn_log (s : State) : s.drawn.log = s.log := rfl
@[simp] theorem State.drawn_reply (s : State) : s.drawn.reply = s.reply := rfl
@[simp] theorem State.drawn_draws (s : State) : s.drawn.draws = s.draws + 1 := rfl
@[simp] theorem State.drawn_pending (s : State) : s.drawn.pending = s.pending := rfl

/-! ### `State.putDevice` -/

@[simp] theorem State.putDevice_ca (s : State) (i : SlotIndex) (d : Device) : (s.putDevice i d).ca = s.ca := rfl
@[simp] theorem State.putDevice_cyc (s : State) (i : SlotIndex) (d : Device) : (s.putDevice i d).cyc = s.cyc := rfl
@[simp] theorem State.putDevice_slots (s : State) (i : SlotIndex) (d : Device) : (s.putDevice i d).slots = s.slots.set i.toNat (some d) i.isLt := rfl
@[simp] theorem State.putDevice_pam (s : State) (i : SlotIndex) (d : Device) : (s.putDevice i d).pam = s.pam := rfl
@[simp] theorem State.putDevice_prdt (s : State) (i : SlotIndex) (d : Device) : (s.putDevice i d).prdt = s.prdt := rfl
@[simp] theorem State.putDevice_win (s : State) (i : SlotIndex) (d : Device) : (s.putDevice i d).win = s.win := rfl
@[simp] theorem State.putDevice_fault (s : State) (i : SlotIndex) (d : Device) : (s.putDevice i d).fault = s.fault := rfl
@[simp] theorem State.putDevice_refusal (s : State) (i : SlotIndex) (d : Device) : (s.putDevice i d).refusal = s.refusal := rfl
@[simp] theorem State.putDevice_trace (s : State) (i : SlotIndex) (d : Device) : (s.putDevice i d).trace = s.trace := rfl
@[simp] theorem State.putDevice_log (s : State) (i : SlotIndex) (d : Device) : (s.putDevice i d).log = s.log := rfl
@[simp] theorem State.putDevice_reply (s : State) (i : SlotIndex) (d : Device) : (s.putDevice i d).reply = s.reply := rfl
@[simp] theorem State.putDevice_draws (s : State) (i : SlotIndex) (d : Device) : (s.putDevice i d).draws = s.draws := rfl
@[simp] theorem State.putDevice_pending (s : State) (i : SlotIndex) (d : Device) : (s.putDevice i d).pending = s.pending := rfl

/-! ### `State.storeByte` -/

@[simp] theorem State.storeByte_ca (s : State) (i : SlotIndex) (d : Device) (o : Offset) (v : Byte) : (s.storeByte i d o v).ca = s.ca := rfl
@[simp] theorem State.storeByte_cyc (s : State) (i : SlotIndex) (d : Device) (o : Offset) (v : Byte) : (s.storeByte i d o v).cyc = s.cyc := rfl
@[simp] theorem State.storeByte_slots (s : State) (i : SlotIndex) (d : Device) (o : Offset) (v : Byte) : (s.storeByte i d o v).slots = s.slots.set i.toNat (some ⟨d.kind, cfgSet d.cfg o v⟩) i.isLt := rfl
@[simp] theorem State.storeByte_pam (s : State) (i : SlotIndex) (d : Device) (o : Offset) (v : Byte) : (s.storeByte i d o v).pam = s.pam := rfl
@[simp] theorem State.storeByte_prdt (s : State) (i : SlotIndex) (d : Device) (o : Offset) (v : Byte) : (s.storeByte i d o v).prdt = s.prdt := rfl
@[simp] theorem State.storeByte_win (s : State) (i : SlotIndex) (d : Device) (o : Offset) (v : Byte) : (s.storeByte i d o v).win = s.win := rfl
@[simp] theorem State.storeByte_fault (s : State) (i : SlotIndex) (d : Device) (o : Offset) (v : Byte) : (s.storeByte i d o v).fault = s.fault := rfl
@[simp] theorem State.storeByte_refusal (s : State) (i : SlotIndex) (d : Device) (o : Offset) (v : Byte) : (s.storeByte i d o v).refusal = s.refusal := rfl
@[simp] theorem State.storeByte_trace (s : State) (i : SlotIndex) (d : Device) (o : Offset) (v : Byte) : (s.storeByte i d o v).trace = s.trace := rfl
@[simp] theorem State.storeByte_log (s : State) (i : SlotIndex) (d : Device) (o : Offset) (v : Byte) : (s.storeByte i d o v).log = s.log := rfl
@[simp] theorem State.storeByte_reply (s : State) (i : SlotIndex) (d : Device) (o : Offset) (v : Byte) : (s.storeByte i d o v).reply = s.reply := rfl
@[simp] theorem State.storeByte_draws (s : State) (i : SlotIndex) (d : Device) (o : Offset) (v : Byte) : (s.storeByte i d o v).draws = s.draws := rfl
@[simp] theorem State.storeByte_pending (s : State) (i : SlotIndex) (d : Device) (o : Offset) (v : Byte) : (s.storeByte i d o v).pending = s.pending := rfl

end Sys2Proof.Machine
end

