-- ==== Sys2Proof/Laws/Operands.lean ====
section
/-!
SUPPORT. What the field helpers compute: descriptor fields, port ranges, the window range, byte lanes.
-/

namespace Sys2Proof

/-! ### Ranges -/

theorem and_mask_eq_iff {w : Nat} (a : BitVec w) (k c : Nat) :
    a &&& (BitVec.allOnes w <<< k) = BitVec.ofNat w c <<< k ↔ a >>> k <<< k = BitVec.ofNat w c <<< k := by
  have : a &&& (BitVec.allOnes w <<< k) = a >>> k <<< k := by
    apply BitVec.eq_of_getLsbD_eq
    intro i hi
    by_cases h : i < k
    · simp [h, hi]
    · simp only [BitVec.getLsbD_and, BitVec.getLsbD_shiftLeft, BitVec.getLsbD_ushiftRight]
      have e : k + (i - k) = i := by omega
      simp [h, hi, e]
      omega
  rw [this]

/-- The window is 0xC0000..0xFFFFF. -/
theorem inWindow_iff (a : Addr) : inWindow a = true ↔ 0xC0000 ≤ a.toNat ∧ a.toNat ≤ 0xFFFFF := by
  have h := and_mask_eq_iff a 18 3
  simp only [inWindow, beq_iff_eq]
  change a &&& (BitVec.allOnes 32 <<< 18) = BitVec.ofNat 32 3 <<< 18 ↔ _
  rw [h, ← BitVec.toNat_inj]
  simp only [BitVec.toNat_shiftLeft, BitVec.toNat_ushiftRight, BitVec.toNat_ofNat, Nat.shiftLeft_eq,
    Nat.shiftRight_eq_div_pow]
  have := a.isLt
  omega

theorem isAddrPort_iff (p : Port) : isAddrPort p = true ↔ 0xCF8 ≤ p.toNat ∧ p.toNat ≤ 0xCFB := by
  have h := and_mask_eq_iff p 2 0x33E
  simp only [isAddrPort, beq_iff_eq]
  change p &&& (BitVec.allOnes 16 <<< 2) = BitVec.ofNat 16 0x33E <<< 2 ↔ _
  rw [h, ← BitVec.toNat_inj]
  simp only [BitVec.toNat_shiftLeft, BitVec.toNat_ushiftRight, BitVec.toNat_ofNat, Nat.shiftLeft_eq,
    Nat.shiftRight_eq_div_pow]
  have := p.isLt
  omega

theorem isDataPort_iff (p : Port) : isDataPort p = true ↔ 0xCFC ≤ p.toNat ∧ p.toNat ≤ 0xCFF := by
  have h := and_mask_eq_iff p 2 0x33F
  simp only [isDataPort, beq_iff_eq]
  change p &&& (BitVec.allOnes 16 <<< 2) = BitVec.ofNat 16 0x33F <<< 2 ↔ _
  rw [h, ← BitVec.toNat_inj]
  simp only [BitVec.toNat_shiftLeft, BitVec.toNat_ushiftRight, BitVec.toNat_ofNat, Nat.shiftLeft_eq,
    Nat.shiftRight_eq_div_pow]
  have := p.isLt
  omega

/-- The four address ports by name. -/
theorem isAddrPort_cases {p : Port} (h : isAddrPort p = true) :
    p = 0xCF8#16 ∨ p = 0xCF9#16 ∨ p = 0xCFA#16 ∨ p = 0xCFB#16 := by
  rw [isAddrPort_iff] at h
  simp only [← BitVec.toNat_inj]
  simp
  omega

/-- The four data ports by name. -/
theorem isDataPort_cases {p : Port} (h : isDataPort p = true) :
    p = 0xCFC#16 ∨ p = 0xCFD#16 ∨ p = 0xCFE#16 ∨ p = 0xCFF#16 := by
  rw [isDataPort_iff] at h
  simp only [← BitVec.toNat_inj]
  simp
  omega

/-! ### Descriptor fields -/

theorem tdOf_getLsbD (top op : BitVec 8) (a : Word) (i : Nat) :
    (tdOf top op a).getLsbD i =
      if i < 32 then a.getLsbD i
      else if i < 40 then op.getLsbD (i - 32)
      else if i < 56 then false
      else if i < 64 then top.getLsbD (i - 56) else false := by
  have ht : 64 ≤ i → top.getLsbD (i - 56) = false := fun h => BitVec.getLsbD_of_ge _ _ (by omega)
  have ho : 40 ≤ i → op.getLsbD (i - 32) = false := fun h => BitVec.getLsbD_of_ge _ _ (by omega)
  have ha : 32 ≤ i → a.getLsbD i = false := fun h => BitVec.getLsbD_of_ge _ _ (by omega)
  simp only [tdOf, BitVec.getLsbD_or, BitVec.getLsbD_shiftLeft, BitVec.getLsbD_setWidth]
  by_cases h1 : i < 32
  · simp only [show i < 64 by omega, show i < 56 by omega, h1]
    simp
  · by_cases h2 : i < 40
    · simp only [show i < 64 by omega, show i < 56 by omega, show i - 32 < 64 by omega, h1, h2,
        ha (by omega)]
      simp
    · by_cases h3 : i < 56
      · simp only [h1, h2, h3, show i < 64 by omega, ha (by omega), ho (by omega)]
        simp
      · by_cases h4 : i < 64
        · simp only [h1, h2, h3, h4, show i - 56 < 64 by omega, ha (by omega), ho (by omega)]
          simp
        · simp [h1, h2, h3, h4]

@[simp] theorem tdOp_tdOf (top op : BitVec 8) (a : Word) : tdOp (tdOf top op a) = op := by
  apply BitVec.eq_of_getLsbD_eq
  intro i hi
  simp only [tdOp, BitVec.getLsbD_extractLsb', tdOf_getLsbD]
  rw [if_neg (by omega), if_pos (by omega)]
  simp [hi]

@[simp] theorem tdAddr_tdOf (top op : BitVec 8) (a : Word) : tdAddr (tdOf top op a) = a := by
  apply BitVec.eq_of_getLsbD_eq
  intro i hi
  simp only [tdAddr, BitVec.getLsbD_setWidth, tdOf_getLsbD]
  simp [hi]

@[simp] theorem tdPort_tdOf (top op : BitVec 8) (p : Port) : tdPort (tdOf top op (p.setWidth 32)) = p := by
  apply BitVec.eq_of_getLsbD_eq
  intro i hi
  simp only [tdPort, BitVec.getLsbD_setWidth, tdOf_getLsbD]
  rw [if_pos (by omega)]
  simp [hi]
  omega

@[simp] theorem tdReserved_tdOf (top op : BitVec 8) (a : Word) : tdReserved (tdOf top op a) = 0 := by
  apply BitVec.eq_of_getLsbD_eq
  intro i hi
  simp only [tdReserved, BitVec.getLsbD_extractLsb', tdOf_getLsbD]
  rw [if_neg (by omega), if_neg (by omega), if_pos (by omega)]
  simp

@[simp] theorem tdSize_tdOf (top op : BitVec 8) (a : Word) : tdSize (tdOf top op a) = top.setWidth 3 := by
  apply BitVec.eq_of_getLsbD_eq
  intro i hi
  simp only [tdSize, BitVec.getLsbD_extractLsb', tdOf_getLsbD]
  rw [if_neg (by omega), if_neg (by omega), if_neg (by omega), if_pos (by omega)]
  simp [hi]

@[simp] theorem tdDir_tdOf (top op : BitVec 8) (a : Word) : tdDir (tdOf top op a) = top.getLsbD 3 := by
  simp only [tdDir, tdOf_getLsbD]
  rw [if_neg (by omega), if_neg (by omega), if_neg (by omega), if_pos (by omega)]

@[simp] theorem tdSpace_tdOf (top op : BitVec 8) (a : Word) :
    tdSpace (tdOf top op a) = top.extractLsb' 4 4 := by
  apply BitVec.eq_of_getLsbD_eq
  intro i hi
  simp only [tdSpace, BitVec.getLsbD_extractLsb', tdOf_getLsbD]
  rw [if_neg (by omega), if_neg (by omega), if_neg (by omega), if_pos (by omega)]
  simp [hi]
  congr 1
  omega

/-- A descriptor without a problem, of SPACE 3, decodes to the control row of its OP. -/
theorem decode_ctl {td : BitVec 64} {op : BitVec 8} (h1 : descriptorProblem td = none)
    (h2 : tdSpace td = 3#4) (h3 : tdOp td = op) (prdt : Option Port) (x : RequestOperands) :
    decode prdt ⟨td, x⟩ = decodeCtl op x := by
  simp [decode, h1, h2, h3]

namespace Machine

/-! ### Byte lanes -/

/-- Which bits a lane merge changes. -/
theorem getLsbD_mergeLane (a : Word) (k : BitVec 2) (v : Byte) {j : Nat} (hj : j < 32) :
    (mergeLane a k v).getLsbD j =
      if 8 * k.toNat ≤ j ∧ j < 8 * k.toNat + 8 then v.getLsbD (j - 8 * k.toNat) else a.getLsbD j := by
  have hk := k.isLt
  simp only [mergeLane, BitVec.getLsbD_or, BitVec.getLsbD_and, BitVec.getLsbD_not,
    BitVec.getLsbD_shiftLeft, BitVec.getLsbD_setWidth]
  have h255 : ∀ n, (0xFF#32).getLsbD n = decide (n < 8) := by
    intro n
    by_cases h : n < 32
    · revert n
      decide
    · rw [BitVec.getLsbD_of_ge _ _ (by omega)]
      exact (decide_eq_false (by omega)).symm
  rw [h255]
  by_cases h1 : j < 8 * k.toNat
  · simp only [hj, h1, show ¬ 8 * k.toNat ≤ j by omega]
    simp
  · by_cases h2 : j < 8 * k.toNat + 8
    · simp only [hj, h1, h2, show j - 8 * k.toNat < 8 by omega, show 8 * k.toNat ≤ j by omega,
        show j - 8 * k.toNat < 32 by omega]
      simp
    · have hv : v.getLsbD (j - 8 * k.toNat) = false := BitVec.getLsbD_of_ge _ _ (by omega)
      simp [hj, h1, h2, show ¬ j - 8 * k.toNat < 8 by omega, hv]

/-- The region index of a window address, as a number. -/
theorem regionOf_toNat {a : Addr} (h : inWindow a = true) :
    (regionOf a).toNat = (a.toNat - 0xC0000) / 0x4000 := by
  rw [inWindow_iff] at h
  have ha := a.isLt
  simp only [regionOf, BitVec.toNat_setWidth, BitVec.toNat_ushiftRight, BitVec.toNat_sub,
    Nat.shiftRight_eq_div_pow]
  simp
  omega

end Machine
end Sys2Proof
end

