-- ==== Sys2Proof/Laws/Ops.lean ====
section
/-!
SUPPORT. What each shared operation can do, said once: sequencing, the store, the permission map, the
window accesses, the remapper, the interceptor.
-/

namespace Sys2Proof.Machine

/-! ### Sequencing -/

@[simp] theorem Res.andThen_ok {α β : Type} (a : α) (s : State) (k : α → State → Res β) :
    (Res.ok a s).andThen k = k a s := rfl

@[simp] theorem Res.andThen_stop {α β : Type} (s : State) (k : α → State → Res β) :
    (Res.stop s : Res α).andThen k = .stop s := rfl

@[simp] theorem Res.state_ok {α : Type} (a : α) (s : State) : (Res.ok a s).state = s := rfl

@[simp] theorem Res.state_stop {α : Type} (s : State) : (Res.stop s : Res α).state = s := rfl

@[simp] theorem complete_ok {α : Type} (f : α → Reply) (a : α) (s : State) :
    complete f (.ok a s) = .next { s with reply := f a } := rfl

@[simp] theorem complete_stop {α : Type} (f : α → Reply) (s : State) :
    complete f (.stop s : Res α) = .next { s with reply := .stopped } := rfl

/-- A finished request answers a next state: where its operation ended, with a reply. -/
theorem complete_eq_next {α : Type} {f : α → Reply} {r : Res α} {t : State} (h : complete f r = .next t) :
    t = { r.state with reply := t.reply } := by
  cases r <;> simp at h <;> subst h <;> rfl

/-! ### The store -/

@[simp] theorem State.slot_mk {ca cyc slots pam prdt win fault refusal trace log reply draws pending}
    (i : SlotIndex) :
    State.slot ⟨ca, cyc, slots, pam, prdt, win, fault, refusal, trace, log, reply, draws, pending⟩ i =
      slots[i.toNat]'(i.isLt) := rfl

/-- The store after a slot is replaced. -/
theorem State.slot_putDevice (s : State) (i j : SlotIndex) (d : Device) :
    (s.putDevice i d).slot j = if j = i then some d else s.slot j := by
  have h : i.toNat = j.toNat ↔ j = i := by rw [BitVec.toNat_inj, eq_comm]
  simp only [State.slot, State.putDevice, Vector.getElem_set, h]

/-- Putting back the device a slot holds changes nothing. -/
theorem State.putDevice_self {s : State} {i : SlotIndex} {d : Device} (h : s.slot i = some d) :
    s.putDevice i d = s := by
  have e : s.slots.set i.toNat (some d) i.isLt = s.slots := by
    rw [← h]
    exact Vector.set_getElem_self i.isLt
  simp only [State.putDevice, e]

@[simp] theorem State.slot_putDevice_same (s : State) (i : SlotIndex) (d : Device) :
    (s.putDevice i d).slot i = some d := by simp [State.slot_putDevice]

@[simp] theorem State.slot_storeByte_same (s : State) (i : SlotIndex) (d : Device) (o : Offset) (v : Byte) :
    (s.storeByte i d o v).slot i = some ⟨d.kind, cfgSet d.cfg o v⟩ := by
  simp [State.storeByte]

theorem State.slot_storeByte (s : State) (i j : SlotIndex) (d : Device) (o : Offset) (v : Byte) :
    (s.storeByte i d o v).slot j = if j = i then some ⟨d.kind, cfgSet d.cfg o v⟩ else s.slot j := by
  simp [State.storeByte, State.slot_putDevice]

@[simp] theorem State.slot_emit (s : State) (es : List Event) (i : SlotIndex) :
    (s.emit es).slot i = s.slot i := rfl

@[simp] theorem State.slot_logged (s : State) (k : LogCode) (i : SlotIndex) :
    (s.logged k).slot i = s.slot i := rfl

@[simp] theorem State.slot_drawn (s : State) (i : SlotIndex) : s.drawn.slot i = s.slot i := rfl

/-- A configuration space after one byte is replaced. -/
theorem cfgByte_cfgSet (space : CfgSpace) (o x : Offset) (v : Byte) :
    cfgByte (cfgSet space o v) x = if x = o then v else cfgByte space x := by
  have h : o.toNat = x.toNat ↔ x = o := by rw [BitVec.toNat_inj, eq_comm]
  simp only [cfgByte, cfgSet, Vector.getElem_set, h]

@[simp] theorem cfgByte_cfgSet_same (space : CfgSpace) (o : Offset) (v : Byte) :
    cfgByte (cfgSet space o v) o = v := by simp [cfgByte_cfgSet]

/-- A configuration space after an image is laid over it (44_control.md R264). -/
theorem cfgByte_cfgOverlay (space : CfgSpace) (image : List Byte) (n : Nat) (o : Offset) :
    cfgByte (cfgOverlay space image n) o =
      if o.toNat < n then image.getD o.toNat 0 else cfgByte space o := by
  simp [cfgByte, cfgOverlay]

/-- Laying the same image over a space a second time changes nothing (70_reset_and_hazards.md R324). -/
theorem cfgOverlay_idem (space : CfgSpace) (image : List Byte) (n : Nat) :
    cfgOverlay (cfgOverlay space image n) image n = cfgOverlay space image n := by
  apply Vector.ext
  intro i hi
  simp only [cfgOverlay, Vector.getElem_ofFn]
  split <;> rfl

/-- A copy into a populated slot with an image long enough (44_control.md R264). -/
theorem copyDefault_populated {s : State} {i : SlotIndex} {d : Device} {image : List Byte} {n : Nat}
    (h : s.slot i = some d) (hl : min n 256 ≤ image.length) :
    copyDefault i image n s = .ok () (s.putDevice i ⟨d.kind, cfgOverlay d.cfg image (min n 256)⟩) := by
  simp only [copyDefault, h]
  rw [if_neg (by omega)]

theorem copyDefault_empty {s : State} {i : SlotIndex} {image : List Byte} {n : Nat}
    (h : s.slot i = none) : copyDefault i image n s = refuse .copyToEmptySlot s := by
  simp [copyDefault, h]

theorem checkBdf_none_iff (bus d f : Word) :
    checkBdf bus d f = none ↔ bus = 0#32 ∧ d.toNat ≤ 31 ∧ f.toNat ≤ 7 := by
  unfold checkBdf
  split
  · simp_all
  · split
    · simp; omega
    · split
      · simp; omega
      · simp_all

theorem checkBdf_some {bus d f : Word} (h : ¬(bus = 0#32 ∧ d.toNat ≤ 31 ∧ f.toNat ≤ 7)) :
    checkBdf bus d f = some (.badTopology bus d f) := by
  unfold checkBdf
  split
  · rfl
  · split
    · rfl
    · split
      · rfl
      · exact absurd ⟨by simp_all, by omega, by omega⟩ h

theorem slotOf_toNat {d f : Word} (hd : d.toNat ≤ 31) (hf : f.toNat ≤ 7) :
    (slotOf d f).toNat = 8 * d.toNat + f.toNat := by
  simp [slotOf, BitVec.toNat_setWidth, BitVec.toNat_add, BitVec.toNat_mul]
  omega

/-! ### The permission map -/

/-- The map after one entry is replaced. -/
theorem mapGet_mapSet (m : Vector Nibble 16) (r x : Region) (p : Nibble) :
    mapGet (mapSet m r p) x = if x = r then p else mapGet m x := by
  have h : r.toNat = x.toNat ↔ x = r := by rw [BitVec.toNat_inj, eq_comm]
  simp only [mapGet, mapSet, Vector.getElem_set, h]

/-- The map after the permission pairs of a list, in order. -/
def mapAfter (ts : List (Addr × Byte)) (m : Vector Nibble 16) : Vector Nibble 16 :=
  ts.foldl (fun m t => mapSet m (regionOf t.1) (t.2.setWidth 4)) m

/-- The notifications of a list of permission pairs, in order. -/
def noticesOf (ts : List (Addr × Byte)) : List Event :=
  ts.map fun t => .permChanged (regionOf t.1) (t.2.setWidth 4)

/-- Setting permissions inside the window cannot fail, and changes the map and the trace alone. -/
theorem setPermissions_inWindow {ts : List (Addr × Byte)} (h : ∀ t ∈ ts, inWindow t.1 = true) (s : State) :
    setPermissions ts s =
      .ok () { s with pam := mapAfter ts s.pam, trace := s.trace ++ noticesOf ts } := by
  induction ts generalizing s with
  | nil => simp [setPermissions, mapAfter, noticesOf]
  | cons t ts ih =>
    have ht := h t (by simp)
    simp only [setPermissions, setPermission, ht, if_true, Res.andThen_ok]
    rw [ih fun u hu => h u (by simp [hu])]
    simp [mapAfter, noticesOf, State.emit]

theorem mapTargets_inWindow (f : Nat → Byte) : ∀ t ∈ mapTargets f, inWindow t.1 = true := by
  intro t ht
  simp only [mapTargets, List.mem_map, List.mem_range] at ht
  obtain ⟨i, hi, rfl⟩ := ht
  have h : ∀ n, n < 16 → inWindow (regionBase n) = true := by decide
  exact h i hi

theorem mem_pamOffsets {o : Offset} (h : 0x59 ≤ o.toNat ∧ o.toNat ≤ 0x5F) :
    o = 0x59#8 ∨ o = 0x5A#8 ∨ o = 0x5B#8 ∨ o = 0x5C#8 ∨ o = 0x5D#8 ∨ o = 0x5E#8 ∨ o = 0x5F#8 := by
  simp only [← BitVec.toNat_inj]
  simp
  omega

theorem pamTargets_inWindow {o : Offset} (h : 0x59 ≤ o.toNat ∧ o.toNat ≤ 0x5F) (v : Byte) :
    ∀ t ∈ pamTargets o v, inWindow t.1 = true := by
  have pair : ∀ x : Offset, x ≠ 0x59#8 → ∀ t ∈ pamTargets x v,
      t.1 = 0xC0000#32 + (x - 0x5A#8).setWidth 32 * 0x8000#32 ∨
      t.1 = 0xC0000#32 + (x - 0x5A#8).setWidth 32 * 0x8000#32 + 0x4000#32 := by
    intro x hx t ht
    rw [pamTargets, if_neg hx] at ht
    rcases List.mem_cons.1 ht with ht | ht
    · exact .inl (by rw [ht])
    · exact .inr (by rw [List.mem_singleton.1 ht])
  intro t ht
  rcases mem_pamOffsets h with rfl | rfl | rfl | rfl | rfl | rfl | rfl
  · rw [pamTargets, if_pos rfl] at ht
    have ha : t.1 ∈ [0xF0000#32, 0xF4000#32, 0xF8000#32, 0xFC000#32] := by
      have := List.mem_map_of_mem (f := Prod.fst) ht
      exact this
    have hw : ∀ a ∈ [0xF0000#32, 0xF4000#32, 0xF8000#32, 0xFC000#32], inWindow a = true := by simp [inWindow]
    exact hw _ ha
  all_goals
    rcases pair _ (by decide) t ht with h' | h' <;> rw [h'] <;> decide

/-- Setting all 16 permissions replaces the map (44_control.md R269, 70_reset_and_hazards.md R321). -/
theorem mapAfter_mapTargets (f : Nat → Byte) (m : Vector Nibble 16) :
    mapAfter (mapTargets f) m = Vector.ofFn fun i => (f i.val).setWidth 4 := by
  apply Vector.ext
  intro i hi
  have hr : ∀ n, n < 16 → (regionOf (regionBase n)).toNat = n := by decide
  have hl : List.range 16 = [0, 1, 2, 3, 4, 5, 6, 7, 8, 9, 10, 11, 12, 13, 14, 15] := by decide
  simp only [mapAfter, mapTargets, hl, List.map_cons, List.map_nil,
    List.foldl_cons, List.foldl_nil, mapSet, Vector.getElem_set, Vector.getElem_ofFn]
  simp only [hr 0 (by omega), hr 1 (by omega), hr 2 (by omega), hr 3 (by omega), hr 4 (by omega),
    hr 5 (by omega), hr 6 (by omega), hr 7 (by omega), hr 8 (by omega), hr 9 (by omega), hr 10 (by omega),
    hr 11 (by omega), hr 12 (by omega), hr 13 (by omega), hr 14 (by omega), hr 15 (by omega)]
  interval_cases i <;> simp

/-- The 16 notifications of a whole map, in region order (70_reset_and_hazards.md R322). -/
theorem noticesOf_mapTargets (f : Nat → Byte) :
    noticesOf (mapTargets f) =
      (List.range 16).map fun i => .permChanged (BitVec.ofNat 4 i) ((f i).setWidth 4) := by
  have hr : ∀ n, n < 16 → regionOf (regionBase n) = BitVec.ofNat 4 n := by decide
  simp only [noticesOf, mapTargets, List.map_map]
  apply List.map_congr_left
  intro i hi
  simp [hr i (List.mem_range.1 hi)]

/-- A PAM register write outside the failing cases: the interceptor's PAM arm (41_device_models.md R173). -/
theorem pamDecode_eq {o : Offset} (h : 0x59 ≤ o.toNat ∧ o.toNat ≤ 0x5F) (v : Byte) (s : State) :
    pamDecode o v s =
      .ok () { s with pam := mapAfter (pamTargets o v) s.pam
                      trace := s.trace ++ noticesOf (pamTargets o v) } :=
  setPermissions_inWindow (pamTargets_inWindow h v) s

/-! ### The address register -/

/-- A byte write to the address register changes `CA`, `CYC` and the log alone. -/
theorem addrWriteByte_eq (k : BitVec 2) (v : Byte) (s : State) :
    ∃ l, addrWriteByte k v s =
      { s with ca := mergeLane s.ca k v &&& ~~~caReserved
               cyc := (mergeLane s.ca k v &&& ~~~caReserved).getLsbD 31, log := l } := by
  simp only [addrWriteByte, cycOf]
  split
  · exact ⟨s.log, rfl⟩
  · exact ⟨_, rfl⟩

/-! ### Window accesses -/

/-- A window read touches nothing but the counter of free values. -/
theorem afterRead_cases (n : Nat) (a : Addr) (s : State) :
    (allInWindow n a = true ∧ afterRead n a s = s) ∨ (allInWindow n a = false ∧ afterRead n a s = s.drawn) := by
  cases h : allInWindow n a <;> simp [afterRead, h]

/-- A window byte write changes the window and the log alone. -/
theorem shadowWriteByte_eq (a : Addr) (v : Byte) (s : State) :
    ∃ l, shadowWriteByte a v s =
      { s with win := if (s.permission a).getLsbD 1 then s.win.write a.toNat v else s.win, log := l } := by
  simp only [shadowWriteByte]
  split
  · exact ⟨s.log, rfl⟩
  · exact ⟨_, rfl⟩

/-- A window write changes the window and the log alone. -/
theorem memWrite_eq (n : Nat) (a : Addr) (v : Word) (s : State) :
    ∃ m l, memWrite n a v s = { s with win := m, log := l } := by
  induction n generalizing a v s with
  | zero => exact ⟨s.win, s.log, rfl⟩
  | succ n ih =>
    simp only [memWrite]
    split
    · obtain ⟨l, h⟩ := shadowWriteByte_eq a (lowByte v) s
      obtain ⟨m, l', h'⟩ := ih (a + 1#32) (v >>> 8) (shadowWriteByte a (lowByte v) s)
      exact ⟨m, l', by rw [h', h]⟩
    · exact ih _ _ _

/-! ### The remapper -/

/-- What the rebinding can do: the overlap refusal, or the new binding with its events. -/
theorem rebind_cases (b : Word) (old : Option Port) (s : State) :
    (prdtBase b = 0x0CF0#16 ∧ rebind b old s = .stop { s with refusal := some .prdtOverlapsConfigPorts }) ∨
    (prdtBase b ≠ 0x0CF0#16 ∧
      rebind b old s = .ok () { s with
        prdt := some (prdtBase b)
        trace := s.trace ++ (old.toList.map Event.unbind ++ [.bind (prdtBase b)]) }) := by
  unfold rebind
  split
  · exact .inl ⟨‹_›, rfl⟩
  · exact .inr ⟨‹_›, rfl⟩

/-- What the remapper can do: the memory-space fatal, or the rebinding. -/
theorem remap_cases (old : Option Port) (s : State) :
    ((bar4 s).getLsbD 0 = false ∧ remap old s = .stop { s with fault := some .ideBarMemorySpace }) ∨
    ((bar4 s).getLsbD 0 = true ∧ remap old s = rebind (bar4 s) old s) := by
  unfold remap
  split
  · exact .inl ⟨‹_›, rfl⟩
  · exact .inr ⟨by simp_all, rfl⟩

/-- What the remap check can do: nothing, or the rebinding; while slot 9 is empty the counter advances. -/
theorem bar4Check_cases (s : State) :
    ∃ t, (t = s ∨ t = s.drawn) ∧
      (bar4Check s = .ok () t ∨ bar4Check s = rebind (bar4 s) s.prdt t) := by
  refine ⟨if (s.slot 9#8).isNone then s.drawn else s, ?_, ?_⟩
  · split
    · exact .inr rfl
    · exact .inl rfl
  · simp only [bar4Check]
    split
    · exact .inl rfl
    · exact .inr rfl

/-- A binding base is aligned to 16 ports. -/
theorem prdtBase_aligned (b : Word) : prdtBase b &&& 0x000F#16 = 0#16 := by
  simp [prdtBase, BitVec.and_assoc]

/-- While slot 9 is populated BAR4 is read from its configuration space (10_state.md R44). -/
theorem bar4_populated {s : State} {d : Device} (h : s.slot 9#8 = some d) : bar4 s = bar4Of d.cfg := by
  simp [bar4, h]

/-- The remap check on a populated slot 9: nothing, or the rebinding from the live binding. -/
theorem bar4Check_populated {s : State} {d : Device} (h : s.slot 9#8 = some d) :
    bar4Check s =
      if some (prdtBase (bar4Of d.cfg)) = s.prdt then .ok () s
      else rebind (bar4Of d.cfg) s.prdt s := by
  simp [bar4Check, h, bar4_populated h]

/-- The remap check on an empty slot 9: BAR4 is a free value (assumption log 9). -/
theorem bar4Check_empty {s : State} (h : s.slot 9#8 = none) :
    bar4Check s =
      if some (prdtBase (Config.unplacedBar4 s.draws)) = s.prdt then .ok () s.drawn
      else rebind (Config.unplacedBar4 s.draws) s.prdt s.drawn := by
  simp [bar4Check, h, bar4]

end Sys2Proof.Machine
end

