-- ==== Sys2Proof/Laws/Frames.lean ====
section
/-!
SUPPORT. What every operation leaves as it was, whichever way it ends: the frame of the configuration
machine's byte steps and that of the host operations, each said once and chained.
-/

namespace Sys2Proof.Machine

/-- What no operation on the configuration state touches, and what it may do to the rest: the window, the
queue and the reply stay, the trace grows, populated slots stay populated, a legal binding stays legal. -/
structure BlockFrame (s t : State) : Prop where
  win : t.win = s.win
  pending : t.pending = s.pending
  reply : t.reply = s.reply
  trace : s.trace <+: t.trace
  populated : ∀ k, (s.slot k).isSome = true → (t.slot k).isSome = true
  binding : BindingInv s.prdt → BindingInv t.prdt

theorem BlockFrame.refl (s : State) : BlockFrame s s :=
  ⟨rfl, rfl, rfl, List.prefix_rfl, fun _ h => h, fun h => h⟩

theorem BlockFrame.trans {s t u : State} (h : BlockFrame s t) (h' : BlockFrame t u) : BlockFrame s u :=
  ⟨h'.win.trans h.win, h'.pending.trans h.pending, h'.reply.trans h.reply, h.trace.trans h'.trace,
    fun k hk => h'.populated k (h.populated k hk), fun hb => h'.binding (h.binding hb)⟩

/-- An operation that keeps a relation keeps it through what follows it. -/
theorem Res.andThen_state {α β : Type} {R : State → State → Prop} (trans : ∀ {a b c}, R a b → R b c → R a c)
    {s : State} {r : Res α} {k : α → State → Res β} (hr : R s r.state) (hk : ∀ a t, R t (k a t).state) :
    R s (r.andThen k).state := by
  cases r with
  | ok a t => exact trans hr (hk a t)
  | stop t => exact hr

/-! ### Kinds and the address register -/

/-- The operations that create no device also keep every kind. -/
structure StoreFrame (s t : State) : Prop extends BlockFrame s t where
  kinds : ∀ k, t.kindAt k = s.kindAt k

theorem StoreFrame.refl (s : State) : StoreFrame s s := ⟨BlockFrame.refl s, fun _ => rfl⟩

theorem StoreFrame.trans {s t u : State} (h : StoreFrame s t) (h' : StoreFrame t u) : StoreFrame s u :=
  ⟨h.toBlockFrame.trans h'.toBlockFrame, fun k => (h'.kinds k).trans (h.kinds k)⟩

/-- An update that keeps the store, the window, the queue, the reply, the trace and the binding. -/
theorem StoreFrame.of_eq {s t : State} (hs : t.slots = s.slots) (hw : t.win = s.win)
    (hp : t.pending = s.pending) (hr : t.reply = s.reply) (ht : s.trace <+: t.trace)
    (hb : t.prdt = s.prdt) : StoreFrame s t := by
  have h : ∀ k, t.slot k = s.slot k := fun k => by simp only [State.slot, hs]
  exact ⟨⟨hw, hp, hr, ht, fun k hk => by rw [h]; exact hk, fun hi => by rw [hb]; exact hi⟩,
    fun k => by simp only [State.kindAt, h]⟩

theorem StoreFrame.raise {α : Type} (r : FatalReason) (s : State) :
    StoreFrame s (raise r s : Res α).state :=
  .of_eq rfl rfl rfl rfl List.prefix_rfl rfl

theorem StoreFrame.refuse {α : Type} (r : RefuseReason) (s : State) :
    StoreFrame s (refuse r s : Res α).state :=
  .of_eq rfl rfl rfl rfl List.prefix_rfl rfl

/-- Replacing a populated slot by a device of the same kind. -/
theorem StoreFrame.putDevice {s : State} {i : SlotIndex} {d e : Device} (h : s.slot i = some d)
    (hk : e.kind = d.kind) : StoreFrame s (s.putDevice i e) := by
  refine ⟨⟨rfl, rfl, rfl, List.prefix_rfl, fun k hs => ?_, fun hb => hb⟩, fun k => ?_⟩
  · rw [State.slot_putDevice]
    split
    · rfl
    · exact hs
  · simp only [State.kindAt, State.slot_putDevice]
    split
    · subst k
      simp [h, hk]
    · rfl

/-- Setting permissions leaves the store as it is, whichever way it ends. -/
theorem setPermissions_slots (ts : List (Addr × Byte)) (s : State) :
    (setPermissions ts s).state.slots = s.slots := by
  induction ts generalizing s with
  | nil => rfl
  | cons t ts ih =>
    simp only [setPermissions, setPermission]
    split
    · rw [Res.andThen_ok, ih]; rfl
    · rfl

theorem StoreFrame.setPermissions (ts : List (Addr × Byte)) (s : State) :
    StoreFrame s (setPermissions ts s).state := by
  induction ts generalizing s with
  | nil => exact .refl s
  | cons t ts ih =>
    simp only [Machine.setPermissions, setPermission]
    split
    · rw [Res.andThen_ok]
      refine StoreFrame.trans ?_ (ih _)
      exact .of_eq rfl rfl rfl rfl (List.prefix_append _ _) rfl
    · exact .raise _ s

theorem StoreFrame.rebind (b : Word) (old : Option Port) (s : State) :
    StoreFrame s (rebind b old s).state := by
  rcases rebind_cases b old s with ⟨-, h⟩ | ⟨hb, h⟩
  · rw [h]; exact .of_eq rfl rfl rfl rfl List.prefix_rfl rfl
  · rw [h]
    refine ⟨⟨rfl, rfl, rfl, List.prefix_append _ _, fun k hk => hk, fun _ c hc => ?_⟩, fun k => rfl⟩
    obtain rfl : prdtBase b = c := by simpa using hc
    exact ⟨prdtBase_aligned _, hb⟩

theorem StoreFrame.remap (old : Option Port) (s : State) : StoreFrame s (remap old s).state := by
  rcases remap_cases old s with ⟨-, h⟩ | ⟨-, h⟩ <;> rw [h]
  · exact .of_eq rfl rfl rfl rfl List.prefix_rfl rfl
  · exact .rebind _ _ _

theorem StoreFrame.drawn (s : State) : StoreFrame s s.drawn :=
  .of_eq rfl rfl rfl rfl List.prefix_rfl rfl

theorem StoreFrame.bar4Check (s : State) : StoreFrame s (bar4Check s).state := by
  obtain ⟨t, ht, h⟩ := bar4Check_cases s
  have hs : StoreFrame s t := by
    rcases ht with rfl | rfl
    · exact .refl _
    · exact .drawn s
  rcases h with h | h <;> rw [h]
  · exact hs
  · exact hs.trans (.rebind _ _ _)

theorem StoreFrame.storeByte {s : State} {i : SlotIndex} {d : Device} (h : s.slot i = some d) (o : Offset)
    (v : Byte) : StoreFrame s (s.storeByte i d o v) := .putDevice h rfl

theorem StoreFrame.applyClass (rule : WriteClass) {s : State} {i : SlotIndex} {d : Device}
    (h : s.slot i = some d) (o : Offset) (v : Byte) : StoreFrame s (applyClass rule i d o v s).state := by
  cases rule with
  | plain p => exact .storeByte h o _
  | pam =>
    have hf := StoreFrame.setPermissions (pamTargets o v) s
    have hs := setPermissions_slots (pamTargets o v) s
    simp only [Machine.applyClass, pamDecode]
    cases hr : Machine.setPermissions (pamTargets o v) s with
    | ok a t =>
      rw [hr] at hf hs
      have ht : t.slot i = some d := by
        rw [← h]
        simp only [State.slot, show t.slots = s.slots from hs]
      exact .trans hf (.storeByte ht o v)
    | stop t => rwa [hr] at hf
  | force1 b => exact .storeByte h o _
  | zero => exact .storeByte h o _
  | bar4Top => exact (StoreFrame.storeByte h o 0#8).trans (.bar4Check _)

theorem StoreFrame.icptWrite {s : State} {i : SlotIndex} {d : Device} (h : s.slot i = some d) (o : Offset)
    (v : Byte) : StoreFrame s (icptWrite i d o v s).state := by
  unfold Machine.icptWrite
  split
  · exact .applyClass _ h o v
  · exact .applyClass _ h o v
  · exact .applyClass _ h o v
  · exact .putDevice h rfl

/-! ### The byte steps of the configuration machine -/

theorem StoreFrame.logged (s : State) (k : LogCode) : StoreFrame s (s.logged k) :=
  .of_eq rfl rfl rfl rfl List.prefix_rfl rfl

theorem StoreFrame.addrWriteByte (k : BitVec 2) (v : Byte) (s : State) :
    StoreFrame s (addrWriteByte k v s) := by
  obtain ⟨l, h⟩ := addrWriteByte_eq k v s
  rw [h]
  exact .of_eq rfl rfl rfl rfl List.prefix_rfl rfl

theorem StoreFrame.dataWriteByte (p : Port) (v : Byte) (s : State) :
    StoreFrame s (dataWriteByte p v s).state := by
  unfold Machine.dataWriteByte
  split
  · exact .logged s _
  · split
    · exact .logged s _
    · split
      · exact .logged s _
      · exact .icptWrite ‹_› _ v

theorem StoreFrame.portWriteByte (p : Port) (v : Byte) (s : State) :
    StoreFrame s (portWriteByte p v s).state := by
  unfold Machine.portWriteByte
  split
  · exact .addrWriteByte _ v s
  · split
    · exact .dataWriteByte p v s
    · exact .raise _ s

theorem StoreFrame.portWrite (n : Nat) (p : Port) (v : Word) (s : State) :
    StoreFrame s (portWrite n p v s).state := by
  induction n generalizing p v s with
  | zero => exact .refl s
  | succ n ih =>
    have h := StoreFrame.portWriteByte p (lowByte v) s
    simp only [Machine.portWrite]
    cases hr : Machine.portWriteByte p (lowByte v) s with
    | ok a t =>
      rw [hr] at h
      exact .trans h (ih _ _ t)
    | stop t => rwa [hr] at h
/-- A byte read changes nothing, or is the fatal of an unrecognized port. -/
theorem portReadByte_cases (p : Port) (s : State) :
    (∃ b, portReadByte p s = .ok b s) ∨
      (isAddrPort p = false ∧ isDataPort p = false ∧
        portReadByte p s = .stop { s with fault := some (.unrecognizedPort p) }) := by
  unfold portReadByte
  split
  · exact .inl ⟨_, rfl⟩
  · split
    · exact .inl ⟨_, rfl⟩
    · exact .inr ⟨by simp_all, by simp_all, rfl⟩

/-- A port read changes nothing, or is the fatal of an unrecognized port. -/
theorem portRead_cases (n : Nat) (p : Port) (s : State) :
    (∃ r, portRead n p s = .ok r s) ∨
      ∃ q, portRead n p s = .stop { s with fault := some (.unrecognizedPort q) } := by
  induction n generalizing p with
  | zero => exact .inl ⟨0, rfl⟩
  | succ n ih =>
    simp only [portRead]
    rcases portReadByte_cases p s with ⟨b, h⟩ | ⟨-, -, h⟩
    · rw [h, Res.andThen_ok]
      rcases ih (p + 1#16) with ⟨r, h'⟩ | ⟨q, h'⟩
      · rw [h']; exact .inl ⟨_, rfl⟩
      · rw [h']; exact .inr ⟨q, rfl⟩
    · rw [h]; exact .inr ⟨p, rfl⟩

/-! ### The host operations -/

/-- The frame through a sequence of operations. -/
theorem BlockFrame.andThen {α β : Type} {s : State} {r : Res α} {k : α → State → Res β}
    (hr : BlockFrame s r.state) (hk : ∀ a t, BlockFrame t (k a t).state) :
    BlockFrame s (r.andThen k).state := by
  cases r with
  | ok a t => exact hr.trans (hk a t)
  | stop t => exact hr

theorem StoreFrame.andThen {α β : Type} {s : State} {r : Res α} {k : α → State → Res β}
    (hr : StoreFrame s r.state) (hk : ∀ a t, StoreFrame t (k a t).state) :
    StoreFrame s (r.andThen k).state := by
  cases r with
  | ok a t => exact hr.trans (hk a t)
  | stop t => exact hr

/-- Putting any device in a slot keeps the frame, but for the kind of that slot. -/
theorem BlockFrame.putDevice (s : State) (i : SlotIndex) (d : Device) : BlockFrame s (s.putDevice i d) := by
  refine ⟨rfl, rfl, rfl, List.prefix_rfl, fun k hs => ?_, fun hb => hb⟩
  rw [State.slot_putDevice]
  split
  · rfl
  · exact hs

theorem BlockFrame.createDevice (bus d f : Word) (kind : Kind) (s : State) :
    BlockFrame s (createDevice bus d f kind s).state := by
  unfold Machine.createDevice
  split
  · exact (StoreFrame.raise _ s).toBlockFrame
  · exact .putDevice s _ _

theorem StoreFrame.copyDefault (i : SlotIndex) (image : List Byte) (n : Nat) (s : State) :
    StoreFrame s (copyDefault i image n s).state := by
  unfold Machine.copyDefault
  cases h : s.slot i with
  | none => exact .refuse _ s
  | some d =>
    simp only
    split
    · exact .refuse _ s
    · rw [Res.state_ok]
      exact .putDevice h rfl

/-- The end of reset, assembly and restore. -/
theorem StoreFrame.replayMapAndRemap (f : Nat → Byte) (s : State) :
    StoreFrame s (replayMapAndRemap f s).state := by
  refine .andThen (.setPermissions _ s) fun _ t => ?_
  split
  · exact .remap _ t
  · exact .refl t

theorem StoreFrame.resetDevice (i : SlotIndex) (kind : Kind) (image : List Byte) (n : Nat) (s : State) :
    StoreFrame s (resetDevice i kind image n s).state := by
  unfold Machine.resetDevice
  split
  · exact .copyDefault _ _ _ _
  · split
    · exact .copyDefault _ _ _ _
    · exact .refl s

/-- Clearing the address register keeps the frame. -/
theorem StoreFrame.clearAddress (s : State) : StoreFrame s { s with ca := 0#32, cyc := false } :=
  .of_eq rfl rfl rfl rfl List.prefix_rfl rfl

theorem StoreFrame.resetBlock (s : State) : StoreFrame s (resetBlock s).state := by
  unfold Machine.resetBlock
  refine .andThen ((StoreFrame.clearAddress s).trans (.resetDevice _ _ _ _ _)) fun _ _ => ?_
  refine .andThen (.resetDevice _ _ _ _ _) fun _ _ => ?_
  exact .andThen (.resetDevice _ _ _ _ _) fun _ _ => .replayMapAndRemap _ _

theorem BlockFrame.assemble (d f : Word) (kind : Kind) (image : List Byte) (n : Nat) (s : State) :
    BlockFrame s (assemble d f kind image n s).state :=
  .andThen (.createDevice _ _ _ _ s) fun _ _ => (StoreFrame.copyDefault _ _ _ _).toBlockFrame

theorem BlockFrame.initBlock (s : State) : BlockFrame s (initBlock s).state := by
  unfold Machine.initBlock
  refine .andThen (.assemble _ _ _ _ _ s) fun _ _ => ?_
  refine .andThen (.assemble _ _ _ _ _ _) fun _ _ => ?_
  refine .andThen (.assemble _ _ _ _ _ _) fun _ t => ?_
  exact ((StoreFrame.clearAddress t).trans (.replayMapAndRemap _ _)).toBlockFrame

/-- The restored images keep every kind and every empty slot. -/
theorem restoredSlots_kind (r : Record) (slots : Vector (Option Device) 256) {k : Nat} (h : k < 256) :
    (restoredSlots r slots)[k].map Device.kind = slots[k].map Device.kind := by
  simp only [restoredSlots, Vector.getElem_ofFn]
  split
  · simp_all
  · rfl

theorem StoreFrame.restoreBlock (r : Record) (s : State) : StoreFrame s (restoreBlock r s).state := by
  unfold Machine.restoreBlock
  split
  · refine .trans ?_ (.replayMapAndRemap _ _)
    · have hk : ∀ k : SlotIndex, (restoredSlots r s.slots)[k.toNat].map Device.kind =
          s.slots[k.toNat].map Device.kind := fun k => restoredSlots_kind r s.slots k.isLt
      refine ⟨⟨rfl, rfl, rfl, List.prefix_rfl, fun k hs => ?_, fun hb => hb⟩, hk⟩
      have h := congrArg Option.isSome (hk k)
      simpa [State.slot, hs] using h.trans (by simpa [State.slot] using hs)
  · exact .refuse _ s

theorem StoreFrame.setIrqLine (x l : Word) (s : State) : StoreFrame s (setIrqLine x l s).state := by
  unfold Machine.setIrqLine
  split
  · exact .refuse _ s
  · split
    · exact .raise _ s
    · split
      · exact .raise _ s
      · exact .of_eq rfl rfl rfl rfl (List.prefix_append _ _) rfl

end Sys2Proof.Machine
end

