-- ==== Sys2Proof/Laws/Cycle.lean ====
section
/-!
SUPPORT. The byte steps of the configuration machine: what each write class stores, which fatals a byte step
can raise, what it does to the address register and to BAR4, and that it does not look at the reply.
-/

namespace Sys2Proof.Machine

/-! ### Selection (40_config_cycle.md R135, R136) -/

theorem dataWriteByte_noDevice {s : State} (h : s.NoDevice) (p : Port) (v : Byte) :
    ∃ l, dataWriteByte p v s = .ok () { s with log := l } := by
  unfold dataWriteByte
  split
  · exact ⟨_, rfl⟩
  · split
    · exact ⟨_, rfl⟩
    · rcases h with h | h | h
      · contradiction
      · contradiction
      · rw [h]; exact ⟨_, rfl⟩

theorem dataReadByte_noDevice {s : State} (h : s.NoDevice) (p : Port) : dataReadByte p s = 0xFF#8 := by
  unfold dataReadByte
  split
  · rfl
  · rcases h with h | h | h
    · simp_all
    · simp_all
    · rw [h]

/-- The offset of a data port: four times the register, plus the lane (30_encoding.md R109). -/
theorem targetOffset_toNat {a : Word} {p : Port} (h : isDataPort p = true) :
    (targetOffset a p).toNat = 4 * (caReg a).toNat + (p.toNat - 0xCFC) := by
  have hr := (caReg a).isLt
  have e : ∀ (r : BitVec 6) (k : Nat), k < 4 →
      (r.setWidth 8 <<< 2 ||| BitVec.ofNat 8 k).toNat = 4 * r.toNat + k := by decide
  unfold targetOffset
  rcases isDataPort_cases h with rfl | rfl | rfl | rfl
  · exact e _ 0 (by omega)
  · exact e _ 1 (by omega)
  · exact e _ 2 (by omega)
  · exact e _ 3 (by omega)

theorem dataWriteByte_selects {s : State} {i : SlotIndex} {d : Device} {r : BitVec 6}
    (h : s.Selects i d r) (p : Port) (v : Byte) :
    dataWriteByte p v s = icptWrite i d (targetOffset s.ca p) v s := by
  obtain ⟨h1, h2, h3, -, h5⟩ := h
  simp [dataWriteByte, h1, h2, h3, h5]

theorem dataReadByte_selects {s : State} {i : SlotIndex} {d : Device} {r : BitVec 6}
    (h : s.Selects i d r) (p : Port) : dataReadByte p s = cfgByte d.cfg (targetOffset s.ca p) := by
  obtain ⟨h1, h2, h3, -, h5⟩ := h
  simp [dataReadByte, h1, h2, h3, h5]

theorem dataPort_not_addr {p : Port} (h : isDataPort p = true) : isAddrPort p = false := by
  rcases isDataPort_cases h with rfl | rfl | rfl | rfl <;> decide

theorem portWriteByte_data {p : Port} (h : isDataPort p = true) (v : Byte) (s : State) :
    portWriteByte p v s = dataWriteByte p v s := by
  simp [portWriteByte, h, dataPort_not_addr h]

theorem portReadByte_data {p : Port} (h : isDataPort p = true) (s : State) :
    portReadByte p s = .ok (dataReadByte p s) s := by
  simp [portReadByte, h, dataPort_not_addr h]

theorem portWriteByte_addr {p : Port} (h : isAddrPort p = true) (v : Byte) (s : State) :
    portWriteByte p v s = .ok () (addrWriteByte (laneOf p) v s) := by
  simp [portWriteByte, h]

theorem portReadByte_addr {p : Port} (h : isAddrPort p = true) (s : State) :
    portReadByte p s = .ok (addrReadByte (laneOf p) s) s := by
  simp [portReadByte, h]

/-! ### Fatals, the address register and BAR4 -/

/-- The interceptor does not touch the address register. -/
theorem icptWrite_address {s : State} (i : SlotIndex) (d : Device) (o : Offset) (v : Byte) :
    (icptWrite i d o v s).state.ca = s.ca ∧ (icptWrite i d o v s).state.cyc = s.cyc := by
  have hp : ∀ ts (s : State), (setPermissions ts s).state.ca = s.ca ∧
      (setPermissions ts s).state.cyc = s.cyc := by
    intro ts
    induction ts with
    | nil => exact fun s => ⟨rfl, rfl⟩
    | cons t ts ih =>
      intro s
      simp only [setPermissions, setPermission]
      split
      · rw [Res.andThen_ok]; exact ih _
      · exact ⟨rfl, rfl⟩
  have hc : ∀ rule, (applyClass rule i d o v s).state.ca = s.ca ∧
      (applyClass rule i d o v s).state.cyc = s.cyc := by
    intro rule
    cases rule with
    | plain p => exact ⟨rfl, rfl⟩
    | pam =>
      have h := hp (pamTargets o v) s
      simp only [applyClass, pamDecode]
      cases hr : setPermissions (pamTargets o v) s <;> rw [hr] at h <;> exact h
    | force1 b => exact ⟨rfl, rfl⟩
    | zero => exact ⟨rfl, rfl⟩
    | bar4Top =>
      obtain ⟨t, ht, h⟩ := bar4Check_cases (s.storeByte i d o 0#8)
      have e : t.ca = s.ca ∧ t.cyc = s.cyc := by rcases ht with rfl | rfl <;> exact ⟨rfl, rfl⟩
      simp only [applyClass]
      rcases h with h | h <;> rw [h]
      · exact e
      · rcases rebind_cases (bar4 (s.storeByte i d o 0#8)) (s.storeByte i d o 0#8).prdt t with
          ⟨-, h⟩ | ⟨-, h⟩ <;> rw [h] <;> exact e
  unfold icptWrite
  split
  · exact hc _
  · exact hc _
  · exact hc _
  · exact ⟨rfl, rfl⟩

/-- A data-window byte write does not touch the address register (70_reset_and_hazards.md R333). -/
theorem dataWriteByte_address (p : Port) (v : Byte) (s : State) :
    (dataWriteByte p v s).state.ca = s.ca ∧ (dataWriteByte p v s).state.cyc = s.cyc := by
  unfold dataWriteByte
  split
  · exact ⟨rfl, rfl⟩
  · split
    · exact ⟨rfl, rfl⟩
    · split
      · exact ⟨rfl, rfl⟩
      · exact icptWrite_address _ _ _ _

/-- A byte write to the address register leaves it legal (10_state.md R35, R37). -/
theorem addrWriteByte_legal (k : BitVec 2) (v : Byte) (s : State) :
    AddressLegal (addrWriteByte k v s).ca (addrWriteByte k v s).cyc := by
  obtain ⟨l, h⟩ := addrWriteByte_eq k v s
  rw [h]
  exact ⟨by simp [caReserved, BitVec.and_assoc], rfl⟩

/-- A byte step keeps the address register legal. -/
theorem portWriteByte_legal (p : Port) (v : Byte) {s : State} (h : AddressLegal s.ca s.cyc) :
    AddressLegal (portWriteByte p v s).state.ca (portWriteByte p v s).state.cyc := by
  unfold portWriteByte
  split
  · exact addrWriteByte_legal _ _ _
  · split
    · rw [(dataWriteByte_address p v s).1, (dataWriteByte_address p v s).2]; exact h
    · exact h

theorem portWrite_legal (n : Nat) (p : Port) (v : Word) {s : State} (h : AddressLegal s.ca s.cyc) :
    AddressLegal (portWrite n p v s).state.ca (portWrite n p v s).state.cyc := by
  induction n generalizing p v s with
  | zero => exact h
  | succ n ih =>
    have hb := portWriteByte_legal p (lowByte v) h
    simp only [portWrite]
    cases hr : portWriteByte p (lowByte v) s with
    | ok a t => rw [hr] at hb; exact ih _ _ hb
    | stop t => rwa [hr] at hb

/-- Bit 0 of BAR4 is bit 0 of its lowest byte (10_state.md R44). -/
theorem bar4Of_bit0 (space : CfgSpace) : (bar4Of space).getLsbD 0 = space[0x20].getLsbD 0 := by
  simp [bar4Of, littleEndian32, joinByte]

/-- The low half of BAR4 is its two low bytes. -/
theorem bar4Of_low (space : CfgSpace) :
    (bar4Of space).setWidth 16 = space[0x20].setWidth 16 ||| space[0x21].setWidth 16 <<< 8 := by
  apply BitVec.eq_of_getLsbD_eq
  intro i hi
  simp only [bar4Of, littleEndian32, joinByte, BitVec.getLsbD_setWidth, BitVec.getLsbD_or,
    BitVec.getLsbD_shiftLeft]
  by_cases h : i < 8
  · simp [h, hi, show i < 32 by omega]
  · have : i - 8 < 8 := by omega
    simp [h, hi, this, show i < 32 by omega, show i - 8 < 16 by omega, show i - 8 < 32 by omega]

/-- The remap check raises no fatal and keeps the store, whatever BAR4 holds (60_exceptions.md R295). -/
theorem bar4Check_slots (s : State) :
    (bar4Check s).state.slots = s.slots ∧ (bar4Check s).state.fault = s.fault := by
  obtain ⟨t, ht, h⟩ := bar4Check_cases s
  have e : t.slots = s.slots ∧ t.fault = s.fault := by rcases ht with rfl | rfl <;> exact ⟨rfl, rfl⟩
  rcases h with h | h <;> rw [h]
  · exact e
  · rcases rebind_cases (bar4 s) s.prdt t with ⟨-, h⟩ | ⟨-, h⟩ <;> rw [h] <;> exact e

theorem IdeBarIsIo_of_slots {s t : State} (hs : t.slots = s.slots) (h : s.IdeBarIsIo) : t.IdeBarIsIo := by
  obtain ⟨d, hd, h⟩ := h
  exact ⟨d, by rw [← hd]; simp only [State.slot, hs], h⟩

/-- A store to a slot keeps slot 9's BAR4 in I/O space unless it clears bit 0 of that very byte. -/
theorem IdeBarIsIo_storeByte {s : State} {i : SlotIndex} {d : Device} (hd : s.slot i = some d) (o : Offset)
    (v : Byte) (hv : i = 9#8 → o = 0x20#8 → v.getLsbD 0 = true) (h : s.IdeBarIsIo) :
    (s.storeByte i d o v).IdeBarIsIo := by
  obtain ⟨e, he, hk, hb⟩ := h
  by_cases hi : i = 9#8
  · subst hi
    obtain rfl : d = e := by rw [hd] at he; exact Option.some.inj he
    refine ⟨_, State.slot_storeByte_same _ _ _ _ _, hk, ?_⟩
    change (cfgByte (cfgSet d.cfg o v) 0x20#8).getLsbD 0 = true
    rw [cfgByte_cfgSet]
    split
    · exact hv rfl (Eq.symm ‹_›)
    · exact hb
  · refine ⟨e, ?_, hk, hb⟩
    rw [State.slot_storeByte, if_neg (Ne.symm hi), he]

/-- Decoding a PAM register touches neither the store nor the fault. -/
theorem pamDecode_slots {o : Offset} (ho : 0x59 ≤ o.toNat ∧ o.toNat ≤ 0x5F) (v : Byte) (s : State) :
    ∃ t, pamDecode o v s = .ok () t ∧ t.slots = s.slots ∧ t.fault = s.fault :=
  ⟨_, pamDecode_eq ho v s, rfl, rfl⟩

/-- What an interceptor step does to the store: one byte of the slot for a fixed kind, of a value whose bit 0
is set at the IDE controller's offset 0x20; the slot's own space for a generic one. -/
theorem icptWrite_slots (s : State) (i : SlotIndex) (d : Device) (o : Offset) (v : Byte) :
    (∃ b : Byte, (d.kind = .ideController → o = 0x20#8 → b.getLsbD 0 = true) ∧
      (icptWrite i d o v s).state.slots = (s.storeByte i d o b).slots) ∨
    (∃ g space, d.kind = .generic g ∧
      (icptWrite i d o v s).state.slots = (s.putDevice i ⟨d.kind, space⟩).slots) := by
  have store : ∀ b : Byte, (d.kind = .ideController → o = 0x20#8 → b.getLsbD 0 = true) →
      ∃ c : Byte, (d.kind = .ideController → o = 0x20#8 → c.getLsbD 0 = true) ∧
        (s.storeByte i d o b).slots = (s.storeByte i d o c).slots := fun b hb => ⟨b, hb, rfl⟩
  unfold icptWrite
  cases hk : d.kind with
  | hostBridge =>
    have hne : ∀ b : Byte, d.kind = .ideController → o = 0x20#8 → b.getLsbD 0 = true := by
      intro b h; rw [hk] at h; cases h
    rw [hk] at store hne
    refine .inl ?_
    simp only [hostBridgeClass]
    split
    · exact store _ (hne _)
    · split
      · exact store _ (hne _)
      · split
        · obtain ⟨t, ht, hs, -⟩ := pamDecode_slots ‹_› v s
          simp only [applyClass, ht, Res.andThen_ok, Res.state_ok]
          exact ⟨v, hne _, by simp only [State.storeByte, State.putDevice, hs]⟩
        · exact store _ (hne _)
  | isaBridge =>
    have hne : ∀ b : Byte, d.kind = .ideController → o = 0x20#8 → b.getLsbD 0 = true := by
      intro b h; rw [hk] at h; cases h
    rw [hk] at store hne
    refine .inl ?_
    simp only [isaBridgeClass]
    split
    · exact store _ (hne _)
    · split
      · exact store _ (hne _)
      · exact store _ (hne _)
  | ideController =>
    have store : ∀ b : Byte, (o = 0x20#8 → b.getLsbD 0 = true) →
        ∃ c : Byte, (o = 0x20#8 → c.getLsbD 0 = true) ∧
          (s.storeByte i d o b).slots = (s.storeByte i d o c).slots := fun b hb => ⟨b, hb, rfl⟩
    refine .inl ?_
    simp only [ideClass, true_implies]
    split
    · exact store _ (by subst o; intro h; cases h)
    · split
      · exact store _ (by intro _; simp)
      · split
        · exact store _ (by subst o; intro h; cases h)
        · split
          · exact store _ (by subst o; intro h; cases h)
          · split
            · exact ⟨0#8, (by subst o; intro h; cases h), (bar4Check_slots _).1⟩
            · exact store _ (by intro h; contradiction)
  | generic g => exact .inr ⟨g, genericStore g i d.cfg o v, rfl, rfl⟩

/-- An interceptor step raises no fatal (60_exceptions.md R295, R298). -/
theorem icptWrite_fault (s : State) (i : SlotIndex) (d : Device) (o : Offset) (v : Byte) :
    (icptWrite i d o v s).state.fault = s.fault := by
  unfold icptWrite
  split
  · simp only [hostBridgeClass]
    split
    · rfl
    · split
      · rfl
      · split
        · obtain ⟨t, ht, -, hf⟩ := pamDecode_slots ‹_› v s
          simp only [applyClass, ht, Res.andThen_ok, Res.state_ok]
          exact hf
        · rfl
  · simp only [isaBridgeClass]
    split
    · rfl
    · split <;> rfl
  · simp only [ideClass]
    split
    · rfl
    · split
      · rfl
      · split
        · rfl
        · split
          · rfl
          · split
            · exact (bar4Check_slots _).2
            · rfl
  · rfl

/-- An interceptor step keeps slot 9's BAR4 in I/O space. -/
theorem icptWrite_ioBar {s : State} {i : SlotIndex} {d : Device} (hd : s.slot i = some d) (o : Offset)
    (v : Byte) (h : s.IdeBarIsIo) : (icptWrite i d o v s).state.IdeBarIsIo := by
  have h9 : i = 9#8 → d.kind = .ideController := by
    rintro rfl
    obtain ⟨e, he, hke, -⟩ := h
    rw [hd] at he
    cases he
    exact hke
  rcases icptWrite_slots s i d o v with ⟨b, hb, e⟩ | ⟨g, space, hg, e⟩
  · exact IdeBarIsIo_of_slots e (IdeBarIsIo_storeByte hd o b (fun hi => hb (h9 hi)) h)
  · refine IdeBarIsIo_of_slots e ?_
    have hi : i ≠ 9#8 := fun hi => by rw [h9 hi] at hg; cases hg
    obtain ⟨e, he, hke, hbit⟩ := h
    exact ⟨e, by rw [State.slot_putDevice, if_neg (Ne.symm hi), he], hke, hbit⟩

/-- A data byte step raises no fatal, and keeps slot 9's BAR4 in I/O space. -/
theorem dataWriteByte_ioBar (p : Port) (v : Byte) (s : State) :
    (dataWriteByte p v s).state.fault = s.fault ∧
      (s.IdeBarIsIo → (dataWriteByte p v s).state.IdeBarIsIo) := by
  unfold dataWriteByte
  split
  · exact ⟨rfl, fun h => h⟩
  · split
    · exact ⟨rfl, fun h => h⟩
    · split
      · exact ⟨rfl, fun h => h⟩
      · exact ⟨icptWrite_fault _ _ _ _ _, icptWrite_ioBar ‹_› _ v⟩

/-- A byte step keeps the fault, or is the fatal of an unrecognized port (40_config_cycle.md R137). -/
theorem portWriteByte_fault (p : Port) (v : Byte) (s : State) :
    (portWriteByte p v s).state.fault = s.fault ∨
      (isAddrPort p = false ∧ isDataPort p = false ∧
        (portWriteByte p v s).state.fault = some (.unrecognizedPort p)) := by
  unfold portWriteByte
  split
  · obtain ⟨l, e⟩ := addrWriteByte_eq (laneOf p) v s
    rw [Res.state_ok, e]
    exact .inl rfl
  · split
    · exact .inl (dataWriteByte_ioBar p v s).1
    · exact .inr ⟨by simp_all, by simp_all, rfl⟩

/-- A byte step keeps slot 9's BAR4 in I/O space. -/
theorem portWriteByte_ioBar (p : Port) (v : Byte) {s : State} (h : s.IdeBarIsIo) :
    (portWriteByte p v s).state.IdeBarIsIo := by
  unfold portWriteByte
  split
  · obtain ⟨l, e⟩ := addrWriteByte_eq (laneOf p) v s
    rw [Res.state_ok, e]
    exact IdeBarIsIo_of_slots rfl h
  · split
    · exact (dataWriteByte_ioBar p v s).2 h
    · exact IdeBarIsIo_of_slots rfl h

/-! ### The reply is not looked at -/

/-- An ended operation with another reply in its state. -/
def Res.withReply {α : Type} (q : Reply) (r : Res α) : Res α :=
  match r with
  | .ok a s => .ok a { s with reply := q }
  | .stop s => .stop { s with reply := q }

theorem setPermissions_withReply (ts : List (Addr × Byte)) (s : State) (q : Reply) :
    setPermissions ts { s with reply := q } = (setPermissions ts s).withReply q := by
  induction ts generalizing s with
  | nil => rfl
  | cons t ts ih =>
    simp only [setPermissions, setPermission]
    split
    · exact ih (State.emit { s with pam := mapSet s.pam (regionOf t.1) (t.2.setWidth 4) }
        [.permChanged (regionOf t.1) (t.2.setWidth 4)])
    · rfl

theorem rebind_withReply (b : Word) (old : Option Port) (s : State) (q : Reply) :
    rebind b old { s with reply := q } = (rebind b old s).withReply q := by
  unfold rebind
  split <;> rfl

theorem bar4Check_withReply (s : State) (q : Reply) :
    bar4Check { s with reply := q } = (bar4Check s).withReply q := by
  have hs : State.slot { s with reply := q } 9#8 = s.slot 9#8 := rfl
  have hb : bar4 { s with reply := q } = bar4 s := rfl
  simp only [bar4Check, hs, hb]
  cases (s.slot 9#8).isNone
  · simp only [Bool.false_eq_true, if_false]
    split
    · rfl
    · exact rebind_withReply _ _ _ _
  · simp only [if_true]
    split
    · rfl
    · exact rebind_withReply _ _ s.drawn _

theorem icptWrite_withReply (i : SlotIndex) (d : Device) (o : Offset) (v : Byte) (s : State) (q : Reply) :
    icptWrite i d o v { s with reply := q } = (icptWrite i d o v s).withReply q := by
  have hc : ∀ rule, applyClass rule i d o v { s with reply := q } = (applyClass rule i d o v s).withReply q := by
    intro rule
    cases rule with
    | plain p => rfl
    | pam =>
      simp only [applyClass, pamDecode, setPermissions_withReply]
      cases setPermissions (pamTargets o v) s <;> rfl
    | force1 b => rfl
    | zero => rfl
    | bar4Top => exact bar4Check_withReply (s.storeByte i d o 0#8) q
  unfold icptWrite
  split
  · exact hc _
  · exact hc _
  · exact hc _
  · rfl

/-- A byte step does not look at the reply of the request before it. -/
theorem portWriteByte_withReply (p : Port) (v : Byte) (s : State) (q : Reply) :
    portWriteByte p v { s with reply := q } = (portWriteByte p v s).withReply q := by
  unfold portWriteByte
  split
  · simp only [addrWriteByte]
    split <;> rfl
  · split
    · have hs : State.slot { s with reply := q } (caDevfn s.ca) = s.slot (caDevfn s.ca) := rfl
      simp only [dataWriteByte, hs]
      split
      · rfl
      · split
        · rfl
        · split
          · rfl
          · exact icptWrite_withReply _ _ _ _ _ _
    · rfl

end Sys2Proof.Machine
end

