-- ==== Sys2Proof/Laws/Window.lean ====
section
/-!
SUPPORT. Window accesses: which bytes a write of any width stores, and the form of the window memory that
every write keeps.
-/

namespace Sys2Proof.Machine

/-- The entry that governs a window address, by number (42_shadow_ram.md R211). -/
theorem writeAllowed_eq (s : State) {a : Addr} (h : inWindow a = true) :
    s.writeAllowed a.toNat = (s.permission a).getLsbD 1 := by
  have hr := regionOf_toNat h
  simp only [State.writeAllowed, State.permission, mapGet, ← hr]
  rw [Vector.getElem?_eq_getElem (regionOf a).isLt]
  rfl

/-- One window byte write (42_shadow_ram.md R220). -/
theorem shadowWriteByte_read (a : Addr) (v : Byte) (s : State) (h : inWindow a = true) (x : Nat) :
    (shadowWriteByte a v s).win.read x =
      if x = a.toNat ∧ s.writeAllowed x = true then v else s.win.read x := by
  obtain ⟨l, e⟩ := shadowWriteByte_eq a v s
  rw [e]
  simp only
  rw [← writeAllowed_eq s h]
  by_cases hx : x = a.toNat
  · subst hx
    split <;> simp_all
  · split
    · simp [Memory.read_write, hx]
    · simp [hx]

/-- The permission map is the one before the write. -/
theorem shadowWriteByte_writeAllowed (a : Addr) (v : Byte) (s : State) (x : Nat) :
    (shadowWriteByte a v s).writeAllowed x = s.writeAllowed x := by
  obtain ⟨l, e⟩ := shadowWriteByte_eq a v s
  rw [e]
  rfl

/-- A window write stores each byte of its value at its address, where that address is in the window and
its region allows writes, and no other byte (20_memory.md R78, R79). -/
theorem memWrite_read (n : Nat) (a : Addr) (v : Word) (s : State) (h : a.toNat + n < 2 ^ 32) (x : Nat) :
    (memWrite n a v s).win.read x =
      if a.toNat ≤ x ∧ x < a.toNat + n ∧ 0xC0000 ≤ x ∧ x ≤ 0xFFFFF ∧ s.writeAllowed x = true
      then v.extractLsb' (8 * (x - a.toNat)) 8 else s.win.read x := by
  induction n generalizing a v s with
  | zero => rw [if_neg (by omega)]; rfl
  | succ n ih =>
    have h1 : (a + 1#32).toNat = a.toNat + 1 := by
      rw [BitVec.toNat_add]
      exact Nat.mod_eq_of_lt (by simp; omega)
    simp only [memWrite]
    rw [ih _ _ _ (by omega), h1]
    have hsh : a.toNat + 1 ≤ x →
        (v >>> 8).extractLsb' (8 * (x - (a.toNat + 1))) 8 = v.extractLsb' (8 * (x - a.toNat)) 8 := by
      intro hx
      apply BitVec.eq_of_getLsbD_eq
      intro i hi
      simp only [BitVec.getLsbD_extractLsb', BitVec.getLsbD_ushiftRight]
      congr 2
      omega
    by_cases hw : inWindow a = true
    · have hw' := (inWindow_iff a).1 hw
      rw [if_pos hw, shadowWriteByte_writeAllowed, shadowWriteByte_read _ _ _ hw]
      by_cases hx : x = a.toNat
      · have hl : lowByte v = v.extractLsb' (8 * (x - a.toNat)) 8 := by
          rw [hx, Nat.sub_self]
          rfl
        rw [if_neg (by omega), ← hl]
        by_cases hp : s.writeAllowed x = true
        · rw [if_pos ⟨hx, hp⟩, if_pos ⟨by omega, by omega, by omega, by omega, hp⟩]
        · rw [if_neg fun c => hp c.2, if_neg fun c => hp c.2.2.2.2]
      · rw [if_neg (c := x = a.toNat ∧ _) fun c => hx c.1]
        by_cases hc : a.toNat ≤ x ∧ x < a.toNat + (n + 1) ∧ 0xC0000 ≤ x ∧ x ≤ 0xFFFFF ∧
            s.writeAllowed x = true
        · rw [if_pos hc, if_pos ⟨by omega, by omega, hc.2.2⟩, hsh (by omega)]
        · rw [if_neg hc, if_neg fun c => hc ⟨by omega, by omega, c.2.2⟩]
    · rw [if_neg hw]
      rw [inWindow_iff] at hw
      by_cases hc : a.toNat ≤ x ∧ x < a.toNat + (n + 1) ∧ 0xC0000 ≤ x ∧ x ≤ 0xFFFFF ∧
          s.writeAllowed x = true
      · have hx : x ≠ a.toNat := fun e => hw (by rw [← e]; exact ⟨hc.2.2.1, hc.2.2.2.1⟩)
        rw [if_pos hc, if_pos ⟨by omega, by omega, hc.2.2⟩, hsh (by omega)]
      · rw [if_neg hc, if_neg fun c => hc ⟨by omega, by omega, c.2.2⟩]

/-- A window byte write keeps the window memory canonical and inside the window. -/
theorem shadowWriteByte_windowInv (a : Addr) (v : Byte) (s : State) (h : inWindow a = true)
    (hi : WindowInv s.win) : WindowInv (shadowWriteByte a v s).win := by
  obtain ⟨l, e⟩ := shadowWriteByte_eq a v s
  rw [e]
  simp only
  split
  · refine ⟨Memory.wf_write _ _ hi.1, fun c hc => ?_⟩
    rcases Memory.mem_write hc with rfl | hc
    · exact (inWindow_iff a).1 h
    · exact hi.2 c hc
  · exact hi

/-- A window write of any width does. -/
theorem memWrite_windowInv (n : Nat) (a : Addr) (v : Word) (s : State) (hi : WindowInv s.win) :
    WindowInv (memWrite n a v s).win := by
  induction n generalizing a v s with
  | zero => exact hi
  | succ n ih =>
    simp only [memWrite]
    apply ih
    split
    · exact shadowWriteByte_windowInv a _ s ‹_› hi
    · exact hi

/-- A window read of bytes that all lie in the window changes nothing. -/
theorem afterRead_inWindow {n : Nat} {a : Addr} (h1 : 0xC0000 ≤ a.toNat) (h2 : a.toNat + n ≤ 0x100000)
    (s : State) : afterRead n a s = s := by
  have h : allInWindow n a = true := by
    induction n generalizing a with
    | zero => rfl
    | succ n ih =>
      have e : (a + 1#32).toNat = a.toNat + 1 := by
        rw [BitVec.toNat_add]
        exact Nat.mod_eq_of_lt (by simp; omega)
      simp only [allInWindow, Bool.and_eq_true]
      exact ⟨(inWindow_iff a).2 ⟨h1, by omega⟩, ih (by omega) (by omega)⟩
  simp [afterRead, h]

end Sys2Proof.Machine
end

