-- ==== Sys2Proof/Laws/Access.lean ====
section
/-!
SUPPORT. Lemmas for statements about whole requests: descriptors taken apart, data accesses in terms of
their byte steps, the bytes of window reads, default images laid over a configuration space.
-/

namespace Sys2Proof.Machine

/-- A descriptor whose reserved bits are 0 is built from its top byte, OP and ADDR. -/
theorem td_eq_tdOf (td : BitVec 64) (h : tdReserved td = 0#16) :
    td = tdOf (td.extractLsb' 56 8) (tdOp td) (tdAddr td) := by
  apply BitVec.eq_of_getLsbD_eq
  intro i hi
  rw [tdOf_getLsbD]
  simp only [tdOp, tdAddr, BitVec.getLsbD_extractLsb', BitVec.getLsbD_setWidth]
  by_cases h1 : i < 32
  · simp [h1]
  · by_cases h2 : i < 40
    · simp [h1,h2, show 32 + (i-32) = i by omega, show i - 32 < 8 by omega]
    · by_cases h3 : i < 56
      · simp [h1,h2,h3]
        have := congrArg (fun b => b.getLsbD (i-40)) h
        simp [tdReserved, show 40 + (i-40) = i by omega, show i - 40 <
            16 by omega] at this
        exact this
      · simp [h1,h2,h3,hi, show 56 + (i-56) = i by omega, show i - 56 < 8 by omega]

/-- The top byte from SPACE, DIR and SIZE (30_encoding.md R102). -/
theorem topByte_eq (td : BitVec 64) :
    td.extractLsb' 56 8 =
      (tdSpace td).setWidth 8 <<< 4 ||| (if tdDir td then 8#8 else 0#8) ||| (tdSize td).setWidth 8 := by
  apply BitVec.eq_of_getLsbD_eq
  intro i hi
  have : ∀ j, j < 8 → (if tdDir td then 8#8 else 0#8).getLsbD j = (decide (j = 3) && td.getLsbD 59) := by
    intro j hj; unfold tdDir; cases td.getLsbD 59 <;> simp ; revert j; decide
  simp only [BitVec.getLsbD_or, BitVec.getLsbD_shiftLeft, this i hi, BitVec.getLsbD_setWidth, tdSpace,
      tdSize, BitVec.getLsbD_extractLsb']
  interval_cases i <;> simp

/-- A 16-bit ADDR is its port. -/
theorem tdPort_setWidth (td : BitVec 64) (h : (tdAddr td).extractLsb' 16 16 = 0#16) :
    (tdPort td).setWidth 32 = tdAddr td := by
  apply BitVec.eq_of_getLsbD_eq
  intro i hi
  simp [tdPort, tdAddr]
  by_cases h1 : i < 16
  · simp [h1, hi];
  · have := congrArg (fun b => b.getLsbD (i-16)) h
    simp [tdAddr, show 16 + (i-16) = i by omega, show i - 16 < 16 by omega] at this
    simp [h1]
    simpa [hi] using this

/-- A port leaves the high half of ADDR at 0. -/
theorem port_extractLsb_high (p : Port) : (p.setWidth 32).extractLsb' 16 16 = 0#16 := by
  apply BitVec.eq_of_getLsbD_eq
  intro i hi; simp [BitVec.getLsbD_extractLsb', BitVec.getLsbD_setWidth];

/-- Clearing the reserved bits, bit by bit. -/
theorem getLsbD_clearReserved (t : Word) (j : Nat) (hj : j < 32) :
    (t &&& ~~~caReserved).getLsbD j = (!(0x7F000003#32).getLsbD j && t.getLsbD j) := by
  simp only [caReserved, BitVec.getLsbD_and, BitVec.getLsbD_not, hj]
  cases t.getLsbD j <;> simp

/-- The lane of an address port. -/
theorem laneOf_addrPort (p : Port) (h : isAddrPort p = true) : (laneOf p).toNat = p.toNat - 0xCF8 := by
  rcases isAddrPort_cases h with rfl | rfl | rfl | rfl <;> rfl

/-- The port after an address port other than the last. -/
theorem addrPort_succ {p : Port} (h : isAddrPort p = true) (h' : p ≠ 0xCFB#16) :
    isAddrPort (p + 1#16) = true ∧ (p + 1#16).toNat = p.toNat + 1 := by
  rcases isAddrPort_cases h with rfl | rfl | rfl | rfl
  · decide
  · decide
  · decide
  · contradiction

/-- The port after a data port other than the last. -/
theorem dataPort_succ {p : Port} (h : isDataPort p = true) (h' : p ≠ 0xCFF#16) :
    isDataPort (p + 1#16) = true ∧ (p + 1#16).toNat = p.toNat + 1 := by
  rcases isDataPort_cases h with rfl | rfl | rfl | rfl
  · decide
  · decide
  · decide
  · contradiction

/-- A one-byte data read. -/
theorem exec_cfgDataR8_eq (p : Port) (s : State) (h : isDataPort p = true) :
    exec (.cfgDataR8 p) s = .next { s with reply := .data ((dataReadByte p s).setWidth 32) } := by
  simp only [exec, execCfgDataR8, readRequest, portRead, portReadByte_data h, Res.andThen_ok, complete_ok]
  simp [joinByte]

/-- A two-byte data read inside the window. -/
theorem exec_cfgDataR16_eq (p : Port) (s : State) (h : isDataPort p = true) (h' : p ≠ 0xCFF#16) :
    exec (.cfgDataR16 p) s =
      .next { s with
        reply := .data ((dataReadByte p s).setWidth 32 ||| (dataReadByte (p + 1#16) s).setWidth 32 <<< 8) } := by
  simp only [exec, execCfgDataR16, readRequest, portRead, portReadByte_data h, portReadByte_data
      (dataPort_succ h h').1, Res.andThen_ok, complete_ok]
  simp [joinByte]

/-- A four-byte data read of a whole register. -/
theorem exec_cfgDataR32_eq (s : State) :
    exec (.cfgDataR32 0xCFC#16) s =
      .next { s with
        reply := .data ((dataReadByte 0xCFC#16 s).setWidth 32 |||
          (dataReadByte 0xCFD#16 s).setWidth 32 <<< 8 ||| (dataReadByte 0xCFE#16 s).setWidth 32 <<< 16 |||
          (dataReadByte 0xCFF#16 s).setWidth 32 <<< 24) } := by
  have h0 : isDataPort 0xCFC#16 = true := by decide
  have h1 : isDataPort (0xCFC#16 + 1#16) = true := by decide
  have h2 : isDataPort (0xCFC#16 + 1#16 + 1#16) = true := by decide
  have h3 : isDataPort (0xCFC#16 + 1#16 + 1#16 + 1#16) = true := by decide
  simp only [exec, execCfgDataR32, readRequest, portRead, portReadByte_data h0, portReadByte_data h1,
    portReadByte_data h2, portReadByte_data h3, Res.andThen_ok, complete_ok]
  simp [joinByte, BitVec.or_assoc, BitVec.shiftLeft_or_distrib, ← BitVec.shiftLeft_add]

/-- A configuration byte by its number. -/
theorem cfgByte_eq_getD (d : Device) (o : Offset) (n : Nat) (h : o.toNat = n) :
    cfgByte d.cfg o = d.cfg[n]?.getD 0 := by
  subst h
  rw [Vector.getElem?_eq_getElem o.isLt]
  rfl

/-- A one-byte data write. -/
theorem exec_cfgDataW8_eq (p : Port) (v : Byte) (s : State) (h : isDataPort p = true) :
    exec (.cfgDataW8 p v) s = complete (fun _ => .done) (dataWriteByte p v s) := by
  simp only [exec, execCfgDataW8, writeRequest, portWrite, portWriteByte_data h]
  rw [show lowByte (v.setWidth 32) = v by simp [lowByte]]
  cases dataWriteByte p v s <;> rfl

/-- A one-byte data write to a selected device is its interceptor step. -/
theorem exec_cfgDataW8_selects {s : State} {i d r} (h : s.Selects i d r) {p : Port}
    (hp : isDataPort p = true) (o : Offset) (ho : o.toNat = 4 * r.toNat + (p.toNat - 0xCFC)) (v : Byte) :
    exec (.cfgDataW8 p v) s = complete (fun _ => .done) (icptWrite i d o v s) := by
  rw [exec_cfgDataW8_eq p v s hp, dataWriteByte_selects h]
  have : targetOffset s.ca p = o := by
    apply BitVec.eq_of_toNat_eq
    rw [targetOffset_toNat hp, h.2.2.2.1, ho]
  rw [this]

/-- The base of a configuration space. -/
theorem prdtBase_bar4Of (space : CfgSpace) :
    prdtBase (bar4Of space) =
      (space[0x20].setWidth 16 ||| space[0x21].setWidth 16 <<< 8) &&& 0xFFF0#16 := by
  simp only [prdtBase, bar4Of_low]

/-- A data byte step to a selected device is its interceptor step. -/
theorem portWriteByte_selects {s : State} {i d r} (h : s.Selects i d r) {p : Port}
    (hp : isDataPort p = true) (o : Offset) (ho : o.toNat = 4 * r.toNat + (p.toNat - 0xCFC)) (v : Byte) :
    portWriteByte p v s = icptWrite i d o v s := by
  rw [portWriteByte_data hp, dataWriteByte_selects h]
  have : targetOffset s.ca p = o := by
    apply BitVec.eq_of_toNat_eq
    rw [targetOffset_toNat hp, h.2.2.2.1, ho]
  rw [this]

/-- Storing a byte keeps the selection. -/
theorem storeByte_selects {s : State} {i d r} (h : s.Selects i d r) (o v) :
    (s.storeByte i d o v).Selects i ⟨d.kind, cfgSet d.cfg o v⟩ r :=
  ⟨h.1, h.2.1, h.2.2.1, h.2.2.2.1, State.slot_storeByte_same _ _ _ _ _⟩

/-- The next address. -/
theorem addr_succ_toNat {a : Addr} (h : a.toNat + 1 < 2^32) : (a + 1#32).toNat = a.toNat + 1 := by simp; omega

/-- A byte inside the window. -/
theorem windowByte_read {a : Addr} (s) (h1 : 0xC0000 ≤ a.toNat) (h2 : a.toNat ≤ 0xFFFFF) :
    windowByte a s = s.win.read a.toNat := by
  unfold windowByte
  rw [if_pos ((inWindow_iff a).2 ⟨h1,h2⟩)]; rfl

/-- The low byte of a joined word. -/
theorem joinByte_low (b : Byte) (r : Word) : (joinByte b r).extractLsb' 0 8 = b := by
  apply BitVec.eq_of_getLsbD_eq; intro j hj
  simp [joinByte, hj]; omega

/-- The higher bytes of a joined word. -/
theorem joinByte_high (b : Byte) (r : Word) (k : Nat) (hk : k < 3) :
    (joinByte b r).extractLsb' (8 * (k + 1)) 8 = r.extractLsb' (8 * k) 8 := by
  apply BitVec.eq_of_getLsbD_eq; intro j hj
  simp only [joinByte, BitVec.getLsbD_extractLsb', BitVec.getLsbD_or, BitVec.getLsbD_shiftLeft,
      BitVec.getLsbD_setWidth]
  rw [show 8 * (k+1) + j - 8 = 8 * k + j by omega]
  have : b.getLsbD (8 * (k+1) + j) = false := BitVec.getLsbD_of_ge _ _ (by omega)
  have h32 : 8 * (k + 1) + j < 32 := by omega
  have h8 : ¬ 8 * (k + 1) + j < 8 := by omega
  have hk' : 8 * k + j < 32 := by omega
  simp [this, h32, h8, hk']

/-- A read past the window end advances the counter. -/
theorem afterRead_outside {n : Nat} {a : Addr} (h1 : a.toNat ≤ 0xFFFFF) (h2 : 0x100000 < a.toNat + n)
    (h3 : a.toNat + n < 2 ^ 32) (s : State) : afterRead n a s = s.drawn := by
  have h : allInWindow n a = false := by
    induction n generalizing a with
    | zero => omega
    | succ n ih =>
      have e := addr_succ_toNat (a := a) (by omega)
      simp only [allInWindow]
      by_cases hx : a.toNat = 0xFFFFF
      · obtain ⟨m, rfl⟩ : ∃ m, n = m + 1 := ⟨n - 1, by omega⟩
        have : inWindow (a + 1#32) = false := by
          cases hh : inWindow (a + 1#32)
          · rfl
          · have := (inWindow_iff _).1 hh; omega
        simp [allInWindow, this]
      · rw [ih (by omega) (by omega) (by omega)]; simp
  simp [afterRead, h]

/-- The bytes of a window read that lie inside the window. -/
theorem memRead_byte (n : Nat) (a : Addr) (s : State) (h1 : 0xC0000 ≤ a.toNat)
    (h3 : a.toNat + n < 2 ^ 32) (hn : n ≤ 4) :
    ∀ k, k < n → a.toNat + k ≤ 0xFFFFF →
      (memRead n a s).extractLsb' (8 * k) 8 = s.win.read (a.toNat + k) := by
  induction n generalizing a with
  | zero => intro k hk; omega
  | succ n ih =>
    intro k hk hl
    simp only [memRead]
    cases k with
    | zero => rw [joinByte_low, windowByte_read s h1 (by omega)]; rfl
    | succ k =>
      have e := addr_succ_toNat (a := a) (by omega)
      rw [joinByte_high _ _ _ (by omega), ih (a+1#32) (by omega) (by omega) (by omega) k (by omega)
          (by omega), e, Nat.add_assoc, Nat.add_comm 1]

/-- Copying an image is overlaying it. -/
theorem cfgOverlay_withImage (sp : CfgSpace) (im : List Byte) (n : Nat) (h : n ≤ im.length) :
    cfgOverlay sp im n = withImage (im.take n) sp := by
  apply Vector.ext; intro k hk
  simp only [cfgOverlay, withImage, Vector.getElem_ofFn, List.length_take, Nat.min_eq_left h]
  split
  · rw [List.getD_eq_getElem?_getD, List.getD_eq_getElem?_getD, List.getElem?_take, if_pos ‹_›]
  · rfl

/-- The length of a default image. -/
theorem imageOf_length (n f) : (imageOf n f).length = n := by simp [imageOf]

/-- Copying a whole default image. -/
theorem cfgOverlay_imageOf (sp : CfgSpace) (n f) : cfgOverlay sp (imageOf n f) n = withImage (imageOf n f)
    sp := by
  rw [cfgOverlay_withImage _ _ _ (by rw [imageOf_length])]
  rw [List.take_of_length_le (by rw [imageOf_length])]

/-- The shared end of reset, assembly and restore while slot 9 holds no IDE controller: the map is replayed,
and nothing is rebound (44_control.md R269). -/
theorem replayMapAndRemap_other (f : Nat → Byte) {s : State} (h : slot9IsIde s = false) :
    replayMapAndRemap f s =
      .ok ()
        { s with
          pam := Vector.ofFn fun i => (f i.val).setWidth 4
          trace := s.trace ++ noticesOfMap fun i => (f i).setWidth 4 } := by
  unfold replayMapAndRemap
  rw [setPermissions_inWindow (mapTargets_inWindow _), Res.andThen_ok, mapAfter_mapTargets,
    noticesOf_mapTargets]
  have h' : ∀ m tr, ¬slot9IsIde { s with pam := m, trace := tr } = true := fun _ _ g => by
    rw [show slot9IsIde s = true from g] at h
    cases h
  exact if_neg (h' _ _)

/-- The shared end of reset, assembly and restore while slot 9 holds the IDE controller: the map is replayed,
then the remapper runs on the live binding. -/
theorem replayMapAndRemap_ide (f : Nat → Byte) {s : State} (h : slot9IsIde s = true) :
    replayMapAndRemap f s =
      remap s.prdt
        { s with
          pam := Vector.ofFn fun i => (f i.val).setWidth 4
          trace := s.trace ++ noticesOfMap fun i => (f i).setWidth 4 } := by
  unfold replayMapAndRemap
  rw [setPermissions_inWindow (mapTargets_inWindow _), Res.andThen_ok, mapAfter_mapTargets,
    noticesOf_mapTargets]
  have h' : ∀ m tr, slot9IsIde { s with pam := m, trace := tr } = true := fun _ _ => h
  exact if_pos (h' _ _)

/-- Slot 9 holds the IDE controller. -/
theorem slot9IsIde_iff {s : State} {d : Device} (h : s.slot 9#8 = some d) :
    slot9IsIde s = decide (d.kind = .ideController) := by
  simp [slot9IsIde, h]; rfl

/-- The remapper on an I/O-space BAR4 whose base does not cover the configuration ports. -/
theorem remap_binds {s : State} {d : Device} (h : s.slot 9#8 = some d) (old : Option Port)
    (hb : (bar4Of d.cfg).getLsbD 0 = true) (hp : prdtBase (bar4Of d.cfg) ≠ 0xCF0#16) :
    remap old s =
      .ok () { s with
        prdt := some (prdtBase (bar4Of d.cfg))
        trace := s.trace ++ rebindEvents old (prdtBase (bar4Of d.cfg)) } := by
  rcases remap_cases old s with ⟨g, -⟩ | ⟨-, e⟩
  · rw [bar4_populated h, hb] at g; cases g
  · rw [e, bar4_populated h]
    rcases rebind_cases (bar4Of d.cfg) old s with ⟨g, -⟩ | ⟨-, e⟩
    · exact absurd g hp
    · exact e

/-- The end of a reset or an assembly: every permission 0, and the default binding while slot 9 holds the IDE
controller, whose image has just been laid (70_reset_and_hazards.md R321, R326). -/
theorem replayZeroMap_eq {s : State} {d : Device} (h : s.slot 9#8 = some d)
    (hb : d.kind = .ideController →
      (bar4Of d.cfg).getLsbD 0 = true ∧ prdtBase (bar4Of d.cfg) = 0xC000#16) :
    replayMapAndRemap (fun _ => 0#8) s =
      .ok ()
        { s with
          pam := Vector.replicate 16 0
          prdt := if d.kind = .ideController then some 0xC000#16 else s.prdt
          trace := s.trace ++ noticesOfMap (fun _ => 0) ++
            if d.kind = .ideController then rebindEvents s.prdt 0xC000#16 else [] } := by
  have zero : (Vector.ofFn fun i : Fin 16 => BitVec.setWidth 4 0#8) = Vector.replicate 16 0#4 := by
    apply Vector.ext; intro k hk; simp
  by_cases hk : d.kind = .ideController
  · obtain ⟨h0, hp⟩ := hb hk
    have bind := fun m tr => remap_binds (s := { s with pam := m, trace := tr }) (d := d) h s.prdt h0
      (by rw [hp]; decide)
    rw [replayMapAndRemap_ide _ (by rw [slot9IsIde_iff h, decide_eq_true hk]), bind, hp, if_pos hk, if_pos hk,
      zero]
    rfl
  · rw [replayMapAndRemap_other _ (by rw [slot9IsIde_iff h, decide_eq_false hk]), if_neg hk, if_neg hk, zero,
      List.append_nil]
    rfl

/-- The reset of a fixed slot lays the image over its fixed kind, and leaves any other device as it is
(70_reset_and_hazards.md R321). -/
theorem resetDevice_eq {s : State} {i : SlotIndex} {d : Device} (h : s.slot i = some d) (k : Kind)
    {n : Nat} (f : Nat → Byte) (hn : n ≤ 256) :
    resetDevice i k (imageOf n f) n s =
      .ok () (s.putDevice i ⟨d.kind, if d.kind = k then withImage (imageOf n f) d.cfg else d.cfg⟩) := by
  unfold resetDevice
  rw [h]
  dsimp only
  split
  · rw [copyDefault_populated h (by rw [imageOf_length]; omega), Nat.min_eq_left hn, cfgOverlay_imageOf]
  · rw [State.putDevice_self h]

/-- The default IDE image holds an I/O-space BAR4 of base 0xC000. -/
theorem imgIde_bar4 (sp : CfgSpace) (m : CfgSpace) (hm : m = withImage imgIde sp) :
    (bar4Of m).getLsbD 0 = true ∧ prdtBase (bar4Of m) = 0xC000#16 := by
  subst hm
  rw [bar4Of_bit0]
  have e0 : (withImage imgIde sp)[0x20] = 0x01#8 := by
    simp only [withImage, Vector.getElem_ofFn, imgIde, imageOf_length]; simp [imageOf]
  have e1 : (withImage imgIde sp)[0x21] = 0xC0#8 := by
    simp only [withImage, Vector.getElem_ofFn, imgIde, imageOf_length]; simp [imageOf]
  refine ⟨by rw [e0]; rfl, ?_⟩
  simp only [prdtBase, bar4Of_low, e0, e1]; rfl

/-- Populating a slot leaves the others. -/
theorem slot_putDevice_ne (s : State) (i j d) (h : i ≠ j) : (s.putDevice i d).slot j = s.slot j := by
  rw [State.slot_putDevice, if_neg (Ne.symm h)]

end Sys2Proof.Machine
end

