-- ==== Sys2Proof/Laws/PerInstr.lean ====
section
/-!
SUPPORT. The fixed bits of every row's descriptor (30_encoding.md R101, R102, R105): one lemma per
constructor of `Instr`.
-/

namespace Sys2Proof.Laws.TopByte

/-- Bits 63:56 of a row's descriptor: SPACE, DIR and SIZE (R102, R105). -/
def rowTopByte : Instr → Byte
  | .cfgAddrW8 _ _ => 0x19#8
  | .cfgAddrW16 _ _ => 0x1A#8
  | .cfgAddrW32 _ _ => 0x1C#8
  | .cfgAddrR8 _ => 0x11#8
  | .cfgAddrR16 _ => 0x12#8
  | .cfgAddrR32 _ => 0x14#8
  | .cfgDataW8 _ _ => 0x19#8
  | .cfgDataW16 _ _ => 0x1A#8
  | .cfgDataW32 _ _ => 0x1C#8
  | .cfgDataR8 _ => 0x11#8
  | .cfgDataR16 _ => 0x12#8
  | .cfgDataR32 _ => 0x14#8
  | .shadowR8 _ => 0x21#8
  | .shadowR16 _ => 0x22#8
  | .shadowR32 _ => 0x24#8
  | .shadowW8 _ _ => 0x29#8
  | .shadowW16 _ _ => 0x2A#8
  | .shadowW32 _ _ => 0x2C#8
  | .prdtR8 _ => 0x11#8
  | .prdtR16 _ => 0x12#8
  | .prdtR32 _ => 0x14#8
  | .prdtW8 _ _ => 0x19#8
  | .prdtW16 _ _ => 0x1A#8
  | .prdtW32 _ _ => 0x1C#8
  | .ctlCreateDevice _ _ _ _ => 0x30#8
  | .ctlGetConfigPtr _ _ _ => 0x30#8
  | .ctlCopyDefault _ _ _ => 0x30#8
  | .ctlReset => 0x30#8
  | .ctlSave => 0x30#8
  | .ctlRestore _ => 0x30#8
  | .ctlSetIrqLine _ _ => 0x30#8
  | .ctlInit => 0x30#8

/-- Bits 39:32 of a row's descriptor: the OP of a control row (R105), 0 elsewhere (R101). -/
def rowOp : Instr → Byte
  | .cfgAddrW8 _ _ => 0x00#8
  | .cfgAddrW16 _ _ => 0x00#8
  | .cfgAddrW32 _ _ => 0x00#8
  | .cfgAddrR8 _ => 0x00#8
  | .cfgAddrR16 _ => 0x00#8
  | .cfgAddrR32 _ => 0x00#8
  | .cfgDataW8 _ _ => 0x00#8
  | .cfgDataW16 _ _ => 0x00#8
  | .cfgDataW32 _ _ => 0x00#8
  | .cfgDataR8 _ => 0x00#8
  | .cfgDataR16 _ => 0x00#8
  | .cfgDataR32 _ => 0x00#8
  | .shadowR8 _ => 0x00#8
  | .shadowR16 _ => 0x00#8
  | .shadowR32 _ => 0x00#8
  | .shadowW8 _ _ => 0x00#8
  | .shadowW16 _ _ => 0x00#8
  | .shadowW32 _ _ => 0x00#8
  | .prdtR8 _ => 0x00#8
  | .prdtR16 _ => 0x00#8
  | .prdtR32 _ => 0x00#8
  | .prdtW8 _ _ => 0x00#8
  | .prdtW16 _ _ => 0x00#8
  | .prdtW32 _ _ => 0x00#8
  | .ctlCreateDevice _ _ _ _ => 0x01#8
  | .ctlGetConfigPtr _ _ _ => 0x02#8
  | .ctlCopyDefault _ _ _ => 0x03#8
  | .ctlReset => 0x04#8
  | .ctlSave => 0x05#8
  | .ctlRestore _ => 0x06#8
  | .ctlSetIrqLine _ _ => 0x07#8
  | .ctlInit => 0x08#8

/-- The encoding of a row holds its top byte and its OP, and its bits 55:40 are 0. -/
def Statement (i : Instr) : Prop :=
  (encode i).td.extractLsb' 56 8 = rowTopByte i ∧ tdOp (encode i).td = rowOp i ∧
    tdReserved (encode i).td = 0#16

/-- The fields of a descriptor that `tdOf` builds. -/
theorem tdOf_fields (top op : BitVec 8) (addr : Word) :
    (tdOf top op addr).extractLsb' 56 8 = top ∧ tdOp (tdOf top op addr) = op ∧
      tdReserved (tdOf top op addr) = 0#16 := by
  refine ⟨?_, tdOp_tdOf _ _ _, tdReserved_tdOf _ _ _⟩
  apply BitVec.eq_of_getLsbD_eq
  intro i hi
  simp only [BitVec.getLsbD_extractLsb', tdOf_getLsbD]
  have h1 : ¬ 56 + i < 32 := by omega
  have h2 : ¬ 56 + i < 40 := by omega
  have h3 : 56 + i < 64 := by omega
  simp [h1, h2, h3, hi]

theorem cfgAddrW8 (port : Port) (data : BitVec 8) : Statement (.cfgAddrW8 port data) := tdOf_fields _ _ _

theorem cfgAddrW16 (port : Port) (data : BitVec 16) : Statement (.cfgAddrW16 port data) := tdOf_fields _ _ _

theorem cfgAddrW32 (port : Port) (data : BitVec 32) : Statement (.cfgAddrW32 port data) := tdOf_fields _ _ _

theorem cfgAddrR8 (port : Port) : Statement (.cfgAddrR8 port) := tdOf_fields _ _ _

theorem cfgAddrR16 (port : Port) : Statement (.cfgAddrR16 port) := tdOf_fields _ _ _

theorem cfgAddrR32 (port : Port) : Statement (.cfgAddrR32 port) := tdOf_fields _ _ _

theorem cfgDataW8 (port : Port) (data : BitVec 8) : Statement (.cfgDataW8 port data) := tdOf_fields _ _ _

theorem cfgDataW16 (port : Port) (data : BitVec 16) : Statement (.cfgDataW16 port data) := tdOf_fields _ _ _

theorem cfgDataW32 (port : Port) (data : BitVec 32) : Statement (.cfgDataW32 port data) := tdOf_fields _ _ _

theorem cfgDataR8 (port : Port) : Statement (.cfgDataR8 port) := tdOf_fields _ _ _

theorem cfgDataR16 (port : Port) : Statement (.cfgDataR16 port) := tdOf_fields _ _ _

theorem cfgDataR32 (port : Port) : Statement (.cfgDataR32 port) := tdOf_fields _ _ _

theorem shadowR8 (addr : Addr) : Statement (.shadowR8 addr) := tdOf_fields _ _ _

theorem shadowR16 (addr : Addr) : Statement (.shadowR16 addr) := tdOf_fields _ _ _

theorem shadowR32 (addr : Addr) : Statement (.shadowR32 addr) := tdOf_fields _ _ _

theorem shadowW8 (addr : Addr) (data : BitVec 8) : Statement (.shadowW8 addr data) := tdOf_fields _ _ _

theorem shadowW16 (addr : Addr) (data : BitVec 16) : Statement (.shadowW16 addr data) := tdOf_fields _ _ _

theorem shadowW32 (addr : Addr) (data : BitVec 32) : Statement (.shadowW32 addr data) := tdOf_fields _ _ _

theorem prdtR8 (port : Port) : Statement (.prdtR8 port) := tdOf_fields _ _ _

theorem prdtR16 (port : Port) : Statement (.prdtR16 port) := tdOf_fields _ _ _

theorem prdtR32 (port : Port) : Statement (.prdtR32 port) := tdOf_fields _ _ _

theorem prdtW8 (port : Port) (data : BitVec 8) : Statement (.prdtW8 port data) := tdOf_fields _ _ _

theorem prdtW16 (port : Port) (data : BitVec 16) : Statement (.prdtW16 port data) := tdOf_fields _ _ _

theorem prdtW32 (port : Port) (data : BitVec 32) : Statement (.prdtW32 port data) := tdOf_fields _ _ _

theorem ctlCreateDevice (bus : Word) (device : Word) (function : Word) (kind : Kind) : Statement (.ctlCreateDevice bus device function kind) := tdOf_fields _ _ _

theorem ctlGetConfigPtr (bus : Word) (device : Word) (function : Word) : Statement (.ctlGetConfigPtr bus device function) := tdOf_fields _ _ _

theorem ctlCopyDefault (slot : SlotIndex) (image : List Byte) (size : Nat) : Statement (.ctlCopyDefault slot image size) := tdOf_fields _ _ _

theorem ctlReset : Statement (.ctlReset) := tdOf_fields _ _ _

theorem ctlSave : Statement (.ctlSave) := tdOf_fields _ _ _

theorem ctlRestore (record : Record) : Statement (.ctlRestore record) := tdOf_fields _ _ _

theorem ctlSetIrqLine (deviceIndex : Word) (level : Word) : Statement (.ctlSetIrqLine deviceIndex level) := tdOf_fields _ _ _

theorem ctlInit : Statement (.ctlInit) := tdOf_fields _ _ _

end Sys2Proof.Laws.TopByte
end

