-- ==== Sys2Proof/Tests/Slice0.lean ====
section
/-!
SUPPORT. The model's own tests: the WellFormed smoke, the descriptor of every row written out from
30_encoding.md R101-R105, small vectors from spec/95_test_vectors.md (their numbers stand in the names),
and, for every statement with hypotheses, states and operands that meet them.
-/

namespace Sys2Proof.Tests

-- The kernel evaluations below run one after another, so that none of them waits on a thread of its own.
set_option Elab.async false

open Sys2Proof.Machine

/-! ### WellFormed: one ill-formed term for each check -/

theorem test_wf_addr_port : WellFormed (.cfgAddrR8 0xCFC) = false ∧ WellFormed (.cfgAddrW32 0xCF7 0) = false := by
  decide
theorem test_wf_data_port : WellFormed (.cfgDataR8 0xCFB) = false ∧ WellFormed (.cfgDataW32 0xD00 0) = false := by
  decide
theorem test_wf_window : WellFormed (.shadowR8 0xBFFFF) = false ∧ WellFormed (.shadowW16 0x100000 0) = false := by
  decide
theorem test_wf_prdt_port : WellFormed (.prdtR8 0xCF8) = false ∧ WellFormed (.prdtW8 0xCFF 0) = false := by
  decide
theorem test_wf_edges : WellFormed (.cfgAddrR8 0xCFB) = true ∧ WellFormed (.cfgDataR8 0xCFF) = true ∧
    WellFormed (.shadowR32 0xFFFFF) = true ∧ WellFormed (.prdtR8 0xCF7) = true := by decide

/-! ### Decoding: the descriptor of every row, SPACE, DIR, SIZE, the 16 reserved bits, OP and ADDR in turn -/

theorem test_decode_cfgAddrW8 :
    decode none ⟨0b0001_1_001_0000000000000000_00000000_00000000000000000000110011111011, { wdata := 0x1FF }⟩ =
      .ok (.cfgAddrW8 0xCFB 0xFF) := by decide
theorem test_decode_cfgAddrW16 :
    decode none ⟨0x1A00000000000CFA, { wdata := 0x18000 }⟩ = .ok (.cfgAddrW16 0xCFA 0x8000) := by decide
theorem test_decode_cfgAddrW32 :
    decode none ⟨0x1C00000000000CF8, { wdata := 0x8000F803 }⟩ = .ok (.cfgAddrW32 0xCF8 0x8000F803) := by decide
theorem test_decode_cfgAddrR8 : decode none ⟨0x1100000000000CF9, {}⟩ = .ok (.cfgAddrR8 0xCF9) := by decide
theorem test_decode_cfgAddrR16 : decode none ⟨0x1200000000000CFA, {}⟩ = .ok (.cfgAddrR16 0xCFA) := by decide
theorem test_decode_cfgAddrR32 : decode none ⟨0x1400000000000CF8, {}⟩ = .ok (.cfgAddrR32 0xCF8) := by decide
theorem test_decode_cfgDataW8 :
    decode none ⟨0x1900000000000CFF, { wdata := 0x109 }⟩ = .ok (.cfgDataW8 0xCFF 0x09) := by decide
theorem test_decode_cfgDataW16 :
    decode none ⟨0b0001_1_010_0000000000000000_00000000_00000000000000000000110011111100, { wdata := 0xD001 }⟩ =
      .ok (.cfgDataW16 0xCFC 0xD001) := by decide
theorem test_decode_cfgDataW32 :
    decode none ⟨0x1C00000000000CFC, { wdata := 0x12345678 }⟩ = .ok (.cfgDataW32 0xCFC 0x12345678) := by decide
theorem test_decode_cfgDataR8 : decode none ⟨0x1100000000000CFC, {}⟩ = .ok (.cfgDataR8 0xCFC) := by decide
theorem test_decode_cfgDataR16 : decode none ⟨0x1200000000000CFE, {}⟩ = .ok (.cfgDataR16 0xCFE) := by decide
theorem test_decode_cfgDataR32 : decode none ⟨0x1400000000000CFC, {}⟩ = .ok (.cfgDataR32 0xCFC) := by decide
theorem test_decode_shadowR8 : decode none ⟨0x21000000000F0000, {}⟩ = .ok (.shadowR8 0xF0000) := by decide
theorem test_decode_shadowR16 : decode none ⟨0x22000000000C0000, {}⟩ = .ok (.shadowR16 0xC0000) := by decide
theorem test_decode_shadowR32 : decode none ⟨0x24000000000E0000, {}⟩ = .ok (.shadowR32 0xE0000) := by decide
theorem test_decode_shadowW8 :
    decode none ⟨0b0010_1_001_0000000000000000_00000000_00000000000011110000000000000000, { wdata := 0x15A }⟩ =
      .ok (.shadowW8 0xF0000 0x5A) := by decide
theorem test_decode_shadowW16 :
    decode none ⟨0x2A000000000C3FFF, { wdata := 0xBBAA }⟩ = .ok (.shadowW16 0xC3FFF 0xBBAA) := by decide
theorem test_decode_shadowW32 :
    decode none ⟨0x2C000000000C3FFE, { wdata := 0x44332211 }⟩ = .ok (.shadowW32 0xC3FFE 0x44332211) := by decide
theorem test_decode_prdtR8 :
    decode (some 0xC000#16) ⟨0b0001_0_001_0000000000000000_00000000_00000000000000001100000000000010, {}⟩ =
      .ok (.prdtR8 0xC002) := by decide
theorem test_decode_prdtR16 :
    decode (some 0xC000#16) ⟨0x120000000000C00F, {}⟩ = .ok (.prdtR16 0xC00F) := by decide
theorem test_decode_prdtR32 :
    decode (some 0xFFF0#16) ⟨0x140000000000FFFF, {}⟩ = .ok (.prdtR32 0xFFFF) := by decide
theorem test_decode_prdtW8 :
    decode (some 0xD000#16) ⟨0x190000000000D000, { wdata := 1 }⟩ = .ok (.prdtW8 0xD000 0x01) := by decide
theorem test_decode_prdtW16 :
    decode (some 0xC000#16) ⟨0x1A0000000000C008, { wdata := 0x1234 }⟩ = .ok (.prdtW16 0xC008 0x1234) := by decide
theorem test_decode_prdtW32 :
    decode (some 0xC000#16) ⟨0x1C0000000000C00E, { wdata := 0x12345678 }⟩ =
      .ok (.prdtW32 0xC00E 0x12345678) := by decide
theorem test_decode_ctlCreateDevice :
    decode none ⟨0x3000000100000000, { device := 31, function := 7, kind := .generic 4 }⟩ =
      .ok (.ctlCreateDevice 0 31 7 (.generic 4)) := by decide +kernel
theorem test_decode_ctlGetConfigPtr :
    decode none ⟨0x3000000200000000, { bus := 1, device := 5, function := 2 }⟩ =
      .ok (.ctlGetConfigPtr 1 5 2) := by decide +kernel
theorem test_decode_ctlCopyDefault :
    decode none ⟨0x3000000300000000, { slot := 9, image := [1, 2], size := 2 }⟩ =
      .ok (.ctlCopyDefault 9 [1, 2] 2) := by decide +kernel
theorem test_decode_ctlReset :
    decode none ⟨0b0011_0_000_0000000000000000_00000100_00000000000000000000000000000000, {}⟩ =
      .ok .ctlReset := by decide +kernel
theorem test_decode_ctlSave : decode none ⟨0x3000000500000000, {}⟩ = .ok .ctlSave := by decide +kernel
theorem test_decode_ctlRestore :
    decode none ⟨0x3000000600000000, {}⟩ = .ok (.ctlRestore Record.zero) :=
  decode_ctl (op := 6) (by decide) (by decide) (by decide) none {}
theorem test_decode_ctlSetIrqLine :
    decode none ⟨0x3000000700000000, { deviceIndex := 9, level := 1 }⟩ = .ok (.ctlSetIrqLine 9 1) := by
  decide +kernel
theorem test_decode_ctlInit : decode none ⟨0x3000000800000000, {}⟩ = .ok .ctlInit := by decide +kernel

/-- The host's table words: one row of each decode priority. -/
theorem test_table_words :
    decodeTableWord 64 0x1C00000000000CF8 = some (.cfgAddrW32 0xCF8 0) ∧
    decodeTableWord 64 0x1100000000000CFC = some (.cfgDataR8 0xCFC) ∧
    decodeTableWord 64 0x1900000000000000 = some (.prdtW8 0 0) ∧
    decodeTableWord 64 0x2C000000000C0000 = some (.shadowW32 0xC0000 0) ∧
    decodeTableWord 64 0x3000000700000000 = some (.ctlSetIrqLine 0 0) := by decide +kernel

/-! ### Small states -/

/-- The state an outcome gives, or the old one. -/
def stateAfter (s : State) : Host.Outcome State Fault Refusal → State
  | .next t => t
  | .fault _ => s
  | .refused _ => s

/-- The state after one request. -/
def after (i : Instr) (s : State) : State := stateAfter s (exec i s)

/-- A state with `CA` and the flag that goes with it. -/
def atCa (a : Word) (s : State) : State := { s with ca := a, cyc := a.getLsbD 31 }

/-- A power-on state with one device. -/
def only (i : SlotIndex) (k : Kind) (space : CfgSpace) : State := State.powerOn.putDevice i ⟨k, space⟩

/-- 256 zeros with one byte set. -/
def spaceWith (o : Offset) (v : Byte) : CfgSpace := cfgSet (Vector.replicate 256 0) o v

/-- An IDE space with the two low bytes of BAR4. -/
def ideSpace (b0 b1 : Byte) : CfgSpace := cfgSet (spaceWith 0x20 b0) 0x21 b1

/-- An IDE controller in slot 9 under the binding 0xC000, its BAR4 selected. -/
def ide (b0 b1 : Byte) : State :=
  { atCa 0x80000920 (only 9 .ideController (ideSpace b0 b1)) with prdt := some 0xC000 }

/-- A map with one entry. -/
def mapWith (k : Region) (p : Nibble) : Vector Nibble 16 := mapSet (Vector.replicate 16 0) k p

/-- Every meaning answers a next state. -/
theorem exec_after (i : Instr) (s : State) : exec i s = .next (after i s) := by
  have h : ∀ {α : Type} (f : α → Reply) (r : Res α), complete f r = .next (stateAfter s (complete f r)) := by
    intro α f r; cases r <;> rfl
  have hr : ∀ n p, forwardedRead n p s = .next (stateAfter s (forwardedRead n p s)) := by
    intro n p; unfold forwardedRead; split <;> [rfl; (split <;> rfl)]
  have hw : ∀ n p v, forwardedWrite n p v s = .next (stateAfter s (forwardedWrite n p v s)) := by
    intro n p v; unfold forwardedWrite; split <;> [rfl; (split <;> rfl)]
  cases i
  case ctlSave | shadowR8 | shadowR16 | shadowR32 | shadowW8 | shadowW16 | shadowW32 => rfl
  case prdtR8 | prdtR16 | prdtR32 => exact hr _ _
  case prdtW8 | prdtW16 | prdtW32 => exact hw _ _ _
  all_goals
    simp only [after, exec, execCfgAddrW8, execCfgAddrW16, execCfgAddrW32, execCfgAddrR8, execCfgAddrR16,
      execCfgAddrR32, execCfgDataW8, execCfgDataW16, execCfgDataW32, execCfgDataR8, execCfgDataR16,
      execCfgDataR32, writeRequest, readRequest, execCtlCreateDevice, execCtlGetConfigPtr,
      execCtlCopyDefault, execCtlReset, execCtlRestore, execCtlSetIrqLine, execCtlInit]
    exact h _ _

/-! ### Vectors of 95_test_vectors.md -/

theorem test_AR1_addr_w8 : (after (.cfgAddrW8 0xCFB 0xFF) State.reset).ca = 0x80000000 ∧
    (after (.cfgAddrW8 0xCFB 0xFF) State.reset).cyc = true ∧
    (after (.cfgAddrW8 0xCFB 0xFF) State.reset).log = [.reservedAddrBits] := by decide
theorem test_AR3_addr_w8_to_idle : (after (.cfgAddrW8 0xCFB 0) (atCa 0x80000000 State.reset)).ca = 0 ∧
    (after (.cfgAddrW8 0xCFB 0) (atCa 0x80000000 State.reset)).cyc = false := by decide
theorem test_AR5_addr_w16 : (after (.cfgAddrW16 0xCFA 0x8000) State.reset).ca = 0x80000000 ∧
    (after (.cfgAddrW16 0xCFA 0x8000) State.reset).cyc = true := by decide
/-- AR13's form at the IDE offset 0x20 (R183): the byte at 0xCFC is gated by the `CYC` that the byte at 0xCFB
has just set. -/
theorem test_R141_w16_overrun :
    (after (.cfgAddrW16 0xCFB 0xF080) { ide 0x01 0xC0 with ca := 0x00000920, cyc := false }).cfgAt 9 0x20 =
      some 0xF1 := by decide +kernel
theorem test_AR6_addr_w32 : (after (.cfgAddrW32 0xCF8 0xFFFFFFFF) State.reset).ca = 0x80FFFFFC ∧
    (after (.cfgAddrW32 0xCF8 0xFFFFFFFF) State.reset).log = [.reservedAddrBits, .reservedAddrBits] := by decide
theorem test_AR7_addr_w32 : (after (.cfgAddrW32 0xCF8 0x8000F803) State.reset).ca = 0x8000F800 := by decide
theorem test_AR8_addr_r8 : (after (.cfgAddrR8 0xCF9) (atCa 0x80001230 State.reset)).reply = .data 0x12 := by
  decide
theorem test_AR9_addr_r16 : (after (.cfgAddrR16 0xCFA) (atCa 0x80001230 State.reset)).reply = .data 0x8000 := by
  decide
theorem test_AR10_addr_r32 :
    (after (.cfgAddrR32 0xCF8) (atCa 0x8000F800 State.reset)).reply = .data 0x8000F800 := by decide
theorem test_AR11_addr_r32_restored :
    (after (.cfgAddrR32 0xCF8) { State.reset with ca := 0x7FFFFFFF }).reply = .data 0x7FFFFFFF := by decide

theorem test_DW1_idle_write : (after (.cfgDataW8 0xCFC 0x12) State.reset).log = [.dataWhileIdle] := by
  decide +kernel
theorem test_DW9_w1c :
    (after (.cfgDataW8 0xCFF 0x09) (atCa 0x80000004 (only 0 .hostBridge (spaceWith 7 0xFF)))).cfgAt 0 7 =
      some 0xF6 := by decide +kernel
theorem test_DW12_w16_overrun :
    (after (.cfgDataW16 0xCFF 0x0009) (atCa 0x80000004 (only 0 .hostBridge (spaceWith 7 0xFF)))).cfgAt 0 7 =
      some 0xF6 ∧
    (after (.cfgDataW16 0xCFF 0x0009) (atCa 0x80000004 (only 0 .hostBridge (spaceWith 7 0xFF)))).fault =
      some (.unrecognizedPort 0xD00) := by decide +kernel
theorem test_DW16_w16_keeps_binding :
    (after (.cfgDataW16 0xCFC 0xD001) (ide 0x01 0xC0)).prdt = some 0xC000 ∧
    (after (.cfgDataW16 0xCFC 0xD001) (ide 0x01 0xC0)).cfgAt 9 0x21 = some 0xD0 := by decide +kernel
theorem test_DW18_w32_remaps : (after (.cfgDataW32 0xCFC 0x0000D001) (ide 0x01 0xC0)).prdt = some 0xD000 ∧
    (after (.cfgDataW32 0xCFC 0x0000D001) (ide 0x01 0xC0)).trace = [.unbind 0xC000, .bind 0xD000] := by
  decide +kernel
theorem test_DW21_w32_overlap :
    (after (.cfgDataW32 0xCFC 0x00000CF1) (ide 0x01 0xC0)).refusal = some .prdtOverlapsConfigPorts ∧
    (after (.cfgDataW32 0xCFC 0x00000CF1) (ide 0x01 0xC0)).cfgAt 9 0x20 = some 0xF1 := by decide +kernel
theorem test_DW5_r8_empty_slot : (after (.cfgDataR8 0xCFC) (atCa 0x80002800 State.reset)).reply = .data 0xFF := by
  decide +kernel
theorem test_R150_r16_idle : (after (.cfgDataR16 0xCFE) State.reset).reply = .data 0xFFFF := by decide +kernel
theorem test_DW14_r32 : (after (.cfgDataR32 0xCFC) (atCa 0x80000920 State.reset)).reply = .data 0x0000C001 := by
  decide +kernel
theorem test_DW15_r32_overrun :
    (after (.cfgDataR32 0xCFE) (atCa 0x80000920 State.reset)).fault = some (.unrecognizedPort 0xD00) := by
  decide +kernel

theorem test_SH1_bios_pam :
    (after (.cfgDataW8 0xCFD 0xA0) (atCa 0x80000058 (only 0 .hostBridge (spaceWith 0 0)))).pam =
      #v[0, 0, 0, 0, 0, 0, 0, 0, 0, 0, 0, 0, 0xA, 0xA, 0xA, 0xA] := by decide +kernel
theorem test_SH5_pair_pam :
    (after (.cfgDataW32 0xCFC 0x44332211) (atCa 0x8000005C (only 0 .hostBridge (spaceWith 0 0)))).pam =
      #v[0, 0, 0, 0, 1, 1, 2, 2, 3, 3, 4, 4, 0, 0, 0, 0] := by decide +kernel
theorem test_SH7_r8 :
    (after (.shadowR8 0xF0000) { State.powerOn with win := [(0xF0000, 0x11)] }).reply = .data 0x11 := by decide
theorem test_SH8_r16 :
    (after (.shadowR16 0xC0000) { State.powerOn with win := [(0xC0000, 0x55), (0xC0001, 0xAA)] }).reply =
      .data 0xAA55 := by decide
theorem test_SH9_r32 :
    (after (.shadowR32 0xE0000)
      { State.powerOn with
        win := [(0xE0000, 0x78), (0xE0001, 0x56), (0xE0002, 0x34), (0xE0003, 0x12)] }).reply =
      .data 0x12345678 := by decide
theorem test_SH11_w8_dropped :
    (after (.shadowW8 0xF0000 0x5A) { State.powerOn with pam := mapWith 12 0xC }).win = [] := by decide
theorem test_SH12_w8 :
    (after (.shadowW8 0xF0000 0x5A) { State.powerOn with pam := mapWith 12 0x2 }).win.read 0xF0000 = 0x5A :=
  Memory.read_write_same _ _ _
theorem test_SH13_w16_straddles :
    (after (.shadowW16 0xC3FFF 0xBBAA) { State.powerOn with pam := mapWith 1 3 }).win =
      Memory.write [] 0xC4000 0xBB := rfl
theorem test_SH15_w32_dropped : (after (.shadowW32 0xE0000 0x12345678) State.powerOn).log =
    [.shadowWriteProtected, .shadowWriteProtected, .shadowWriteProtected, .shadowWriteProtected] := by decide

theorem test_PW1_r8 : (after (.prdtR8 0xC002) { State.powerOn with prdt := some 0xC000 }).reply =
    .data (lowBytes 1 (Config.forwardRead 0 2 1)) := rfl
theorem test_R246_r16 : (after (.prdtR16 0xC00F) { State.powerOn with prdt := some 0xC000 }).reply =
    .data (lowBytes 2 (Config.forwardRead 0 15 2)) := rfl
theorem test_R246_r32 : (after (.prdtR32 0xC000) { State.powerOn with prdt := some 0xC000 }).reply =
    .data (lowBytes 4 (Config.forwardRead 0 0 4)) := rfl
theorem test_PW2_w8 : (after (.prdtW8 0xD000 0x01) { State.powerOn with prdt := some 0xD000 }).trace =
    [.forwardWrite 0 1 0x01] := by decide
theorem test_R247_w16 : (after (.prdtW16 0xC003 0xABCD) { State.powerOn with prdt := some 0xC000 }).trace =
    [.forwardWrite 3 2 0xABCD] := by decide
theorem test_PW4_w32 : (after (.prdtW32 0xC00E 0x12345678) { State.powerOn with prdt := some 0xC000 }).trace =
    [.forwardWrite 14 4 0x12345678] := by decide

theorem test_HO1_create : (after (.ctlCreateDevice 0 31 7 (.generic 3)) State.reset).reply = .slot 255 ∧
    (after (.ctlCreateDevice 0 31 7 (.generic 3)) State.reset).kindAt 255 = some (.generic 3) ∧
    (after (.ctlCreateDevice 0 31 7 (.generic 3)) State.reset).cfgAt 255 0xFF = some 0 := by decide +kernel
theorem test_HO4_create_topology :
    (after (.ctlCreateDevice 1 40 9 .isaBridge) State.reset).fault = some (.badTopology 1 40 9) := by
  decide +kernel
theorem test_HO5_getptr_empty : (after (.ctlGetConfigPtr 0 5 0) State.reset).reply = .configView none := by
  decide +kernel
theorem test_HO7_getptr_topology :
    (after (.ctlGetConfigPtr 0 0 8) State.reset).fault = some (.badTopology 0 0 8) := by decide +kernel
theorem test_HO9_copydef_short :
    (after (.ctlCopyDefault 9 (List.replicate 100 0) 300) State.reset).refusal = some .shortImage := by
  decide +kernel
theorem test_R264_copydef :
    (after (.ctlCopyDefault 9 [0x11, 0x22] 2) State.reset).cfgAt 9 1 = some 0x22 ∧
    (after (.ctlCopyDefault 9 [0x11, 0x22] 2) State.reset).cfgAt 9 0x21 = some 0xC0 := by decide +kernel
theorem test_R265_reset_rebinds :
    (after .ctlReset { ide 0x01 0xD0 with slots := State.reset.slots, prdt := some 0xD000 }).prdt =
      some 0xC000 := by decide +kernel
/-- R321: a generic slot is left unchanged, whatever its place. -/
theorem test_R321_reset_leaves_generic_slots :
    (after .ctlReset (State.reset.putDevice 8 ⟨.generic 1, spaceWith 7 0x5A⟩)).cfgAt 8 7 = some 0x5A ∧
    (after .ctlReset (State.reset.putDevice 8 ⟨.generic 1, spaceWith 7 0x5A⟩)).reply = .done := by decide +kernel
theorem test_R268_save (s : State) : (after .ctlSave s).reply = .saved (saveRecord s) := rfl
theorem test_R268_save_pam : (saveRecord { State.powerOn with pam := mapWith 12 3 }).pam =
    (Vector.replicate 16 0).set 12 3 := by decide +kernel
theorem test_R269_restore_keeps_low_nibble :
    (after (.ctlRestore { Record.zero with pam := (Vector.replicate 16 0).set 3 0xF2 }) State.powerOn).pam =
      mapWith 3 2 := by
  have h : slotsMatch { Record.zero with pam := (Vector.replicate 16 0).set 3 0xF2 } State.powerOn := by
    intro i; simp [Record.zero, State.powerOn]
  simp only [after, exec, execCtlRestore, restoreBlock, if_pos h]
  decide +kernel
theorem test_IQ5_irq_out_of_range :
    (after (.ctlSetIrqLine 256 1) State.reset).fault = some (.irqUnregisteredDevice 256) := by decide +kernel
theorem test_IQ6_irq_level_first : (after (.ctlSetIrqLine 40 2) State.reset).refusal = some .badIrqLevel := by
  decide +kernel
theorem test_R266_init : (after .ctlInit State.powerOn).prdt = some 0xC000 ∧
    (after .ctlInit State.powerOn).kindAt 9 = some .ideController := by decide +kernel

/-! ### The step and the host's first instruction -/

theorem test_step_first_instruction :
    (stateAfter State.reset (step (State.reset.withFetchWord 64 0x1400000000000CF8))).reply = .data 0 ∧
    (stateAfter State.reset (step (State.reset.withFetchWord 64 0x1900000000000000))).trace =
      [.forwardWrite 0 1 0] := by decide +kernel
theorem test_step_idle : (stateAfter State.reset (step State.powerOn)) = State.powerOn := rfl
theorem test_step_faulted : step { State.powerOn with fault := some .ideBarMemorySpace } =
    .fault (.halted .ideBarMemorySpace) := rfl

/-! ### The hypotheses of the statements are met

One theorem for each statement of Certificates/Slice0/Obligations.lean that has hypotheses: its name follows
`test_meets_`, and its conjuncts are the hypotheses of each clause, at a boundary where there is one. -/

/-- A read of the whole address register. -/
def readCa : Request := ⟨0x1400000000000CF8, {}⟩

/-- The host bridge in slot 0, register `r` selected. -/
def bridge (r : BitVec 6) : State :=
  atCa (0x80000000#32 ||| (r.setWidth 32 <<< 2)) (only 0 .hostBridge (spaceWith 7 0xFF))

/-- A device of a kind in slot 8, register `r` selected. -/
def inSlot8 (k : Kind) (r : BitVec 6) : State :=
  atCa (0x80000800#32 ||| (r.setWidth 32 <<< 2)) (only 8 k (spaceWith 7 0xFF))

theorem slot_only (i : SlotIndex) (k : Kind) (space : CfgSpace) : (only i k space).slot i = some ⟨k, space⟩ :=
  State.slot_putDevice_same _ _ _

theorem bridge_selects (r : BitVec 6) : (bridge r).Selects 0 ⟨.hostBridge, spaceWith 7 0xFF⟩ r := by
  refine ⟨?_, ?_, ?_, ?_, slot_only _ _ _⟩ <;> revert r <;> decide

theorem inSlot8_selects (k : Kind) (r : BitVec 6) : (inSlot8 k r).Selects 8 ⟨k, spaceWith 7 0xFF⟩ r := by
  refine ⟨?_, ?_, ?_, ?_, slot_only _ _ _⟩ <;> revert r <;> simp only [inSlot8, atCa] <;> decide

theorem ide_selects (b0 b1 : Byte) : (ide b0 b1).Selects 9 ⟨.ideController, ideSpace b0 b1⟩ 8 :=
  ⟨rfl, (by decide : caBus 0x80000920 = 0), (by decide : caDevfn 0x80000920 = 9),
    (by decide : caReg 0x80000920 = 8), slot_only _ _ _⟩

theorem slots_match (s : State) (i : Fin 256) :
    ((saveRecord s).dev[i.val]).isSome = (s.slots[i.val]).isSome := by
  simp [saveRecord]

theorem test_meets_StepRunsTheDecodedRequest :
    let s := { State.powerOn with pending := [readCa] }
    s.Running ∧ s.pending = readCa :: [] ∧ decode s.prdt readCa = .ok (.cfgAddrR32 0xCF8) := by
  exact ⟨by decide, rfl, by decide⟩

theorem test_meets_StepOnUndecodedRequest :
    State.powerOn.Running ∧ decode none ⟨0x3000000900000000, {}⟩ = .error .badDescriptor ∧
      decode none ⟨0x1300000000000CF8, {}⟩ = .error .badSize ∧
      decode none ⟨0x1100000000000080, {}⟩ = .error .notThisBlock := by decide

theorem test_meets_StoppedBlockTakesNoStep :
    { State.powerOn with fault := some .ideBarMemorySpace }.fault = some .ideBarMemorySpace ∧
      { State.powerOn with refusal := some .badSize }.fault = none ∧
      { State.powerOn with refusal := some .badSize }.refusal = some .badSize := by decide

theorem test_meets_DecodeOfEncode : WellFormed (.prdtW8 0xC00F 0xFF) = true ∧
    Claimed (some 0xC000) (.prdtW8 0xC00F 0xFF) = true ∧ WellFormed (.shadowR8 0xFFFFF) = true ∧
    Claimed none (.shadowR8 0xFFFFF) = true := by decide

theorem test_meets_EncodeOfDecode : decode none readCa = .ok (.cfgAddrR32 0xCF8) := by decide

theorem test_meets_RejectedDescriptors :
    (tdReserved 0x1100010000000CF8 ≠ 0 ∧ tdSpace 0x4100000000000CF8 ∉ [1#4, 2#4, 3#4]) ∧
    (tdReserved 0x1000000000000CF8 = 0 ∧ tdSpace 0x1000000000000CF8 ∈ [1#4, 2#4] ∧
      tdSize 0x1000000000000CF8 ∉ [1#3, 2#3, 4#3]) ∧
    (tdReserved 0x3000000900000000 = 0 ∧ tdSpace 0x3000000900000000 = 3#4 ∧
      8 < (tdOp 0x3000000900000000).toNat ∧ tdOp 0x3000000000000000 = 0 ∧
      tdDir 0x3800000100000000 = true ∧ tdSize 0x3100000100000000 ≠ 0 ∧ tdAddr 0x3000000100000001 ≠ 0) ∧
    (tdReserved 0x1100000000010000 = 0 ∧ tdSpace 0x1100000000010000 = 1#4 ∧
      tdSize 0x1100000000010000 ∈ [1#3, 2#3, 4#3] ∧ 0xFFFF < (tdAddr 0x1100000000010000).toNat) ∧
    (isAddrPort 0xC010 = false ∧ isDataPort 0xC010 = false ∧
      (0xC010#16).toNat > (0xC000#16).toNat + 15 ∧ (0xBFFF#16).toNat < (0xC000#16).toNat) ∧
    ((0xBFFFF#32).toNat < 0xC0000 ∧ 0xFFFFF < (0x100000#32).toNat) := by decide

theorem test_meets_AddressByteWrite : isAddrPort 0xCF8 = true ∧ isAddrPort 0xCFB = true := by decide

theorem test_meets_AddressWordWrite : isAddrPort 0xCFA = true ∧ (0xCFA#16) ≠ 0xCFB := by decide

theorem test_meets_AddressByteRead : isAddrPort 0xCF8 = true ∧ isAddrPort 0xCFB = true := by decide

theorem test_meets_AddressWideRead : isAddrPort 0xCFA = true ∧ (0xCFA#16) ≠ 0xCFB := by decide

/-- The four byte reads from 0xCFA of an idle block: two lanes of `CA`, then all-ones. -/
theorem test_meets_WideReadsJoinByteReads :
    (isAddrPort 0xCFA || isDataPort 0xCFA) = true ∧
    ∀ k : Fin 4, exec (byteReadRow (0xCFA#16 + BitVec.ofNat 16 k.val)) State.powerOn =
      .next { State.powerOn with reply := .data ((#v[0#8, 0, 0xFF, 0xFF][k.val]).setWidth 32) } := by
  refine ⟨by decide, fun k => ?_⟩
  match k with
  | 0 => rfl
  | 1 => rfl
  | 2 => rfl
  | 3 => rfl

theorem test_meets_AddressReadBack :
    exec (.cfgAddrW32 0xCF8 0x8000F803) State.powerOn =
      .next (after (.cfgAddrW32 0xCF8 0x8000F803) State.powerOn) := exec_after _ _

theorem test_meets_WideWritesAreByteWritesInTurn :
    (isAddrPort 0xCFB || isDataPort 0xCFB) = true ∧ (isAddrPort 0xCFF || isDataPort 0xCFF) = true := by decide

theorem test_meets_DataReads :
    State.powerOn.NoDevice ∧ (atCa 0x80010000 State.reset).NoDevice ∧
      (atCa 0x8000FF00 State.powerOn).NoDevice ∧
      (bridge 0x3F).Selects 0 ⟨.hostBridge, spaceWith 7 0xFF⟩ 0x3F ∧ isDataPort 0xCFC = true ∧
      isDataPort 0xCFF = true ∧ (0xCFE#16) ≠ 0xCFF :=
  ⟨.inl rfl, .inr (.inl (by decide)), .inr (.inr (by decide +kernel)), bridge_selects _, by decide, by decide, by decide⟩

theorem test_meets_DataWriteWithoutDevice :
    State.powerOn.NoDevice ∧ isDataPort 0xCFC = true ∧ isDataPort 0xCFE = true ∧ (0xCFE#16) ≠ 0xCFF :=
  ⟨.inl rfl, by decide, by decide, by decide⟩

/-- The byte writes before the overrun: one from 0xCFF, three from 0xCFD. -/
theorem test_meets_DataOverrunIsFatal :
    exec (.cfgDataW8 0xCFF ((0x0009#16).extractLsb' 0 8)) (bridge 1) =
      .next (after (.cfgDataW8 0xCFF ((0x0009#16).extractLsb' 0 8)) (bridge 1)) ∧
    (after (.cfgDataW8 0xCFF ((0x0009#16).extractLsb' 0 8)) (bridge 1)).reply = .done ∧
    ∀ p ∈ [0xCFD#16, 0xCFF#16],
      ∃ u, execInTurn ((List.range (0xD00 - p.toNat)).map fun k =>
        .cfgDataW8 (p + BitVec.ofNat 16 k) ((0x11223344#32).extractLsb' (8 * k) 8)) State.powerOn = .next u ∧
        u.reply = .done := by
  refine ⟨exec_after _ _, by decide +kernel, ?_⟩
  simp only [List.mem_cons, List.not_mem_nil, or_false]
  rintro p (rfl | rfl)
  · exact ⟨_, rfl, rfl⟩
  · exact ⟨_, rfl, rfl⟩

theorem test_meets_HostBridgeCommandWrite :
    (bridge 1).Selects 0 ⟨.hostBridge, spaceWith 7 0xFF⟩ 1 := bridge_selects _

theorem test_meets_HostBridgeStatusWriteClears :
    (bridge 1).Selects 0 ⟨.hostBridge, spaceWith 7 0xFF⟩ 1 := bridge_selects _

theorem test_meets_BiosPamWrite :
    (bridge 0x16).Selects 0 ⟨.hostBridge, spaceWith 7 0xFF⟩ 0x16 := bridge_selects _

/-- Offsets 0x5A and 0x5F, the ends of the range. -/
theorem test_meets_PairPamWrite :
    (isDataPort 0xCFE = true ∧ 4 * (0x16#6).toNat + ((0xCFE#16).toNat - 0xCFC) = 0x5A + 0 ∧
      (bridge 0x16).Selects 0 ⟨.hostBridge, spaceWith 7 0xFF⟩ 0x16) ∧
    (isDataPort 0xCFF = true ∧ 4 * (0x17#6).toNat + ((0xCFF#16).toNat - 0xCFC) = 0x5A + 5 ∧
      (bridge 0x17).Selects 0 ⟨.hostBridge, spaceWith 7 0xFF⟩ 0x17) :=
  ⟨⟨by decide, by decide, bridge_selects _⟩, by decide, by decide, bridge_selects _⟩

theorem test_meets_IsaAndIdeCommandAndStatusWrite :
    (inSlot8 .isaBridge 1).Selects 8 ⟨.isaBridge, spaceWith 7 0xFF⟩ 1 ∧
    (inSlot8 .ideController 1).Selects 8 ⟨.ideController, spaceWith 7 0xFF⟩ 1 :=
  ⟨inSlot8_selects _ _, inSlot8_selects _ _⟩

theorem test_meets_IdeBarLowBytesWrite :
    (ide 0x01 0xC0).Selects 9 ⟨.ideController, ideSpace 0x01 0xC0⟩ 8 := ide_selects _ _

/-- The three ends of a write at 0x23: same base, overlap, new base; the last once more with bit 0 of BAR4
clear (R295; 90_conflicts.md C12). -/
theorem test_meets_IdeBarTopByteWrite :
    (ide 0x01 0xC0).Selects 9 ⟨.ideController, ideSpace 0x01 0xC0⟩ 8 ∧
    (after (.cfgDataW8 0xCFF 0x77) (ide 0x01 0xC0)).trace = [] ∧
    (after (.cfgDataW8 0xCFF 0x77) (ide 0xF1 0x0C)).refusal = some .prdtOverlapsConfigPorts ∧
    (after (.cfgDataW8 0xCFF 0x77) (ide 0x01 0xD0)).prdt = some 0xD000 ∧
    (after (.cfgDataW8 0xCFF 0x77) (ide 0x00 0xD0)).fault = none ∧
    (after (.cfgDataW8 0xCFF 0x77) (ide 0x00 0xD0)).prdt = some 0xD000 :=
  ⟨ide_selects _ _, by decide +kernel, by decide +kernel, by decide +kernel, by decide +kernel, by decide +kernel⟩

/-- An IDE controller in slot 8: slot 9 populated, with a base that is not bound yet; slot 9 empty. -/
theorem test_meets_IdeBarTopByteWriteOutsideSlotNine :
    (8#8) ≠ 9#8 ∧
    ((inSlot8 .ideController 8).putDevice 9 ⟨.ideController, ideSpace 0x01 0xD0⟩).Selects 8
      ⟨.ideController, spaceWith 7 0xFF⟩ 8 ∧
    ((inSlot8 .ideController 8).putDevice 9 ⟨.ideController, ideSpace 0x01 0xD0⟩).slot 9 =
      some ⟨.ideController, ideSpace 0x01 0xD0⟩ ∧
    (after (.cfgDataW8 0xCFF 0x77)
      ((inSlot8 .ideController 8).putDevice 9 ⟨.ideController, ideSpace 0x01 0xD0⟩)).prdt = some 0xD000 ∧
    (inSlot8 .ideController 8).Selects 8 ⟨.ideController, spaceWith 7 0xFF⟩ 8 ∧
    (inSlot8 .ideController 8).slot 9 = none := by
  have h := inSlot8_selects .ideController 8
  exact ⟨by decide,
    ⟨h.1, h.2.1, h.2.2.1, h.2.2.2.1, by rw [State.slot_putDevice, if_neg (by decide)]; exact h.2.2.2.2⟩,
    State.slot_putDevice_same _ _ _, by decide +kernel, h, by decide +kernel⟩

theorem test_meets_IdeBarDwordWrite :
    (ide 0x01 0xC0).Selects 9 ⟨.ideController, ideSpace 0x01 0xC0⟩ 8 := ide_selects _ _

theorem test_meets_IdeBarLowHalfWriteKeepsBinding :
    (ide 0x01 0xC0).Selects 9 ⟨.ideController, ideSpace 0x01 0xC0⟩ 8 := ide_selects _ _

/-- The offsets 0x58 and 0x60 beside the PAM registers, 0xFF of the ISA bridge, 0x24 of the IDE controller. -/
theorem test_meets_OpenTableWrite :
    ((bridge 0x16).Selects 0 ⟨.hostBridge, spaceWith 7 0xFF⟩ 0x16 ∧
      (0x58#8).toNat = 4 * (0x16#6).toNat + ((0xCFC#16).toNat - 0xCFC) ∧
      (0x58#8) ∉ [0x04#8, 0x07#8, 0x59#8, 0x5A#8, 0x5B#8, 0x5C#8, 0x5D#8, 0x5E#8, 0x5F#8] ∧
      (0x60#8) ∉ [0x04#8, 0x07#8, 0x59#8, 0x5A#8, 0x5B#8, 0x5C#8, 0x5D#8, 0x5E#8, 0x5F#8]) ∧
    ((inSlot8 .isaBridge 0x3F).Selects 8 ⟨.isaBridge, spaceWith 7 0xFF⟩ 0x3F ∧
      (0xFF#8).toNat = 4 * (0x3F#6).toNat + ((0xCFF#16).toNat - 0xCFC) ∧ (0xFF#8) ∉ [0x04#8, 0x07#8]) ∧
    ((inSlot8 .ideController 9).Selects 8 ⟨.ideController, spaceWith 7 0xFF⟩ 9 ∧
      (0x24#8).toNat = 4 * (9#6).toNat + ((0xCFC#16).toNat - 0xCFC) ∧
      (0x24#8) ∉ [0x04#8, 0x20#8, 0x21#8, 0x22#8, 0x23#8]) :=
  ⟨⟨bridge_selects _, by decide, by decide, by decide⟩, ⟨inSlot8_selects _ _, by decide, by decide⟩,
    inSlot8_selects _ _, by decide, by decide⟩

theorem test_meets_GenericDeviceWrite :
    (inSlot8 (.generic 3) 0).Selects 8 ⟨.generic 3, spaceWith 7 0xFF⟩ 0 ∧ isDataPort 0xCFF = true ∧
      (3#8).toNat = 4 * (0#6).toNat + ((0xCFF#16).toNat - 0xCFC) := ⟨inSlot8_selects _ _, by decide, by decide⟩

theorem test_meets_ShadowReads :
    0xC0000 ≤ (0xC0000#32).toNat ∧ (0xFFFFF#32).toNat ≤ 0xFFFFF ∧ (0xFFFFE#32).toNat + 1 ≤ 0xFFFFF ∧
      (0xFFFFC#32).toNat + 3 ≤ 0xFFFFF := by decide

theorem test_meets_ShadowReadsAtWindowEnd :
    (0xFFFFF#32).toNat = 0xFFFFF ∧ 0xFFFFD ≤ (0xFFFFD#32).toNat ∧ (0xFFFFD#32).toNat ≤ 0xFFFFF := by decide

/-- A write across two regions of which the second alone allows writes. -/
theorem test_meets_ShadowWritesAreGatedPerByte :
    0xC0000 ≤ (0xC3FFF#32).toNat ∧ (0xC3FFF#32).toNat ≤ 0xFFFFF ∧
      { State.powerOn with pam := mapWith 1 3 }.writeAllowed 0xC3FFF = false ∧
      { State.powerOn with pam := mapWith 1 3 }.writeAllowed 0xC4000 = true := by decide

theorem test_meets_OnlyTheWriteBitIsEnforced :
    (∀ k : Fin 16, (mapWith 12 0xE)[k.val].getLsbD 1 =
      { State.powerOn with pam := mapWith 12 3 }.pam[k.val].getLsbD 1) ∧
    exec (.shadowR8 0xF0000) State.powerOn = .next (after (.shadowR8 0xF0000) State.powerOn) ∧
    exec (.shadowW8 0xF0000 1) { State.powerOn with pam := mapWith 12 3 } =
      .next (after (.shadowW8 0xF0000 1) { State.powerOn with pam := mapWith 12 3 }) :=
  ⟨by decide, exec_after _ _, exec_after _ _⟩

theorem test_meets_PrdtReadsAreForwarded :
    State.reset.prdt = some 0xC000 ∧ (0xC000#16).toNat ≤ (0xC00F#16).toNat ∧
      (0xC00F#16).toNat ≤ (0xC000#16).toNat + 15 := ⟨rfl, by decide, by decide⟩

theorem test_meets_PrdtWritesAreForwarded :
    State.reset.prdt = some 0xC000 ∧ (0xC000#16).toNat ≤ (0xC000#16).toNat ∧
      (0xC000#16).toNat ≤ (0xC000#16).toNat + 15 := ⟨rfl, by decide, by decide⟩

theorem test_meets_CreateDevice :
    (31#32).toNat ≤ 31 ∧ (7#32).toNat ≤ 7 ∧ (1#32) ≠ 0 ∧ 31 < (32#32).toNat ∧ 7 < (8#32).toNat := by decide

theorem test_meets_GetConfigPointer :
    (31#32).toNat ≤ 31 ∧ (7#32).toNat ≤ 7 ∧ (1#32) ≠ 0 ∧ 31 < (32#32).toNat ∧ 7 < (8#32).toNat := by decide

theorem test_meets_CopyDefaultImage :
    State.powerOn.slot 40 = none ∧
    (bridge 0).slot 0 = some ⟨.hostBridge, spaceWith 7 0xFF⟩ ∧
    ([] : List Byte).length < min 1 256 ∧ min 300 256 ≤ (List.replicate 256 (0#8)).length :=
  ⟨by decide +kernel, slot_only _ _ _, by decide, by decide +kernel⟩

/-- The assembled machine, and one whose slot 8 a host has given to a generic device. -/
theorem test_meets_BlockReset :
    State.reset.slot 0 = some ⟨.hostBridge, cfgOfImage imgHb⟩ ∧
    State.reset.slot 8 = some ⟨.isaBridge, cfgOfImage imgIsa⟩ ∧
    State.reset.slot 9 = some ⟨.ideController, cfgOfImage imgIde⟩ ∧
    (State.reset.putDevice 8 ⟨.generic 1, spaceWith 7 0xFF⟩).slot 8 = some ⟨.generic 1, spaceWith 7 0xFF⟩ := by
  refine ⟨?_, ?_, ?_, State.slot_putDevice_same _ _ _⟩ <;> simp [State.slot, State.reset]

theorem test_meets_ResetBeforeAssemblyIsRefused : State.powerOn.slot 0 = none := by decide +kernel

theorem test_meets_ResetIsIdempotent :
    State.reset.kindAt 0 = some .hostBridge ∧ State.reset.kindAt 8 = some .isaBridge ∧
      State.reset.kindAt 9 = some .ideController ∧
      exec .ctlReset State.reset = .next (after .ctlReset State.reset) :=
  ⟨by decide +kernel, by decide +kernel, by decide +kernel, exec_after _ _⟩

/-- No IDE controller; then the three ends of the rebinding. -/
theorem test_meets_RestoreReloadsTheRecord :
    (∀ (s : State) (i : Fin 256), ((saveRecord s).dev[i.val]).isSome = (s.slots[i.val]).isSome) ∧
    State.powerOn.kindAt 9 ≠ some .ideController ∧
    (∀ b0 b1, (ide b0 b1).kindAt 9 = some .ideController ∧
      (saveRecord (ide b0 b1)).dev[9] = some (ideSpace b0 b1)) ∧
    ((ideSpace 0x01 0xC0)[0x20].getLsbD 0 = true ∧ prdtBase (bar4Of (ideSpace 0x01 0xC0)) ≠ 0xCF0) ∧
    ((ideSpace 0xF1 0x0C)[0x20].getLsbD 0 = true ∧ prdtBase (bar4Of (ideSpace 0xF1 0x0C)) = 0xCF0) ∧
    (ideSpace 0x00 0xC0)[0x20].getLsbD 0 = false := by
  refine ⟨slots_match, by decide +kernel, fun b0 b1 => ⟨?_, ?_⟩, by decide +kernel, by decide +kernel,
    by decide +kernel⟩
  · exact congrArg (Option.map Device.kind) (ide_selects b0 b1).2.2.2.2
  · have h := (ide_selects b0 b1).2.2.2.2
    simp only [State.slot] at h
    simp only [saveRecord, Vector.getElem_ofFn]
    exact congrArg (Option.map Device.cfg) h

theorem test_meets_RestoreMismatchIsRefused :
    (Record.zero.dev[(9 : Fin 256).val]).isSome ≠ ((ide 0x01 0xC0).slots[(9 : Fin 256).val]).isSome := by
  decide +kernel

theorem test_meets_SaveRestoreRoundTrip :
    exec .ctlSave (ide 0x01 0xC0) =
      .next { ide 0x01 0xC0 with reply := .saved (saveRecord (ide 0x01 0xC0)) } ∧
    (∀ i, ((ide 0x01 0xC0).slot i).isSome = ((ide 0x01 0xD0).slot i).isSome) ∧
    (ide 0x01 0xC0).slot 9 = some ⟨.ideController, ideSpace 0x01 0xC0⟩ ∧
    (ideSpace 0x01 0xC0)[0x20].getLsbD 0 = true ∧ prdtBase (bar4 (ide 0x01 0xC0)) ≠ 0xCF0 ∧
    (ide 0x01 0xD0).kindAt 9 = some .ideController ∧
    exec (.ctlRestore (saveRecord (ide 0x01 0xC0))) (ide 0x01 0xD0) =
      .next (after (.ctlRestore (saveRecord (ide 0x01 0xC0))) (ide 0x01 0xD0)) := by
  refine ⟨rfl, ?_, slot_only _ _ _, by decide +kernel, by decide +kernel, by decide +kernel, exec_after _ _⟩
  intro i
  have h : ∀ b0 b1, ((ide b0 b1).slot i).isSome = if i = 9 then true else (State.powerOn.slot i).isSome := by
    intro b0 b1
    change ((State.powerOn.putDevice 9 _).slot i).isSome = _
    rw [State.slot_putDevice]
    split <;> simp_all
  rw [h, h]

theorem test_meets_SetIrqLine :
    ((2#32) ≠ 0 ∧ (2#32) ≠ 1) ∧ 255 < (256#32).toNat ∧ State.powerOn.slot ((255#32).setWidth 8) = none ∧
    (9#32).toNat ≤ 255 ∧ (ide 0x01 0xC0).slot ((9#32).setWidth 8) =
      some ⟨.ideController, ideSpace 0x01 0xC0⟩ :=
  ⟨by decide, by decide, by decide +kernel, by decide, slot_only _ _ _⟩

theorem test_meets_StepKeepsBlockInv :
    BlockInv { State.reset with pending := [readCa] } ∧
    step { State.reset with pending := [readCa] } = .next (after (.cfgAddrR32 0xCF8) State.reset) := by
  refine ⟨⟨⟨by decide, by decide⟩, ?_⟩, rfl⟩
  intro b hb
  have : b = 0xC000#16 := (Option.some.inj hb).symm
  subst this
  decide

theorem test_meets_StepKeepsAddressInv :
    AddressInv { State.reset with pending := [readCa] } ∧
    step { State.reset with pending := [readCa] } = .next (after (.cfgAddrR32 0xCF8) State.reset) :=
  ⟨by decide, rfl⟩

theorem test_meets_AddressRegisterPersists :
    WellFormed (.cfgDataW8 0xCFF 0) = true ∧ isAddrWriteRow (.cfgDataW8 0xCFF 0) = false ∧
      isReloadRow (.cfgDataW8 0xCFF 0) = false ∧
      exec (.cfgDataW8 0xCFF 0) State.reset = .next (after (.cfgDataW8 0xCFF 0) State.reset) :=
  ⟨by decide, by decide, by decide, exec_after _ _⟩

theorem test_meets_MapAndBindingChangeOnlyByConfiguration :
    isConfigWriteRow (.shadowW8 0xF0000 1) = false ∧ isReloadRow (.shadowW8 0xF0000 1) = false ∧
      exec (.shadowW8 0xF0000 1) State.reset = .next (after (.shadowW8 0xF0000 1) State.reset) :=
  ⟨by decide, by decide, exec_after _ _⟩

theorem test_meets_WindowChangesOnlyByWindowWrites :
    isShadowWriteRow .ctlReset = false ∧ exec .ctlReset State.reset = .next (after .ctlReset State.reset) :=
  ⟨by decide, exec_after _ _⟩

theorem test_meets_SlotsStayPopulated :
    exec .ctlReset State.reset = .next (after .ctlReset State.reset) ∧
    (State.reset.slot 9).isSome = true ∧ (∀ b d f kind, Instr.ctlReset ≠ .ctlCreateDevice b d f kind) ∧
    Instr.ctlReset ≠ .ctlInit :=
  ⟨exec_after _ _, by decide +kernel, by simp, by simp⟩

theorem test_meets_TraceOnlyGrows :
    exec .ctlReset State.reset = .next (after .ctlReset State.reset) := exec_after _ _

theorem test_meets_ReadsChangeNoState :
    isReadRow (.cfgDataR16 0xCFF) = true ∧
      exec (.cfgDataR16 0xCFF) State.reset = .next (after (.cfgDataR16 0xCFF) State.reset) :=
  ⟨by decide, exec_after _ _⟩

theorem test_meets_CpuRequestsOnlyFaultByOverrun :
    isCpuRow (.cfgDataW16 0xCFF 0) = true ∧ WellFormed (.cfgDataW16 0xCFF 0) = true ∧
      (ide 0x01 0xC0).IdeBarIsIo ∧
      exec (.cfgDataW16 0xCFF 0) (ide 0x01 0xC0) = .next (after (.cfgDataW16 0xCFF 0) (ide 0x01 0xC0)) :=
  ⟨by decide, by decide, ⟨⟨.ideController, ideSpace 0x01 0xC0⟩, slot_only _ _ _, rfl, by decide +kernel⟩,
    exec_after _ _⟩

end Sys2Proof.Tests
end

