-- ==== Sys2Proof/Proofs/ConfigCycleReads.lean ====
section
/-!
PROOFS. The byte read of the configuration address register and the reads of the data window
(40_config_cycle.md R134, R136; 20_memory.md R74).
-/

namespace Sys2Proof.Machine

/-! ### Address-register reads (40_config_cycle.md R134) -/

/-- The byte of a lane as a slice of the word (30_encoding.md R110). -/
theorem laneByte_eq_extractLsb' (a : Word) (k : BitVec 2) : laneByte a k = a.extractLsb' (8 * k.toNat) 8 := by
  ext j hj
  simp [laneByte]

/-- The byte an address port reads: the slice of `CA` at the port's distance from 0xCF8. -/
theorem addrReadByte_eq {p : Port} (h : isAddrPort p = true) (s : State) :
    addrReadByte (laneOf p) s = s.ca.extractLsb' (8 * (p.toNat - 0xCF8)) 8 := by
  rw [addrReadByte, laneByte_eq_extractLsb', laneOf_addrPort p h]

/-- A one-byte address-register read. -/
theorem exec_cfgAddrR8_eq (p : Port) (s : State) (h : isAddrPort p = true) :
    exec (.cfgAddrR8 p) s = .next { s with reply := .data ((addrReadByte (laneOf p) s).setWidth 32) } := by
  simp only [exec, execCfgAddrR8, readRequest, portRead, portReadByte_addr h, Res.andThen_ok, complete_ok]
  simp [joinByte]

/-- Settles O11: the lane of an address port is its distance from 0xCF8. -/
theorem addressByteRead : Obligations.AddressByteRead := by
  intro s p hp
  rw [exec_cfgAddrR8_eq p s hp, addrReadByte_eq hp]

/-! ### Data-window reads (40_config_cycle.md R136; 20_memory.md R74) -/

/-- The byte a data port reads of the selected device, by its number `n` in the configuration space. -/
theorem dataReadByte_selects_getD {s : State} {i : SlotIndex} {d : Device} {r : BitVec 6}
    (h : s.Selects i d r) {p : Port} (hp : isDataPort p = true) {n : Nat}
    (hn : 4 * r.toNat + (p.toNat - 0xCFC) = n) : dataReadByte p s = d.cfg[n]?.getD 0 := by
  have hreg : caReg s.ca = r := by
    obtain ⟨-, -, -, hreg, -⟩ := h
    exact hreg
  have ho : (targetOffset s.ca p).toNat = n := by rw [targetOffset_toNat hp, hreg, hn]
  rw [dataReadByte_selects h, cfgByte_eq_getD d _ n ho]

/-- Settles O16: each byte step reads all-ones without a device (`dataReadByte_noDevice`) and the byte
`4*REG + lane` of the selected one (`dataReadByte_selects_getD`); the wide reads join those bytes. -/
theorem dataReads : Obligations.DataReads := by
  refine ⟨fun s hs => ⟨fun p hp => ?_, fun p hp hlast => ?_, ?_⟩,
    fun s i d r hs => ⟨fun p hp => ?_, fun p hp hlast => ?_, ?_⟩⟩
  · rw [exec_cfgDataR8_eq p s hp, dataReadByte_noDevice hs]
    rfl
  · rw [exec_cfgDataR16_eq p s hp hlast, dataReadByte_noDevice hs, dataReadByte_noDevice hs]
    rfl
  · rw [exec_cfgDataR32_eq, dataReadByte_noDevice hs, dataReadByte_noDevice hs, dataReadByte_noDevice hs,
      dataReadByte_noDevice hs]
    rfl
  · rw [exec_cfgDataR8_eq p s hp, dataReadByte_selects_getD hs hp rfl]
  · obtain ⟨hp', hsucc⟩ := dataPort_succ hp hlast
    have hfirst := ((isDataPort_iff p).mp hp).1
    rw [exec_cfgDataR16_eq p s hp hlast, dataReadByte_selects_getD hs hp rfl,
      dataReadByte_selects_getD hs hp' (n := 4 * r.toNat + (p.toNat - 0xCFC) + 1) (by omega)]
  · rw [exec_cfgDataR32_eq, dataReadByte_selects_getD hs (p := 0xCFC#16) (by decide) rfl,
      dataReadByte_selects_getD hs (p := 0xCFD#16) (by decide) rfl,
      dataReadByte_selects_getD hs (p := 0xCFE#16) (by decide) rfl,
      dataReadByte_selects_getD hs (p := 0xCFF#16) (by decide) rfl]
    rfl

end Sys2Proof.Machine
end

