-- ==== Sys2Proof/Proofs/DeviceCommandStatus.lean ====
section
/-!
PROOFS. Byte writes to the command and status bytes of the chipset devices, which are of the plain write classes
MASK and W1C (41_device_models.md R172, R175, R176, R179, R180, R182).
-/

namespace Sys2Proof.Machine

/-! ### The interceptor of each chipset device (41_device_models.md R173) -/

/-- The host bridge's interceptor applies the host bridge's class of the offset. -/
theorem icptWrite_hostBridge {d : Device} (hk : d.kind = .hostBridge) (i : SlotIndex) (o : Offset) (v : Byte)
    (s : State) : icptWrite i d o v s = applyClass (hostBridgeClass o) i d o v s := by
  simp only [icptWrite, hk]

/-- The ISA bridge's interceptor applies the ISA bridge's class of the offset. -/
theorem icptWrite_isaBridge {d : Device} (hk : d.kind = .isaBridge) (i : SlotIndex) (o : Offset) (v : Byte)
    (s : State) : icptWrite i d o v s = applyClass (isaBridgeClass o) i d o v s := by
  simp only [icptWrite, hk]

/-- The IDE controller's interceptor applies the IDE controller's class of the offset. -/
theorem icptWrite_ideController {d : Device} (hk : d.kind = .ideController) (i : SlotIndex) (o : Offset)
    (v : Byte) (s : State) : icptWrite i d o v s = applyClass (ideClass o) i d o v s := by
  simp only [icptWrite, hk]

/-! ### The classes of the command and status offsets -/

theorem hostBridgeClass_command : hostBridgeClass 0x04#8 = .plain (.mask 0x40#8 hbCmdFixed) := rfl

theorem hostBridgeClass_status : hostBridgeClass 0x07#8 = .plain (.w1c 0xF9#8) := rfl

theorem isaBridgeClass_command : isaBridgeClass 0x04#8 = .plain (.mask Config.isaCmdWmask isaCmdFixed) := rfl

theorem isaBridgeClass_status : isaBridgeClass 0x07#8 = .plain (.w1c Config.isaStsClearMask) := rfl

theorem ideClass_command : ideClass 0x04#8 = .plain (.mask Config.ideCmdWmask ideCmdFixed) := rfl

/-! ### A data write that meets a plain class (41_device_models.md R172) -/

/-- A one-byte data write whose interceptor applies a plain class stores that class's byte in the selected
slot and changes nothing else but the reply. -/
theorem exec_cfgDataW8_plain {s : State} {i : SlotIndex} {d : Device} {r : BitVec 6} (h : s.Selects i d r)
    {p : Port} (hp : isDataPort p = true) (o : Offset) (ho : o.toNat = 4 * r.toNat + (p.toNat - 0xCFC))
    {v : Byte} {c : WriteClass} {rule : PlainClass} (hi : icptWrite i d o v s = applyClass c i d o v s)
    (hc : c = .plain rule) :
    exec (.cfgDataW8 p v) s =
      .next { s with
        slots := s.slots.set i.toNat
          (some ⟨d.kind, d.cfg.set o.toNat (plainByte rule (cfgByte d.cfg o) v) o.isLt⟩) i.isLt
        reply := .done } := by
  rw [exec_cfgDataW8_selects h hp o ho, hi, hc]
  rfl

/-- The same at register 1, lane 0: the command byte 0x04. -/
theorem exec_commandWrite_plain {s : State} {i : SlotIndex} {d : Device} (h : s.Selects i d 1#6) {v : Byte}
    {c : WriteClass} {rule : PlainClass} (hi : icptWrite i d 0x04#8 v s = applyClass c i d 0x04#8 v s)
    (hc : c = .plain rule) :
    exec (.cfgDataW8 0xCFC#16 v) s =
      .next { s with
        slots := s.slots.set i.toNat (some ⟨d.kind, d.cfg.set 4 (plainByte rule d.cfg[4] v)⟩) i.isLt
        reply := .done } :=
  exec_cfgDataW8_plain h (by decide) 0x04#8 (by decide) hi hc

/-- The same at register 1, lane 3: the status byte 0x07. -/
theorem exec_statusWrite_plain {s : State} {i : SlotIndex} {d : Device} (h : s.Selects i d 1#6) {v : Byte}
    {c : WriteClass} {rule : PlainClass} (hi : icptWrite i d 0x07#8 v s = applyClass c i d 0x07#8 v s)
    (hc : c = .plain rule) :
    exec (.cfgDataW8 0xCFF#16 v) s =
      .next { s with
        slots := s.slots.set i.toNat (some ⟨d.kind, d.cfg.set 7 (plainByte rule d.cfg[7] v)⟩) i.isLt
        reply := .done } :=
  exec_cfgDataW8_plain h (by decide) 0x07#8 (by decide) hi hc

/-! ### The fixed bits are not writable ones (00_scope.md R10) -/

theorem hbCmdFixed_bit6 : hbCmdFixed.getLsbD 6 = false := by
  simp [hbCmdFixed]

/-- Bits with a mask's bits cleared are disjoint from the mask. -/
theorem and_not_and_self {n : Nat} (f w : BitVec n) : (f &&& ~~~w) &&& w = 0#n := by
  rw [BitVec.and_assoc, BitVec.and_comm (~~~w) w, BitVec.and_not_self]
  exact BitVec.and_zero

/-! ### The obligations -/

/-- Settles O19: offset 0x04 is of class MASK (`hostBridgeClass_command`). -/
theorem hostBridgeCommandWrite : Obligations.HostBridgeCommandWrite := by
  refine ⟨fun s i d v hs hk => ?_, hbCmdFixed_bit6⟩
  exact exec_commandWrite_plain hs (icptWrite_hostBridge hk ..) hostBridgeClass_command

/-- Settles O20: offset 0x07 is of class W1C (`hostBridgeClass_status`). -/
theorem hostBridgeStatusWriteClears : Obligations.HostBridgeStatusWriteClears := by
  intro s i d v hs hk
  exact exec_statusWrite_plain hs (icptWrite_hostBridge hk ..) hostBridgeClass_status

/-- Settles O23: the ISA bridge's and the IDE controller's command bytes are of class MASK, the ISA bridge's
status byte of class W1C. -/
theorem isaAndIdeCommandAndStatusWrite : Obligations.IsaAndIdeCommandAndStatusWrite := by
  refine ⟨fun s i d v hs hk => ⟨?isaCommand, ?isaStatus⟩, and_not_and_self _ _,
    fun s i d v hs hk => ?ideCommand, and_not_and_self _ _⟩
  case isaCommand => exact exec_commandWrite_plain hs (icptWrite_isaBridge hk ..) isaBridgeClass_command
  case isaStatus => exact exec_statusWrite_plain hs (icptWrite_isaBridge hk ..) isaBridgeClass_status
  case ideCommand => exact exec_commandWrite_plain hs (icptWrite_ideController hk ..) ideClass_command

end Sys2Proof.Machine
end

