-- ==== Sys2Proof/Proofs/PamRegisters.lean ====
section
/-!
PROOFS. Byte writes to the host bridge's PAM registers, offsets 0x59..0x5F: the regions each register governs, the
map and the notifications a write leaves (41_device_models.md R177; 42_shadow_ram.md R211-R217).
-/

namespace Sys2Proof.Machine

/-! ### Regions by number (42_shadow_ram.md R211) -/

/-- The region of a region's first address is that region. -/
theorem regionOf_regionBase {n : Nat} (hn : n < 16) : regionOf (regionBase n) = BitVec.ofNat 4 n := by
  have hbase : (regionBase n).toNat = 0xC0000 + 0x4000 * n := by simp [regionBase]; omega
  have hin : inWindow (regionBase n) = true := (inWindow_iff _).mpr (by omega)
  apply BitVec.eq_of_toNat_eq
  rw [regionOf_toNat hin, hbase, BitVec.toNat_ofNat]
  omega

/-- Setting the permission at the first address of region `n` sets entry `n` of the map. -/
theorem mapAfter_cons_regionBase {n : Nat} (hn : n < 16) (p : Byte) (ts : List (Addr × Byte))
    (m : Vector Nibble 16) :
    mapAfter ((regionBase n, p) :: ts) m = mapAfter ts (m.set n (p.setWidth 4)) := by
  have hr : (regionOf (regionBase n)).toNat = n := by
    rw [regionOf_regionBase hn, BitVec.toNat_ofNat, Nat.mod_eq_of_lt hn]
  simp only [mapAfter, List.foldl_cons, mapSet, hr]

@[simp] theorem mapAfter_nil (m : Vector Nibble 16) : mapAfter [] m = m := rfl

/-! ### Nibbles as permissions (30_encoding.md R113) -/

theorem lowNibble_setWidth (v : Byte) : (lowNibble v).setWidth 4 = v.extractLsb' 0 4 := by
  have hmask : ∀ j < 4, (0x0F#8).getLsbD j = true := by decide
  apply BitVec.eq_of_getLsbD_eq
  intro j hj
  simp only [lowNibble, BitVec.getLsbD_setWidth, BitVec.getLsbD_and, hmask j hj]
  simp [hj]

theorem highNibble_setWidth (v : Byte) : (highNibble v).setWidth 4 = v.extractLsb' 4 4 := by
  apply BitVec.eq_of_getLsbD_eq
  intro j hj
  simp [highNibble, hj]

/-! ### The BIOS register, offset 0x59 (42_shadow_ram.md R215) -/

/-- The BIOS register governs regions 12..15, each with its high nibble. -/
theorem pamTargets_bios (v : Byte) :
    pamTargets 0x59#8 v =
      [(regionBase 12, highNibble v), (regionBase 13, highNibble v), (regionBase 14, highNibble v),
        (regionBase 15, highNibble v)] := by
  simp [pamTargets, regionBase]

theorem mapAfter_pamTargets_bios (v : Byte) (m : Vector Nibble 16) :
    mapAfter (pamTargets 0x59#8 v) m =
      Vector.ofFn fun k => if 12 ≤ k.val then v.extractLsb' 4 4 else m[k.val] := by
  apply Vector.ext
  intro k hk
  rw [pamTargets_bios]
  simp only [mapAfter_cons_regionBase, Nat.reduceLT, mapAfter_nil, highNibble_setWidth, Vector.getElem_set,
    Vector.getElem_ofFn]
  by_cases hbios : 12 ≤ k
  · obtain rfl | rfl | rfl | rfl : k = 12 ∨ k = 13 ∨ k = 14 ∨ k = 15 := by omega
    all_goals simp
  · rw [if_neg (by omega), if_neg (by omega), if_neg (by omega), if_neg (by omega), if_neg hbios]

theorem noticesOf_pamTargets_bios (v : Byte) :
    noticesOf (pamTargets 0x59#8 v) =
      [.permChanged 12 (v.extractLsb' 4 4), .permChanged 13 (v.extractLsb' 4 4),
        .permChanged 14 (v.extractLsb' 4 4), .permChanged 15 (v.extractLsb' 4 4)] := by
  simp [noticesOf, pamTargets_bios, regionOf_regionBase, highNibble_setWidth]

/-! ### The pair registers, offsets 0x5A..0x5F (42_shadow_ram.md R216) -/

/-- The pair register `n` governs regions `2*n` and `2*n + 1`, low nibble first. -/
theorem pamTargets_pair {o : Offset} {n : Nat} (hn : n < 6) (ho : o.toNat = 0x5A + n) (v : Byte) :
    pamTargets o v = [(regionBase (2 * n), lowNibble v), (regionBase (2 * n + 1), highNibble v)] := by
  have hbios : o ≠ 0x59#8 := by
    rintro rfl
    simp at ho
    omega
  have hbase : 0xC0000#32 + (o - 0x5A#8).setWidth 32 * 0x8000#32 = regionBase (2 * n) := by
    apply BitVec.eq_of_toNat_eq
    simp [regionBase, BitVec.toNat_sub, ho]
    omega
  have hnext : regionBase (2 * n) + 0x4000#32 = regionBase (2 * n + 1) := by
    apply BitVec.eq_of_toNat_eq
    simp [regionBase]
    omega
  simp only [pamTargets, if_neg hbios, hbase, hnext]

theorem mapAfter_pamTargets_pair {o : Offset} {n : Nat} (hn : n < 6) (ho : o.toNat = 0x5A + n) (v : Byte)
    (m : Vector Nibble 16) :
    mapAfter (pamTargets o v) m = Vector.ofFn fun k =>
      if k.val = 2 * n then v.extractLsb' 0 4
      else if k.val = 2 * n + 1 then v.extractLsb' 4 4 else m[k.val] := by
  apply Vector.ext
  intro k hk
  rw [pamTargets_pair hn ho, mapAfter_cons_regionBase (by omega), mapAfter_cons_regionBase (by omega),
    mapAfter_nil]
  simp only [lowNibble_setWidth, highNibble_setWidth, Vector.getElem_set, Vector.getElem_ofFn]
  grind

theorem noticesOf_pamTargets_pair {o : Offset} {n : Nat} (hn : n < 6) (ho : o.toNat = 0x5A + n) (v : Byte) :
    noticesOf (pamTargets o v) =
      [.permChanged (BitVec.ofNat 4 (2 * n)) (v.extractLsb' 0 4),
        .permChanged (BitVec.ofNat 4 (2 * n + 1)) (v.extractLsb' 4 4)] := by
  simp only [noticesOf, pamTargets_pair hn ho, List.map_cons, List.map_nil, lowNibble_setWidth,
    highNibble_setWidth, regionOf_regionBase (n := 2 * n) (by omega),
    regionOf_regionBase (n := 2 * n + 1) (by omega)]

/-! ### A data write to a PAM register (41_device_models.md R173, R177) -/

theorem hostBridgeClass_pam {o : Offset} (ho : 0x59 ≤ o.toNat ∧ o.toNat ≤ 0x5F) :
    hostBridgeClass o = .pam := by
  rcases mem_pamOffsets ho with rfl | rfl | rfl | rfl | rfl | rfl | rfl <;> rfl

/-- A one-byte data write to a PAM register of the host bridge sets the register's permissions, notifies them
and stores the byte. -/
theorem exec_cfgDataW8_pam {s : State} {i : SlotIndex} {d : Device} {r : BitVec 6} (h : s.Selects i d r)
    (hk : d.kind = .hostBridge) {p : Port} (hp : isDataPort p = true) {o : Offset}
    (ho : o.toNat = 4 * r.toNat + (p.toNat - 0xCFC)) (hpam : 0x59 ≤ o.toNat ∧ o.toNat ≤ 0x5F) (v : Byte) :
    exec (.cfgDataW8 p v) s =
      .next { s with
        slots := s.slots.set i.toNat (some ⟨d.kind, cfgSet d.cfg o v⟩) i.isLt
        pam := mapAfter (pamTargets o v) s.pam
        trace := s.trace ++ noticesOf (pamTargets o v)
        reply := .done } := by
  have happly : applyClass .pam i d o v s =
      (pamDecode o v s).andThen fun _ s' => .ok () (s'.storeByte i d o v) := rfl
  rw [exec_cfgDataW8_selects h hp o ho, icptWrite_hostBridge hk, hostBridgeClass_pam hpam, happly,
    pamDecode_eq hpam]
  rfl

/-! ### The obligations -/

/-- Settles O21: register 0x16, lane 1 is the BIOS register, whose targets are regions 12..15. -/
theorem biosPamWrite : Obligations.BiosPamWrite := by
  intro s i d v hs hk
  rw [exec_cfgDataW8_pam hs hk (by decide) (o := 0x59#8) (by decide) (by decide),
    mapAfter_pamTargets_bios, noticesOf_pamTargets_bios]
  rfl

/-- Settles O22: the offset `0x5A + n` is the pair register `n`, whose targets are regions `2*n` and
`2*n + 1`. -/
theorem pairPamWrite : Obligations.PairPamWrite := by
  intro s i d v r p n hn hp ho hs hk
  have htoNat : (BitVec.ofNat 8 (0x5A + n)).toNat = 0x5A + n := by simp; omega
  have hstored : cfgSet d.cfg (BitVec.ofNat 8 (0x5A + n)) v = d.cfg.setIfInBounds (0x5A + n) v := by
    apply Vector.ext
    intro k hk
    simp only [cfgSet, Vector.getElem_set, Vector.getElem_setIfInBounds, htoNat]
  rw [exec_cfgDataW8_pam hs hk hp (o := BitVec.ofNat 8 (0x5A + n)) (by omega) (by omega),
    mapAfter_pamTargets_pair hn htoNat, noticesOf_pamTargets_pair hn htoNat, hstored]

end Sys2Proof.Machine
end

