-- ==== Sys2Proof/Proofs/WindowReads.lean ====
section
/-!
PROOFS. Reads inside the memory window: the bytes of the window memory, little-endian, with nothing changed
(20_memory.md R71, R79; 42_shadow_ram.md R219, R221-R223).
-/

namespace Sys2Proof.Machine

/-! ### A wide read as bytes of the window memory (20_memory.md R79) -/

/-- The `n` bytes of a memory from the address `x`, little-endian. -/
def Memory.readWord (m : Memory) : Nat → Nat → Word
  | 0, _ => 0
  | n + 1, x => joinByte (m.read x) (m.readWord n (x + 1))

theorem Memory.readWord_one (m : Memory) (x : Nat) : m.readWord 1 x = (m.read x).setWidth 32 := by
  simp [Memory.readWord, joinByte]

theorem Memory.readWord_two (m : Memory) (x : Nat) :
    m.readWord 2 x = (m.read x).setWidth 32 ||| (m.read (x + 1)).setWidth 32 <<< 8 := by
  simp [Memory.readWord, joinByte]

theorem Memory.readWord_four (m : Memory) (x : Nat) :
    m.readWord 4 x =
      (m.read x).setWidth 32 ||| (m.read (x + 1)).setWidth 32 <<< 8 |||
        (m.read (x + 2)).setWidth 32 <<< 16 ||| (m.read (x + 3)).setWidth 32 <<< 24 := by
  simp [Memory.readWord, joinByte, BitVec.or_assoc, BitVec.shiftLeft_or_distrib, ← BitVec.shiftLeft_add]

/-- A read whose bytes all lie in the window takes them from the window memory. -/
theorem memRead_inWindow {n : Nat} {a : Addr} (hfirst : 0xC0000 ≤ a.toNat) (hlast : a.toNat + n ≤ 0x100000)
    (s : State) : memRead n a s = s.win.readWord n a.toNat := by
  induction n generalizing a with
  | zero => rfl
  | succ n ih =>
    have hsucc : (a + 1#32).toNat = a.toNat + 1 := addr_succ_toNat (by omega)
    rw [memRead, Memory.readWord, windowByte_read s hfirst (by omega), ih (by omega) (by omega), hsucc]

/-- A window read request inside the window replies with the bytes of the window memory and changes nothing
else: the permission map does not enter. -/
theorem shadowRead_inWindow {n : Nat} {a : Addr} (hfirst : 0xC0000 ≤ a.toNat)
    (hlast : a.toNat + n ≤ 0x100000) (s : State) :
    shadowRead n a s = .next { s with reply := .data (s.win.readWord n a.toNat) } := by
  rw [shadowRead, afterRead_inWindow hfirst hlast, memRead_inWindow hfirst hlast]

/-! ### The window read rows (42_shadow_ram.md R221-R223) -/

theorem exec_shadowR8 (a : Addr) (s : State) : exec (.shadowR8 a) s = shadowRead 1 a s := rfl

theorem exec_shadowR16 (a : Addr) (s : State) : exec (.shadowR16 a) s = shadowRead 2 a s := rfl

theorem exec_shadowR32 (a : Addr) (s : State) : exec (.shadowR32 a) s = shadowRead 4 a s := rfl

/-! ### The obligation -/

/-- Settles O30: a read that ends inside the window joins the bytes of the window memory
(`shadowRead_inWindow`). -/
theorem shadowReads : Obligations.ShadowReads := by
  intro s a hfirst
  refine ⟨fun hlast => ?byte, fun hlast => ?half, fun hlast => ?word⟩
  case byte => rw [exec_shadowR8, shadowRead_inWindow hfirst (by omega), Memory.readWord_one]
  case half => rw [exec_shadowR16, shadowRead_inWindow hfirst (by omega), Memory.readWord_two]
  case word => rw [exec_shadowR32, shadowRead_inWindow hfirst (by omega), Memory.readWord_four]

end Sys2Proof.Machine
end

