-- ==== Sys2Proof/Proofs/IrqLine.lean ====
section
/-!
PROOFS. Driving an IRQ line: CTL_SET_IRQ_LINE checks the level, then the slot, then emits at most one event
(43_prdt_irq.md R250, R251; the order of the checks is 60_exceptions.md R302).
-/

namespace Sys2Proof.Machine

/-! ### `set_irq_line`, an equation per outcome (43_prdt_irq.md R250) -/

/-- A level other than 0 or 1 is refused before the slot is looked at. -/
theorem setIrqLine_badLevel {l : Word} (h0 : l ≠ 0) (h1 : l ≠ 1) (x : Word) (s : State) :
    setIrqLine x l s = refuse .badIrqLevel s :=
  if_pos ⟨h0, h1⟩

theorem not_badLevel_of_legal {l : Word} (hl : l = 0 ∨ l = 1) : ¬ (l ≠ 0#32 ∧ l ≠ 1#32) :=
  fun ⟨h0, h1⟩ => hl.elim h0 h1

/-- At a legal level an index above 255 or of an empty slot is fatal. -/
theorem setIrqLine_unregistered {l : Word} (hl : l = 0 ∨ l = 1) {x : Word} {s : State}
    (hx : 255 < x.toNat ∨ s.slot (x.setWidth 8) = none) :
    setIrqLine x l s = raise (.irqUnregisteredDevice x) s := by
  rw [setIrqLine, if_neg (not_badLevel_of_legal hl)]
  by_cases hbig : 255 < x.toNat
  · rw [if_pos hbig]
  · rw [if_neg hbig, hx.resolve_left hbig]

/-- At a legal level a populated slot drives the line it is routed to, if there is one. -/
theorem setIrqLine_registered {l : Word} (hl : l = 0 ∨ l = 1) {x : Word} {s : State} {d : Device}
    (hx : x.toNat ≤ 255) (hd : s.slot (x.setWidth 8) = some d) :
    setIrqLine x l s =
      .ok () (s.emit ((irqLine (x.setWidth 8) d s).toList.map fun line => .irq line (l == 1#32))) := by
  rw [setIrqLine, if_neg (not_badLevel_of_legal hl), if_neg (Nat.not_lt.mpr hx), hd]

/-! ### The request -/

theorem exec_ctlSetIrqLine (x l : Word) (s : State) :
    exec (.ctlSetIrqLine x l) s = complete (fun _ => .done) (setIrqLine x l s) := rfl

/-- The descriptor of CTL_SET_IRQ_LINE decodes to it under every binding (30_encoding.md R105). -/
theorem decode_ctlSetIrqLine (prdt : Option Port) (y : RequestOperands) :
    decode prdt ⟨0x3000000700000000, y⟩ = .ok (.ctlSetIrqLine y.deviceIndex y.level) :=
  decode_ctl (op := 0x07#8) (by decide) (by decide) (by decide) prdt y

/-! ### The obligation -/

namespace IrqLine

/-- Settles O48: the three outcomes of `set_irq_line`, each completed; the last one emits one event or none as
`IRQ_ROUTE` resolves a line or none. -/
theorem setIrqLine : Obligations.SetIrqLine := by
  refine ⟨decode_ctlSetIrqLine, fun s x l => ⟨fun h0 h1 => ?badLevel, fun hl hx => ?unregistered,
    fun d hl hx hd => ?driven⟩⟩
  case badLevel =>
    rw [exec_ctlSetIrqLine, setIrqLine_badLevel h0 h1, refuse, complete_stop]
  case unregistered =>
    rw [exec_ctlSetIrqLine, setIrqLine_unregistered hl hx, raise, complete_stop]
  case driven =>
    rw [exec_ctlSetIrqLine, setIrqLine_registered hl hx hd, complete_ok]
    cases irqLine (x.setWidth 8) d s <;> rfl

end IrqLine

end Sys2Proof.Machine
end

