-- ==== Sys2Proof/Proofs/DeviceStore.lean ====
section
/-!
PROOFS. The host operations on the device store: creating a device, viewing its configuration space, laying a
default image over it (44_control.md R261-R264).
-/

namespace Sys2Proof.Machine

/-! ### The topology check (44_control.md R262) -/

theorem checkBdf_inTopology {d f : Word} (hd : d.toNat ≤ 31) (hf : f.toNat ≤ 7) : checkBdf 0 d f = none :=
  (checkBdf_none_iff 0 d f).mpr ⟨rfl, hd, hf⟩

theorem checkBdf_outsideTopology {bus d f : Word} (h : bus ≠ 0 ∨ 31 < d.toNat ∨ 7 < f.toNat) :
    checkBdf bus d f = some (.badTopology bus d f) := by
  apply checkBdf_some
  rintro ⟨hbus, hd, hf⟩
  rcases h with hbus' | hd' | hf'
  · exact hbus' hbus
  · omega
  · omega

/-- Inside the topology the slot index is `8*d + f` without wrapping (10_state.md R41). -/
theorem slotOf_eq_ofNat {d f : Word} (hd : d.toNat ≤ 31) (hf : f.toNat ≤ 7) :
    slotOf d f = BitVec.ofNat 8 (8 * d.toNat + f.toNat) := by
  rw [← slotOf_toNat hd hf, BitVec.ofNat_toNat, BitVec.setWidth_eq]

theorem putDevice_slotOf {d f : Word} (hd : d.toNat ≤ 31) (hf : f.toNat ≤ 7) (s : State) (x : Device) :
    s.putDevice (slotOf d f) x =
      { s with slots := s.slots.set (8 * d.toNat + f.toNat) (some x) (by omega) } := by
  simp only [State.putDevice, slotOf_toNat hd hf]

theorem slot_slotOf {d f : Word} (hd : d.toNat ≤ 31) (hf : f.toNat ≤ 7) (s : State) :
    s.slot (slotOf d f) = s.slots[8 * d.toNat + f.toNat]'(by omega) := by
  simp only [State.slot, slotOf_toNat hd hf]

/-! ### The operations, an equation per outcome -/

theorem createDevice_inTopology {d f : Word} (hd : d.toNat ≤ 31) (hf : f.toNat ≤ 7) (k : Kind) (s : State) :
    createDevice 0 d f k s = .ok (slotOf d f) (s.putDevice (slotOf d f) ⟨k, Vector.replicate 256 0⟩) := by
  rw [createDevice, checkBdf_inTopology hd hf]
  rfl

theorem createDevice_outsideTopology {bus d f : Word} (h : bus ≠ 0 ∨ 31 < d.toNat ∨ 7 < f.toNat) (k : Kind)
    (s : State) : createDevice bus d f k s = raise (.badTopology bus d f) s := by
  rw [createDevice, checkBdf_outsideTopology h]

theorem configPtr_inTopology {d f : Word} (hd : d.toNat ≤ 31) (hf : f.toNat ≤ 7) (s : State) :
    configPtr 0 d f s = .ok ((s.slot (slotOf d f)).map Device.cfg) s := by
  rw [configPtr, checkBdf_inTopology hd hf]

theorem configPtr_outsideTopology {bus d f : Word} (h : bus ≠ 0 ∨ 31 < d.toNat ∨ 7 < f.toNat) (s : State) :
    configPtr bus d f s = raise (.badTopology bus d f) s := by
  rw [configPtr, checkBdf_outsideTopology h]

theorem copyDefault_shortImage {s : State} {i : SlotIndex} {d : Device} {image : List Byte} {n : Nat}
    (hs : s.slot i = some d) (hshort : image.length < min n 256) :
    copyDefault i image n s = refuse .shortImage s := by
  simp only [copyDefault, hs, if_pos hshort]

/-! ### The requests -/

theorem exec_ctlCreateDevice (bus d f : Word) (k : Kind) (s : State) :
    exec (.ctlCreateDevice bus d f k) s = complete Reply.slot (createDevice bus d f k s) := rfl

theorem exec_ctlGetConfigPtr (bus d f : Word) (s : State) :
    exec (.ctlGetConfigPtr bus d f) s = complete Reply.configView (configPtr bus d f s) := rfl

theorem exec_ctlCopyDefault (i : SlotIndex) (image : List Byte) (n : Nat) (s : State) :
    exec (.ctlCopyDefault i image n) s = complete (fun _ => .done) (copyDefault i image n s) := rfl

/-! ### Their descriptors decode to them under every binding (30_encoding.md R105) -/

theorem decode_ctlCreateDevice (prdt : Option Port) (x : RequestOperands) :
    decode prdt ⟨0x3000000100000000, x⟩ = .ok (.ctlCreateDevice x.bus x.device x.function x.kind) :=
  decode_ctl (op := 0x01#8) (by decide) (by decide) (by decide) prdt x

theorem decode_ctlGetConfigPtr (prdt : Option Port) (x : RequestOperands) :
    decode prdt ⟨0x3000000200000000, x⟩ = .ok (.ctlGetConfigPtr x.bus x.device x.function) :=
  decode_ctl (op := 0x02#8) (by decide) (by decide) (by decide) prdt x

theorem decode_ctlCopyDefault (prdt : Option Port) (x : RequestOperands) :
    decode prdt ⟨0x3000000300000000, x⟩ = .ok (.ctlCopyDefault x.slot x.image x.size) :=
  decode_ctl (op := 0x03#8) (by decide) (by decide) (by decide) prdt x

/-! ### The obligations -/

namespace DeviceStore

/-- Settles O36: the two outcomes of `create_device`; inside the topology `slotOf` does not wrap. -/
theorem createDevice : Obligations.CreateDevice := by
  refine ⟨decode_ctlCreateDevice, fun s d f k hd hf => ?created, fun s bus d f k h => ?fatal⟩
  case created =>
    rw [exec_ctlCreateDevice, createDevice_inTopology hd hf, complete_ok, putDevice_slotOf hd hf,
      slotOf_eq_ofNat hd hf]
  case fatal =>
    rw [exec_ctlCreateDevice, createDevice_outsideTopology h, raise, complete_stop]

/-- Settles O37: the two outcomes of `getConfigurationPointer`, under the topology check of a creation. -/
theorem getConfigPointer : Obligations.GetConfigPointer := by
  refine ⟨decode_ctlGetConfigPtr, fun s d f hd hf => ?view, fun s bus d f h => ?fatal⟩
  case view =>
    rw [exec_ctlGetConfigPtr, configPtr_inTopology hd hf, complete_ok, slot_slotOf hd hf]
  case fatal =>
    rw [exec_ctlGetConfigPtr, configPtr_outsideTopology h, raise, complete_stop]

/-- Settles O38: the two refusals of `copy_default`, and the overlay, which is the image's first `min(n, 256)`
bytes laid over the space (`cfgOverlay_withImage`). -/
theorem copyDefaultImage : Obligations.CopyDefaultImage := by
  refine ⟨decode_ctlCopyDefault, fun s i image n =>
    ⟨fun hs => ?emptySlot, fun d hs hshort => ?shortImage, fun d hs hlong => ?copied⟩⟩
  case emptySlot =>
    rw [exec_ctlCopyDefault, copyDefault_empty hs, refuse, complete_stop]
  case shortImage =>
    rw [exec_ctlCopyDefault, copyDefault_shortImage hs hshort, refuse, complete_stop]
  case copied =>
    rw [exec_ctlCopyDefault, copyDefault_populated hs hlong, complete_ok, cfgOverlay_withImage _ _ _ hlong,
      State.putDevice]

end DeviceStore

end Sys2Proof.Machine
end

