-- ==== Sys2Proof/Proofs/SaveRestore.lean ====
section
/-!
PROOFS. The record of a save, and the refusal of a record whose slots differ from the populated ones
(44_control.md R267, R268, R271).
-/

namespace Sys2Proof.Machine

/-! ### The saved record, field by field (44_control.md R267) -/

theorem saveRecord_pam (s : State) (k : Fin 16) : (saveRecord s).pam[k.val] = s.pam[k.val].setWidth 8 := by
  simp only [saveRecord, Vector.getElem_ofFn]

theorem saveRecord_dev (s : State) (i : Fin 256) :
    (saveRecord s).dev[i.val] = s.slots[i.val].map Device.cfg := by
  simp only [saveRecord, Vector.getElem_ofFn]

/-! ### The slot check of a restore (44_control.md R271) -/

/-- One slot that is listed and empty, or populated and not listed, fails the check. -/
theorem not_slotsMatch {r : Record} {s : State} (i : Fin 256)
    (h : r.dev[i.val].isSome ≠ s.slots[i.val].isSome) : ¬ slotsMatch r s :=
  fun hmatch => h (hmatch i)

theorem restoreBlock_mismatch {r : Record} {s : State} (h : ¬ slotsMatch r s) :
    restoreBlock r s = refuse .restoreSlotMismatch s :=
  if_neg h

/-! ### The requests -/

theorem exec_ctlSave (s : State) : exec .ctlSave s = .next { s with reply := .saved (saveRecord s) } := rfl

theorem exec_ctlRestore (r : Record) (s : State) :
    exec (.ctlRestore r) s = complete (fun _ => .done) (restoreBlock r s) := rfl

/-- The descriptor of CTL_SAVE decodes to it under every binding (30_encoding.md R105). -/
theorem decode_ctlSave (prdt : Option Port) (x : RequestOperands) :
    decode prdt ⟨0x3000000500000000, x⟩ = .ok .ctlSave :=
  decode_ctl (op := 0x05#8) (by decide) (by decide) (by decide) prdt x

/-! ### The obligations -/

/-- Settles O44: the record is `saveRecord`. -/
theorem saveReturnsTheRecord : Obligations.SaveReturnsTheRecord :=
  ⟨decode_ctlSave, fun s =>
    ⟨saveRecord s, exec_ctlSave s, rfl, rfl, saveRecord_pam s, saveRecord_dev s⟩⟩

/-- Settles O46: the check fails before the restore changes anything (`restoreBlock_mismatch`). -/
theorem restoreMismatchIsRefused : Obligations.RestoreMismatchIsRefused := by
  intro s r i hdiffer
  rw [exec_ctlRestore, restoreBlock_mismatch (not_slotsMatch i hdiffer), refuse, complete_stop]

end Sys2Proof.Machine
end

