-- ==== Sys2Proof/Proofs/AddressPersistence.lean ====
section
/-!
PROOFS. The configuration address register across requests: only an address-register write, a reset, an assembly or
a restore changes `CA` or `CYC` (70_reset_and_hazards.md R333).
-/

namespace Sys2Proof.Machine

/-! ### Keeping the address register -/

/-- `CA` and `CYC` are in `t` as they were in `s`. -/
abbrev AddressKept (s t : State) : Prop := t.ca = s.ca ∧ t.cyc = s.cyc

theorem AddressKept.refl (s : State) : AddressKept s s := ⟨rfl, rfl⟩

theorem AddressKept.trans {s t u : State} (h : AddressKept s t) (h' : AddressKept t u) : AddressKept s u :=
  ⟨h'.1.trans h.1, h'.2.trans h.2⟩

/-- A finished request keeps the address register if its operation does. -/
theorem AddressKept.of_complete {α : Type} {f : α → Reply} {r : Res α} {s t : State}
    (hkept : AddressKept s r.state) (hnext : complete f r = .next t) : AddressKept s t := by
  rw [complete_eq_next hnext]
  exact hkept

/-! ### Configuration data accesses (40_config_cycle.md R135-R139) -/

/-- A data-window write of any width, past the end of the window included: every byte step is one to the data
window, or the fatal that ends the request. No byte step reaches an address port again. -/
theorem portWrite_address {p : Port} (hp : 0xCFC ≤ p.toNat) (n : Nat) (v : Word) (s : State) :
    AddressKept s (portWrite n p v s).state := by
  induction n generalizing p v s with
  | zero => exact .refl s
  | succ n ih =>
    rw [portWrite]
    cases hdata : isDataPort p with
    | true =>
      have hsucc : 0xCFC ≤ (p + 1#16).toNat := by
        have := (isDataPort_iff p).mp hdata
        bv_omega
      rw [portWriteByte_data hdata]
      exact Res.andThen_state (R := AddressKept) .trans (dataWriteByte_address p _ s) fun _ t =>
        ih hsucc (v >>> 8) t
    | false =>
      have haddr : ¬ isAddrPort p = true := by
        rw [isAddrPort_iff]
        omega
      rw [portWriteByte, if_neg haddr, hdata]
      exact .refl s

/-- A port read of any width keeps the address register. -/
theorem portRead_address (n : Nat) (p : Port) (s : State) : AddressKept s (portRead n p s).state := by
  rcases portRead_cases n p s with ⟨r, h⟩ | ⟨q, h⟩ <;> rw [h] <;> exact ⟨rfl, rfl⟩

theorem writeRequest_address {n : Nat} {p : Port} (hp : isDataPort p = true) {v : Word} {s t : State}
    (h : writeRequest n p v s = .next t) : AddressKept s t :=
  .of_complete (portWrite_address ((isDataPort_iff p).mp hp).1 n v s) h

theorem readRequest_address {n : Nat} {p : Port} {s t : State} (h : readRequest n p s = .next t) :
    AddressKept s t :=
  .of_complete (portRead_address n p s) h

/-! ### Window and PRDT accesses -/

theorem shadowRead_address {n : Nat} {a : Addr} {s t : State} (h : shadowRead n a s = .next t) :
    AddressKept s t := by
  cases h
  rcases afterRead_cases n a s with ⟨-, e⟩ | ⟨-, e⟩ <;> rw [e] <;> exact ⟨rfl, rfl⟩

theorem shadowWrite_address {n : Nat} {a : Addr} {v : Word} {s t : State}
    (h : shadowWrite n a v s = .next t) : AddressKept s t := by
  cases h
  obtain ⟨m, l, e⟩ := memWrite_eq n a v s
  rw [e]
  exact ⟨rfl, rfl⟩

theorem forwardedRead_address {n : Nat} {p : Port} {s t : State} (h : forwardedRead n p s = .next t) :
    AddressKept s t := by
  unfold forwardedRead at h
  split at h
  · cases h; exact ⟨rfl, rfl⟩
  · split at h <;> cases h <;> exact ⟨rfl, rfl⟩

theorem forwardedWrite_address {n : Nat} {p : Port} {v : Word} {s t : State}
    (h : forwardedWrite n p v s = .next t) : AddressKept s t := by
  unfold forwardedWrite at h
  split at h
  · cases h; exact ⟨rfl, rfl⟩
  · split at h <;> cases h <;> exact ⟨rfl, rfl⟩

/-! ### Host operations -/

theorem createDevice_address (bus d f : Word) (k : Kind) (s : State) :
    AddressKept s (createDevice bus d f k s).state := by
  unfold createDevice
  split <;> exact ⟨rfl, rfl⟩

theorem configPtr_address (bus d f : Word) (s : State) : AddressKept s (configPtr bus d f s).state := by
  unfold configPtr
  split <;> exact ⟨rfl, rfl⟩

theorem copyDefault_address (i : SlotIndex) (image : List Byte) (n : Nat) (s : State) :
    AddressKept s (copyDefault i image n s).state := by
  unfold copyDefault
  split
  · exact ⟨rfl, rfl⟩
  · split <;> exact ⟨rfl, rfl⟩

theorem setIrqLine_address (x l : Word) (s : State) : AddressKept s (setIrqLine x l s).state := by
  unfold setIrqLine
  split
  · exact ⟨rfl, rfl⟩
  · split
    · exact ⟨rfl, rfl⟩
    · split <;> exact ⟨rfl, rfl⟩

/-! ### The obligation -/

/-- Settles O52, row by row: the rows of one kind share the lemma of their operation, and the rows that may change
the address register contradict `isAddrWriteRow i = false` or `isReloadRow i = false`. Well-formedness is what
keeps a data write off the address ports (`portWrite_address`). -/
theorem addressRegisterPersists : Obligations.AddressRegisterPersists := by
  intro i s t hwf hexec haddr hreload
  cases i with
  | cfgAddrW8 | cfgAddrW16 | cfgAddrW32 => cases haddr
  | ctlReset | ctlRestore | ctlInit => cases hreload
  | cfgAddrR8 | cfgAddrR16 | cfgAddrR32 | cfgDataR8 | cfgDataR16 | cfgDataR32 => exact readRequest_address hexec
  | cfgDataW8 | cfgDataW16 | cfgDataW32 => exact writeRequest_address hwf hexec
  | shadowR8 | shadowR16 | shadowR32 => exact shadowRead_address hexec
  | shadowW8 | shadowW16 | shadowW32 => exact shadowWrite_address hexec
  | prdtR8 | prdtR16 | prdtR32 => exact forwardedRead_address hexec
  | prdtW8 | prdtW16 | prdtW32 => exact forwardedWrite_address hexec
  | ctlCreateDevice bus d f k => exact AddressKept.of_complete (createDevice_address bus d f k s) hexec
  | ctlGetConfigPtr bus d f => exact AddressKept.of_complete (configPtr_address bus d f s) hexec
  | ctlCopyDefault i image n => exact AddressKept.of_complete (copyDefault_address i image n s) hexec
  | ctlSave =>
    cases hexec
    exact ⟨rfl, rfl⟩
  | ctlSetIrqLine x l => exact AddressKept.of_complete (setIrqLine_address x l s) hexec

end Sys2Proof.Machine
end

