-- ==== Sys2Proof/Proofs/ResetIdempotent.lean ====
section
/-!
PROOFS. The reset of the assembled machine and a second reset after it (70_reset_and_hazards.md R321, R324): the
first leaves a freshly reset block, and a reset of such a block only emits its events.
-/

namespace Sys2Proof.Machine

/-! ### A default image over itself -/

theorem withImage_withImage (image : List Byte) (space : CfgSpace) :
    withImage image (withImage image space) = withImage image space :=
  cfgOverlay_idem space image image.length

/-! ### The reset of one fixed slot -/

/-- Slot `i` holds a device of kind `k` whose configuration space begins with an image. -/
def State.HoldsImage (s : State) (i : SlotIndex) (k : Kind) (image : List Byte) : Prop :=
  ∃ space, s.slot i = some ⟨k, withImage image space⟩

theorem State.HoldsImage.of_slot_eq {s t : State} {i : SlotIndex} {k : Kind} {image : List Byte}
    (h : s.HoldsImage i k image) (hslot : t.slot i = s.slot i) : t.HoldsImage i k image := by
  obtain ⟨space, hs⟩ := h
  exact ⟨space, hslot.trans hs⟩

theorem State.kindAt_of_slot_eq {s t : State} {i : SlotIndex} (hslot : t.slot i = s.slot i) :
    t.kindAt i = s.kindAt i := by
  rw [State.kindAt, hslot, State.kindAt]

/-- A slot of its fixed kind gets its image; the other slots and the address register stay. -/
theorem resetDevice_fixedKind {s : State} {i : SlotIndex} {k : Kind} {image : List Byte} {n : Nat}
    {f : Nat → Byte} (h : s.kindAt i = some k) (hi : image = imageOf n f) (hn : n ≤ 256) :
    ∃ t, resetDevice i k image n s = .ok () t ∧ t.HoldsImage i k image ∧
      (∀ j, i ≠ j → t.slot j = s.slot j) ∧ AddressKept s t := by
  obtain ⟨d, hslot, rfl⟩ := Option.map_eq_some_iff.mp h
  refine ⟨s.putDevice i ⟨d.kind, withImage image d.cfg⟩, ?_, ⟨d.cfg, State.slot_putDevice_same ..⟩,
    fun j hij => slot_putDevice_ne s i j _ hij, .refl s⟩
  rw [hi, resetDevice_eq hslot d.kind f hn, if_pos rfl]

/-- A slot that holds its image already is left as it is. -/
theorem resetDevice_holdsImage {s : State} {i : SlotIndex} {k : Kind} {image : List Byte} {n : Nat}
    {f : Nat → Byte} (h : s.HoldsImage i k image) (hi : image = imageOf n f) (hn : n ≤ 256) :
    resetDevice i k image n s = .ok () s := by
  obtain ⟨space, hslot⟩ := h
  rw [hi] at hslot ⊢
  rw [resetDevice_eq hslot k f hn, if_pos rfl, withImage_withImage, State.putDevice_self hslot]

/-! ### The block reset -/

/-- What a reset leaves in the registers, the store, the map and the binding while the three fixed slots hold
their fixed kinds (70_reset_and_hazards.md R323). -/
structure State.FreshlyReset (s : State) : Prop where
  ca : s.ca = 0
  cyc : s.cyc = false
  hostBridge : s.HoldsImage 0#8 .hostBridge imgHb
  isaBridge : s.HoldsImage 8#8 .isaBridge imgIsa
  ideController : s.HoldsImage 9#8 .ideController imgIde
  pam : s.pam = Vector.replicate 16 0
  prdt : s.prdt = some 0xC000#16

/-- The end of a reset once the IDE controller holds its image. -/
theorem replayZeroMap_ideImage {s : State} (h : s.HoldsImage 9#8 .ideController imgIde) :
    replayMapAndRemap (fun _ => 0#8) s =
      .ok ()
        { s with
          pam := Vector.replicate 16 0
          prdt := some 0xC000#16
          trace := s.trace ++ noticesOfMap (fun _ => 0) ++ rebindEvents s.prdt 0xC000#16 } := by
  obtain ⟨space, hslot⟩ := h
  rw [replayZeroMap_eq hslot fun _ => imgIde_bar4 space _ rfl, if_pos rfl, if_pos rfl]

/-- The reset of the fixed kinds completes and leaves a freshly reset block. -/
theorem resetBlock_fixedKinds {s : State} (h0 : s.kindAt 0#8 = some .hostBridge)
    (h8 : s.kindAt 8#8 = some .isaBridge) (h9 : s.kindAt 9#8 = some .ideController) :
    ∃ t, resetBlock s = .ok () t ∧ t.FreshlyReset := by
  obtain ⟨s1, reset0, image0, slots0, addr0⟩ := resetDevice_fixedKind (n := 128)
    (s := { s with ca := 0#32, cyc := false }) h0 (rfl : imgHb = _) (by omega)
  have kind8 : s1.kindAt 8#8 = some .isaBridge := (State.kindAt_of_slot_eq (slots0 _ (by decide))).trans h8
  obtain ⟨s2, reset8, image8, slots8, addr8⟩ :=
    resetDevice_fixedKind (n := 192) kind8 (rfl : imgIsa = _) (by omega)
  have kind9 : s2.kindAt 9#8 = some .ideController :=
    (State.kindAt_of_slot_eq ((slots8 _ (by decide)).trans (slots0 _ (by decide)))).trans h9
  obtain ⟨s3, reset9, image9, slots9, addr9⟩ :=
    resetDevice_fixedKind (n := 64) kind9 (rfl : imgIde = _) (by omega)
  obtain ⟨hca, hcyc⟩ := addr0.trans (addr8.trans addr9)
  rw [resetBlock, reset0, Res.andThen_ok, reset8, Res.andThen_ok, reset9, Res.andThen_ok,
    replayZeroMap_ideImage image9]
  exact ⟨_, rfl, hca, hcyc, image0.of_slot_eq ((slots9 _ (by decide)).trans (slots8 _ (by decide))),
    image8.of_slot_eq (slots9 _ (by decide)), image9, rfl, rfl⟩

/-- The reset of a freshly reset block changes nothing and emits its events (70_reset_and_hazards.md R324). -/
theorem resetBlock_freshlyReset {s : State} (h : s.FreshlyReset) :
    resetBlock s =
      .ok () { s with
        trace := s.trace ++ noticesOfMap (fun _ => 0) ++ [.unbind 0xC000#16, .bind 0xC000#16] } := by
  have cleared : { s with ca := 0#32, cyc := false } = s := by
    rw [← h.cyc, ← show s.ca = 0#32 from h.ca]
  have hostBridge : resetDevice 0#8 .hostBridge imgHb 128 s = .ok () s :=
    resetDevice_holdsImage h.hostBridge rfl (by omega)
  have isaBridge : resetDevice 8#8 .isaBridge imgIsa 192 s = .ok () s :=
    resetDevice_holdsImage h.isaBridge rfl (by omega)
  have ideController : resetDevice 9#8 .ideController imgIde 64 s = .ok () s :=
    resetDevice_holdsImage h.ideController rfl (by omega)
  have events : rebindEvents s.prdt 0xC000#16 = [.unbind 0xC000#16, .bind 0xC000#16] := by
    rw [h.prdt]
    rfl
  rw [resetBlock, cleared, hostBridge, Res.andThen_ok, isaBridge, Res.andThen_ok, ideController, Res.andThen_ok,
    replayZeroMap_ideImage h.ideController, events, ← h.pam, ← h.prdt]

/-! ### The request and the obligation -/

theorem exec_ctlReset (s : State) : exec .ctlReset s = complete (fun _ => .done) (resetBlock s) := rfl

/-- Settles O41: the first reset leaves a freshly reset block (`resetBlock_fixedKinds`), and a reset of that only
emits its events (`resetBlock_freshlyReset`). -/
theorem resetIsIdempotent : Obligations.ResetIsIdempotent := by
  intro s t h0 h8 h9 hfirst
  obtain ⟨u, hreset, hu⟩ := resetBlock_fixedKinds h0 h8 h9
  rw [exec_ctlReset, hreset, complete_ok] at hfirst
  cases hfirst
  have ht : State.FreshlyReset { u with reply := .done } :=
    ⟨hu.ca, hu.cyc, hu.hostBridge, hu.isaBridge, hu.ideController, hu.pam, hu.prdt⟩
  rw [exec_ctlReset, resetBlock_freshlyReset ht, complete_ok]

end Sys2Proof.Machine
end

