-- ==== Sys2Proof/Proofs/DescriptorCodec.lean ====
section
/-!
PROOFS. The decoder and the encoder: each gives back what the other was given, and the descriptors the decoder
refuses or finds not to be the block's (30_encoding.md R101-R107, R116, R120).
-/

namespace Sys2Proof

/-! ### The validity checks (30_encoding.md R107) -/

/-- The top byte of a descriptor from its SPACE, DIR and SIZE (R102). -/
def topByte (space : BitVec 4) (write : Bool) (size : BitVec 3) : Byte :=
  space.setWidth 8 <<< 4 ||| (if write then 8#8 else 0#8) ||| size.setWidth 8

/-- What the checks let through, space by space. -/
theorem descriptorProblem_none_iff (td : BitVec 64) :
    descriptorProblem td = none ↔
      tdReserved td = 0#16 ∧
        ((tdSpace td = 1#4 ∧ tdSize td ∈ [1#3, 2#3, 4#3] ∧ (tdAddr td).extractLsb' 16 16 = 0#16 ∧
            tdOp td = 0#8) ∨
          (tdSpace td = 2#4 ∧ tdSize td ∈ [1#3, 2#3, 4#3] ∧ tdOp td = 0#8) ∨
          (tdSpace td = 3#4 ∧ tdDir td = false ∧ tdSize td = 0#3 ∧ tdAddr td = 0#32)) := by
  unfold descriptorProblem
  grind

theorem descriptorProblem_reserved {td : BitVec 64} (h : tdReserved td ≠ 0 ∨ tdSpace td ∉ [1#4, 2#4, 3#4]) :
    descriptorProblem td = some .badDescriptor := by
  rw [descriptorProblem, if_pos (by simpa using h)]

theorem descriptorProblem_size {td : BitVec 64} (hres : tdReserved td = 0) (hspace : tdSpace td ∈ [1#4, 2#4])
    (hsize : tdSize td ∉ [1#3, 2#3, 4#3]) : descriptorProblem td = some .badSize := by
  have haccess : tdSpace td ≠ 3#4 := by
    rintro h
    rw [h] at hspace
    exact absurd hspace (by decide)
  rw [descriptorProblem, if_neg (by grind), if_pos ⟨haccess, by simpa using hsize⟩]

theorem descriptorProblem_ctl {td : BitVec 64} (hres : tdReserved td = 0) (hspace : tdSpace td = 3#4)
    (h : tdDir td = true ∨ tdSize td ≠ 0 ∨ tdAddr td ≠ 0) : descriptorProblem td = some .badDescriptor := by
  rw [descriptorProblem, if_neg (by simp [hres, hspace]), if_neg (by simp [hspace]), if_pos ⟨hspace, h⟩]

theorem descriptorProblem_port {td : BitVec 64} (hres : tdReserved td = 0) (hspace : tdSpace td = 1#4)
    (hsize : tdSize td ∈ [1#3, 2#3, 4#3]) (hport : (tdAddr td).extractLsb' 16 16 ≠ 0#16) :
    descriptorProblem td = some .badDescriptor := by
  have hlegal : ¬(tdSize td ≠ 1#3 ∧ tdSize td ≠ 2#3 ∧ tdSize td ≠ 4#3) := by grind
  rw [descriptorProblem, if_neg (by simp [hres, hspace]), if_neg fun h => hlegal h.2, if_neg (by simp [hspace]),
    if_pos ⟨hspace, hport⟩]

/-! ### Decoding by space -/

theorem decode_problem {q : Request} {r : Reject} (h : descriptorProblem q.td = some r) (prdt : Option Port) :
    decode prdt q = .error r := by
  rw [decode, h]

theorem decode_io {q : Request} (h : descriptorProblem q.td = none) (hspace : tdSpace q.td = 1#4)
    (prdt : Option Port) :
    decode prdt q = decodeIo prdt (tdDir q.td) (tdSize q.td) (tdPort q.td) q.operands.wdata := by
  simp only [decode, h, hspace, if_true]

theorem decode_mem {q : Request} (h : descriptorProblem q.td = none) (hspace : tdSpace q.td = 2#4)
    (prdt : Option Port) :
    decode prdt q = decodeMem (tdDir q.td) (tdSize q.td) (tdAddr q.td) q.operands.wdata := by
  simp only [decode, h, hspace, if_true]
  rfl

/-- An I/O request with a legal size is read by the I/O rows. -/
theorem decode_portRequest {top : Byte} (hspace : top.extractLsb' 4 4 = 1#4)
    (hsize : top.setWidth 3 ∈ [1#3, 2#3, 4#3]) (prdt : Option Port) (p : Port) (v : Word) :
    decode prdt (accessRequest top (p.setWidth 32) v) =
      decodeIo prdt (top.getLsbD 3) (top.setWidth 3) p v := by
  have valid : descriptorProblem (accessRequest top (p.setWidth 32) v).td = none := by
    rw [descriptorProblem_none_iff]
    exact ⟨tdReserved_tdOf .., .inl ⟨(tdSpace_tdOf ..).trans hspace, (tdSize_tdOf top 0#8 _).symm ▸ hsize,
      (tdAddr_tdOf top 0#8 _).symm ▸ Machine.port_extractLsb_high p, tdOp_tdOf ..⟩⟩
  rw [decode_io valid (by simp [accessRequest, hspace])]
  simp [accessRequest]

/-- A memory request with a legal size is read by the memory rows. -/
theorem decode_addrRequest {top : Byte} (hspace : top.extractLsb' 4 4 = 2#4)
    (hsize : top.setWidth 3 ∈ [1#3, 2#3, 4#3]) (prdt : Option Port) (a : Addr) (v : Word) :
    decode prdt (accessRequest top a v) = decodeMem (top.getLsbD 3) (top.setWidth 3) a v := by
  have valid : descriptorProblem (accessRequest top a v).td = none := by
    rw [descriptorProblem_none_iff]
    exact ⟨tdReserved_tdOf .., .inr (.inl ⟨(tdSpace_tdOf ..).trans hspace,
      (tdSize_tdOf top 0#8 a).symm ▸ hsize, tdOp_tdOf ..⟩)⟩
  rw [decode_mem valid (by simp [accessRequest, hspace])]
  simp [accessRequest]

/-- A control request is read by the row of its OP. -/
theorem decode_ctlRequest (prdt : Option Port) (op : BitVec 8) (x : RequestOperands) :
    decode prdt (ctlRequest op x) = decodeCtl op x := by
  have valid : descriptorProblem (tdOf 0x30#8 op 0#32) = none := by simp [descriptorProblem_none_iff]
  exact decode_ctl valid (by simp) (by simp) prdt x

/-! ### The rows of a port and of an address, in their priority (30_encoding.md R107) -/

section Rows

variable {p : Port} (prdt : Option Port) (write : Bool) (size : BitVec 3) (v : Word)

theorem decodeIo_addrPort (h : isAddrPort p = true) :
    decodeIo prdt write size p v = .ok (decodeCfgAddr write size p v) :=
  if_pos h

theorem decodeIo_dataPort (h : isDataPort p = true) :
    decodeIo prdt write size p v = .ok (decodeCfgData write size p v) := by
  simp [decodeIo, h, Machine.dataPort_not_addr h]

theorem decodeIo_otherPort (h : (!isAddrPort p && !isDataPort p) = true) :
    decodeIo prdt write size p v =
      if inBinding prdt p then .ok (decodePrdt write size p v) else .error .notThisBlock := by
  simp only [Bool.and_eq_true, Bool.not_eq_true'] at h
  obtain ⟨haddr, hdata⟩ := h
  simp [decodeIo, haddr, hdata]

theorem decodeIo_prdtPort (h : (!isAddrPort p && !isDataPort p) = true) (hb : inBinding prdt p = true) :
    decodeIo prdt write size p v = .ok (decodePrdt write size p v) := by
  rw [decodeIo_otherPort prdt write size v h, if_pos hb]

theorem decodeMem_inWindow {a : Addr} (h : inWindow a = true) :
    decodeMem write size a v = .ok (decodeShadow write size a v) :=
  if_pos h

end Rows

/-! ### Decoding an encoding -/

/-- Settles O4: the I/O and memory descriptors evaluate; the control descriptors are built by `ctlRequest`. -/
theorem sampleDescriptorsDecode : Obligations.SampleDescriptorsDecode :=
  ⟨by decide, by decide, by decide, by decide, by decide,
    decode_ctlRequest none 0x07#8 { deviceIndex := 9, level := 1 }, decode_ctlRequest none 0x08#8 {}⟩

/-- Settles O5: the top byte of each row selects its space, direction and size (`decode_portRequest`,
`decode_addrRequest`, `decode_ctlRequest`), well-formedness and the binding its row, and narrowing the data of a
write undoes the widening. -/
theorem decodeOfEncode : Obligations.DecodeOfEncode := by
  intro prdt i hwf hclaim
  cases i with
  | cfgAddrW8 | cfgAddrW16 | cfgAddrW32 | cfgAddrR8 | cfgAddrR16 | cfgAddrR32 =>
    rw [encode, decode_portRequest (by decide) (by decide), decodeIo_addrPort _ _ _ _ hwf]
    simp [decodeCfgAddr]
  | cfgDataW8 | cfgDataW16 | cfgDataW32 | cfgDataR8 | cfgDataR16 | cfgDataR32 =>
    rw [encode, decode_portRequest (by decide) (by decide), decodeIo_dataPort _ _ _ _ hwf]
    simp [decodeCfgData]
  | shadowR8 | shadowR16 | shadowR32 | shadowW8 | shadowW16 | shadowW32 =>
    rw [encode, decode_addrRequest (by decide) (by decide), decodeMem_inWindow _ _ _ hwf]
    simp [decodeShadow]
  | prdtR8 | prdtR16 | prdtR32 | prdtW8 | prdtW16 | prdtW32 =>
    rw [encode, decode_portRequest (by decide) (by decide), decodeIo_prdtPort _ _ _ _ hwf hclaim]
    simp [decodePrdt]
  | ctlCreateDevice | ctlGetConfigPtr | ctlCopyDefault | ctlReset | ctlSave | ctlRestore | ctlSetIrqLine
  | ctlInit =>
    rw [encode, decode_ctlRequest]
    rfl

/-! ### Encoding what was decoded -/

/-- The request is well-formed, claimed by the binding, and spelled by the descriptor. -/
structure SpelledBy (prdt : Option Port) (td : BitVec 64) (i : Instr) : Prop where
  td : (encode i).td = td
  wellFormed : WellFormed i = true
  claimed : Claimed prdt i = true

section Spelled

variable {write : Bool} {size : BitVec 3} {p : Port} {a : Addr} {prdt : Option Port} {v : Word}

theorem decodeCfgAddr_spelledBy (hsize : size ∈ [1#3, 2#3, 4#3]) (hp : isAddrPort p = true) :
    SpelledBy prdt (tdOf (topByte 1#4 write size) 0#8 (p.setWidth 32)) (decodeCfgAddr write size p v) := by
  simp only [List.mem_cons, List.not_mem_nil, or_false] at hsize
  rcases hsize with rfl | rfl | rfl <;> cases write <;> exact ⟨rfl, hp, rfl⟩

theorem decodeCfgData_spelledBy (hsize : size ∈ [1#3, 2#3, 4#3]) (hp : isDataPort p = true) :
    SpelledBy prdt (tdOf (topByte 1#4 write size) 0#8 (p.setWidth 32)) (decodeCfgData write size p v) := by
  simp only [List.mem_cons, List.not_mem_nil, or_false] at hsize
  rcases hsize with rfl | rfl | rfl <;> cases write <;> exact ⟨rfl, hp, rfl⟩

theorem decodePrdt_spelledBy (hsize : size ∈ [1#3, 2#3, 4#3]) (hp : (!isAddrPort p && !isDataPort p) = true)
    (hb : inBinding prdt p = true) :
    SpelledBy prdt (tdOf (topByte 1#4 write size) 0#8 (p.setWidth 32)) (decodePrdt write size p v) := by
  simp only [List.mem_cons, List.not_mem_nil, or_false] at hsize
  rcases hsize with rfl | rfl | rfl <;> cases write <;> exact ⟨rfl, hp, hb⟩

theorem decodeShadow_spelledBy (hsize : size ∈ [1#3, 2#3, 4#3]) (ha : inWindow a = true) :
    SpelledBy prdt (tdOf (topByte 2#4 write size) 0#8 a) (decodeShadow write size a v) := by
  simp only [List.mem_cons, List.not_mem_nil, or_false] at hsize
  rcases hsize with rfl | rfl | rfl <;> cases write <;> exact ⟨rfl, ha, rfl⟩

end Spelled

theorem decodeIo_spelledBy {prdt : Option Port} {write : Bool} {size : BitVec 3} {p : Port} {v : Word} {i : Instr}
    (hsize : size ∈ [1#3, 2#3, 4#3]) (h : decodeIo prdt write size p v = .ok i) :
    SpelledBy prdt (tdOf (topByte 1#4 write size) 0#8 (p.setWidth 32)) i := by
  unfold decodeIo at h
  split at h
  · cases h
    exact decodeCfgAddr_spelledBy hsize ‹_›
  · split at h
    · cases h
      exact decodeCfgData_spelledBy hsize ‹_›
    · split at h
      · cases h
        exact decodePrdt_spelledBy hsize (by simp_all) ‹_›
      · cases h

theorem decodeMem_spelledBy {prdt : Option Port} {write : Bool} {size : BitVec 3} {a : Addr} {v : Word} {i : Instr}
    (hsize : size ∈ [1#3, 2#3, 4#3]) (h : decodeMem write size a v = .ok i) :
    SpelledBy prdt (tdOf (topByte 2#4 write size) 0#8 a) i := by
  unfold decodeMem at h
  split at h
  · cases h
    exact decodeShadow_spelledBy hsize ‹_›
  · cases h

theorem decodeCtl_spelledBy {prdt : Option Port} {op : BitVec 8} {x : RequestOperands} {i : Instr}
    (h : decodeCtl op x = .ok i) : SpelledBy prdt (tdOf (topByte 3#4 false 0#3) op 0#32) i := by
  unfold decodeCtl at h
  split_ifs at h <;> cases h <;> subst op <;> exact ⟨rfl, rfl, rfl⟩

/-- A descriptor whose reserved bits are 0 is built from its SPACE, DIR, SIZE, OP and ADDR. -/
theorem td_eq_fields {td : BitVec 64} (h : tdReserved td = 0#16) :
    td = tdOf (topByte (tdSpace td) (tdDir td) (tdSize td)) (tdOp td) (tdAddr td) := by
  rw [topByte, ← Machine.topByte_eq]
  exact Machine.td_eq_tdOf td h

/-- Settles O6: the checks leave three kinds of descriptor (`descriptorProblem_none_iff`), each built from its
fields (`td_eq_fields`), and the row read from those fields is spelled by them. -/
theorem encodeOfDecode : Obligations.EncodeOfDecode := by
  intro prdt q i h
  suffices hs : SpelledBy prdt q.td i from ⟨hs.td, hs.wellFormed, hs.claimed⟩
  cases hvalid : descriptorProblem q.td with
  | some r =>
    rw [decode_problem hvalid] at h
    cases h
  | none =>
    obtain ⟨hres, ⟨hspace, hsize, hhigh, hop⟩ | ⟨hspace, hsize, hop⟩ | ⟨hspace, hdir, hsize, haddr⟩⟩ :=
      (descriptorProblem_none_iff _).mp hvalid
    · rw [decode_io hvalid hspace] at h
      rw [td_eq_fields hres, hspace, hop, ← Machine.tdPort_setWidth _ hhigh]
      exact decodeIo_spelledBy hsize h
    · rw [decode_mem hvalid hspace] at h
      rw [td_eq_fields hres, hspace, hop]
      exact decodeMem_spelledBy hsize h
    · rw [show decode prdt q = decodeCtl (tdOp q.td) q.operands from decode_ctl hvalid hspace rfl prdt _] at h
      rw [td_eq_fields hres, hspace, hdir, hsize, haddr]
      exact decodeCtl_spelledBy h

/-! ### Refused descriptors and foreign accesses -/

theorem inBinding_false {prdt : Option Port} {p : Port}
    (h : ∀ b, prdt = some b → p.toNat < b.toNat ∨ b.toNat + 15 < p.toNat) : inBinding prdt p = false := by
  cases prdt with
  | none => rfl
  | some b =>
    have := h b rfl
    exact decide_eq_false (by omega)

theorem decodeCtl_unknownOp {op : BitVec 8} (h : op = 0 ∨ 8 < op.toNat) (x : RequestOperands) :
    decodeCtl op x = .error .badDescriptor := by
  have hne : ∀ k : Nat, 0 < k ∧ k ≤ 8 → op ≠ BitVec.ofNat 8 k := by
    rintro k hk rfl
    rcases h with h | h
    · have := congrArg BitVec.toNat h
      simp at this
      omega
    · simp at h
      omega
  unfold decodeCtl
  rw [if_neg (hne 1 (by omega)), if_neg (hne 2 (by omega)), if_neg (hne 3 (by omega)), if_neg (hne 4 (by omega)),
    if_neg (hne 5 (by omega)), if_neg (hne 6 (by omega)), if_neg (hne 7 (by omega)), if_neg (hne 8 (by omega))]

theorem decode_malformedCtl {q : Request} (hres : tdReserved q.td = 0) (hspace : tdSpace q.td = 3#4)
    (h : tdDir q.td = true ∨ tdSize q.td ≠ 0 ∨ tdAddr q.td ≠ 0 ∨ tdOp q.td = 0 ∨ 8 < (tdOp q.td).toNat)
    (prdt : Option Port) : decode prdt q = .error .badDescriptor := by
  by_cases hform : tdDir q.td = true ∨ tdSize q.td ≠ 0 ∨ tdAddr q.td ≠ 0
  · exact decode_problem (descriptorProblem_ctl hres hspace hform) prdt
  · have hvalid : descriptorProblem q.td = none := by
      rw [descriptorProblem_none_iff]
      exact ⟨hres, .inr (.inr ⟨hspace, by simp_all, by simp_all, by simp_all⟩)⟩
    have hop : tdOp q.td = 0 ∨ 8 < (tdOp q.td).toNat := by
      simp only [not_or] at hform
      obtain ⟨hdir, hsize, haddr⟩ := hform
      exact ((h.resolve_left hdir).resolve_left hsize).resolve_left haddr
    exact (decode_ctl hvalid hspace rfl prdt q.operands).trans (decodeCtl_unknownOp hop _)

theorem high_ne_zero_of_lt {a : Word} (h : 0xFFFF < a.toNat) : a.extractLsb' 16 16 ≠ 0#16 := by
  intro h0
  have := congrArg BitVec.toNat h0
  simp only [BitVec.extractLsb'_toNat, Nat.shiftRight_eq_div_pow, BitVec.toNat_ofNat] at this
  have := a.isLt
  omega

/-- Settles O7: the validity checks one by one, then the ports and addresses no row claims. -/
theorem rejectedDescriptors : Obligations.RejectedDescriptors := by
  refine ⟨fun prdt q => ⟨fun h => ?reserved, fun hres hspace hsize => ?size, fun hres hspace h => ?ctl,
    fun hres hspace hsize hport => ?port⟩, fun prdt p v haddr hdata hb top htop => ?foreignPort,
    fun prdt a v ha top htop => ?foreignAddr⟩
  case reserved => exact decode_problem (descriptorProblem_reserved h) prdt
  case size => exact decode_problem (descriptorProblem_size hres hspace hsize) prdt
  case ctl => exact decode_malformedCtl hres hspace h prdt
  case port => exact decode_problem (descriptorProblem_port hres hspace hsize (high_ne_zero_of_lt hport)) prdt
  case foreignPort =>
    have io : ∀ t ∈ [0x11#8, 0x12#8, 0x14#8, 0x19#8, 0x1A#8, 0x1C#8],
        t.extractLsb' 4 4 = 1#4 ∧ t.setWidth 3 ∈ [1#3, 2#3, 4#3] := by decide
    obtain ⟨hspace, hsize⟩ := io top htop
    rw [decode_portRequest hspace hsize, decodeIo_otherPort _ _ _ _ (by simp [haddr, hdata]), inBinding_false hb]
    rfl
  case foreignAddr =>
    have mem : ∀ t ∈ [0x21#8, 0x22#8, 0x24#8, 0x29#8, 0x2A#8, 0x2C#8],
        t.extractLsb' 4 4 = 2#4 ∧ t.setWidth 3 ∈ [1#3, 2#3, 4#3] := by decide
    obtain ⟨hspace, hsize⟩ := mem top htop
    have outside : ¬ inWindow a = true := by
      rw [inWindow_iff]
      omega
    rw [decode_addrRequest hspace hsize]
    exact if_neg outside

end Sys2Proof
end

