-- ==== Sys2Proof/Proofs/RequestSteps.lean ====
section
/-!
PROOFS. One step of the block: it performs the oldest waiting request, or takes no step once stopped
(10_state.md R31, R33; 60_exceptions.md R296, R299).
-/

namespace Sys2Proof.Machine

/-! ### A running block (10_state.md R31, R33) -/

theorem step_idle {s : State} (hrun : s.Running) (hpending : s.pending = []) : step s = .next s := by
  obtain ⟨hfault, hrefusal⟩ := hrun
  simp only [step, hfault, hrefusal, nextRequest, hpending]

theorem step_waiting {s : State} {q : Request} {rest : List Request} (hrun : s.Running)
    (hpending : s.pending = q :: rest) : step s = performRequest q { s with pending := rest } := by
  obtain ⟨hfault, hrefusal⟩ := hrun
  simp only [step, hfault, hrefusal, nextRequest, hpending]

theorem step_decoded {s : State} {q : Request} {rest : List Request} {i : Instr} (hrun : s.Running)
    (hpending : s.pending = q :: rest) (hdecode : decode s.prdt q = .ok i) :
    step s = exec i { s with pending := rest } := by
  simp only [step_waiting hrun hpending, performRequest, hdecode]

theorem step_rejected {s : State} {q : Request} {rest : List Request} {r : Reject} (hrun : s.Running)
    (hpending : s.pending = q :: rest) (hdecode : decode s.prdt q = .error r) :
    step s = rejectRequest r { s with pending := rest } := by
  simp only [step_waiting hrun hpending, performRequest, hdecode]

/-! ### A stopped block (60_exceptions.md R296, R299) -/

theorem step_faulted {s : State} {r : FatalReason} (hfault : s.fault = some r) :
    step s = .fault (.halted r) := by
  simp only [step, hfault]

theorem step_refused {s : State} {r : RefuseReason} (hfault : s.fault = none) (hrefusal : s.refusal = some r) :
    step s = .refused (.marked r) := by
  simp only [step, hfault, hrefusal]

theorem running_of_step_next {s t : State} (h : step s = .next t) : s.Running := by
  cases hfault : s.fault with
  | some r =>
    rw [step_faulted hfault] at h
    cases h
  | none =>
    cases hrefusal : s.refusal with
    | some r =>
      rw [step_refused hfault hrefusal] at h
      cases h
    | none => exact ⟨hfault, hrefusal⟩

/-- What a step that answers a next state does: nothing without a waiting request, else the oldest request is
performed or rejected, on the state that no longer holds it. -/
theorem step_cases {s t : State} (h : step s = .next t) :
    t = s ∨ ∃ (q : Request) (rest : List Request), s.pending = q :: rest ∧
      ((∃ i, decode s.prdt q = .ok i ∧ exec i { s with pending := rest } = .next t) ∨
        ∃ r, rejectRequest r { s with pending := rest } = .next t) := by
  have hrun := running_of_step_next h
  cases hpending : s.pending with
  | nil =>
    rw [step_idle hrun hpending] at h
    cases h
    exact .inl rfl
  | cons q rest =>
    refine .inr ⟨q, rest, rfl, ?_⟩
    cases hdecode : decode s.prdt q with
    | ok i => exact .inl ⟨i, rfl, by rw [← step_decoded hrun hpending hdecode, h]⟩
    | error r => exact .inr ⟨r, by rw [← step_rejected hrun hpending hdecode, h]⟩

/-! ### The obligations -/

/-- Settles O1. -/
theorem stepRunsTheDecodedRequest : Obligations.StepRunsTheDecodedRequest :=
  fun _ _ _ _ hrun hpending hdecode => step_decoded hrun hpending hdecode

/-- Settles O2: the three ways `rejectRequest` ends. -/
theorem stepOnUndecodedRequest : Obligations.StepOnUndecodedRequest := by
  refine fun s q rest hrun hpending => ⟨fun h => ?badDescriptor, fun h => ?badSize, fun h => ?notThisBlock⟩
  case badDescriptor => rw [step_rejected hrun hpending h, rejectRequest, refuse, complete_stop]
  case badSize => rw [step_rejected hrun hpending h, rejectRequest, refuse, complete_stop]
  case notThisBlock => rw [step_rejected hrun hpending h, rejectRequest, notClaimed]

/-- Settles O3: the fault is looked at before the refusal mark, and both before the queue. -/
theorem stoppedBlockTakesNoStep : Obligations.StoppedBlockTakesNoStep :=
  fun _ => ⟨fun _ hfault => step_faulted hfault, fun _ hfault hrefusal => step_refused hfault hrefusal⟩

end Sys2Proof.Machine
end

