-- ==== Sys2Proof/Proofs/RowFrames.lean ====
section
/-!
PROOFS. What a whole request of each kind can change: the frames of `Laws/Frames.lean` carried from the operations to
the rows, and the statements about every request that follow from them (00_scope.md R13; 10_state.md R40, R47;
20_memory.md R82, R83).
-/

namespace Sys2Proof.Machine

/-! ### The read, window and PRDT rows, field by field -/

/-- A port read changes the reply alone, or ends in the fatal of an unrecognized port. -/
theorem readRequest_cases {n : Nat} {p : Port} {s t : State} (h : readRequest n p s = .next t) :
    t = { s with reply := t.reply } ∨
      ∃ q, t = { s with fault := some (.unrecognizedPort q), reply := t.reply } := by
  have ht := complete_eq_next h
  rcases portRead_cases n p s with ⟨r, e⟩ | ⟨q, e⟩ <;> rw [e] at ht
  · exact .inl ht
  · exact .inr ⟨q, ht⟩

/-- A window read changes the reply and the counter alone. -/
theorem shadowRead_frame {n : Nat} {a : Addr} {s t : State} (h : shadowRead n a s = .next t) :
    t = { s with draws := t.draws, reply := t.reply } := by
  cases h
  rcases afterRead_cases n a s with ⟨-, e⟩ | ⟨-, e⟩ <;> rw [e]
  rfl

/-- A window write changes the window, the log and the reply alone, and keeps the form of the window. -/
theorem shadowWrite_frame {n : Nat} {a : Addr} {v : Word} {s t : State} (h : shadowWrite n a v s = .next t) :
    t = { s with win := t.win, log := t.log, reply := t.reply } ∧ (WindowInv s.win → WindowInv t.win) := by
  cases h
  refine ⟨?_, memWrite_windowInv n a v s⟩
  obtain ⟨m, l, e⟩ := memWrite_eq n a v s
  rw [e]

/-- A PRDT read changes the reply and the counter alone. -/
theorem forwardedRead_frame {n : Nat} {p : Port} {s t : State} (h : forwardedRead n p s = .next t) :
    t = { s with draws := t.draws, reply := t.reply } := by
  unfold forwardedRead at h
  split at h
  · cases h; rfl
  · split at h <;> cases h <;> rfl

/-- A PRDT write changes the trace, which it extends, and the reply alone. -/
theorem forwardedWrite_frame {n : Nat} {p : Port} {v : Word} {s t : State}
    (h : forwardedWrite n p v s = .next t) :
    t = { s with trace := t.trace, reply := t.reply } ∧ s.trace <+: t.trace := by
  unfold forwardedWrite at h
  split at h
  · cases h; exact ⟨rfl, List.prefix_rfl⟩
  · split at h
    · cases h; exact ⟨rfl, List.prefix_append _ _⟩
    · cases h; exact ⟨rfl, List.prefix_rfl⟩

/-! ### The frames of the operations, for whole requests -/

/-- The frame of an operation is that of its finished request, but for the reply. -/
theorem BlockFrame.of_complete {α : Type} {f : α → Reply} {r : Res α} {s t : State}
    (hframe : BlockFrame s r.state) (h : complete f r = .next t) :
    BlockFrame s { t with reply := s.reply } := by
  have ht : { t with reply := s.reply } = r.state := by
    rw [complete_eq_next h, ← hframe.reply]
  rwa [ht]

theorem StoreFrame.of_complete {α : Type} {f : α → Reply} {r : Res α} {s t : State}
    (hframe : StoreFrame s r.state) (h : complete f r = .next t) :
    StoreFrame s { t with reply := s.reply } := by
  have ht : { t with reply := s.reply } = r.state := by
    rw [complete_eq_next h, ← hframe.reply]
  rwa [ht]

theorem writeRequest_storeFrame {n : Nat} {p : Port} {v : Word} {s t : State}
    (h : writeRequest n p v s = .next t) : StoreFrame s { t with reply := s.reply } :=
  .of_complete (.portWrite n p v s) h

theorem readRequest_storeFrame {n : Nat} {p : Port} {s t : State} (h : readRequest n p s = .next t) :
    StoreFrame s { t with reply := s.reply } := by
  rcases readRequest_cases h with e | ⟨q, e⟩ <;> rw [e] <;> exact .of_eq rfl rfl rfl rfl List.prefix_rfl rfl

theorem shadowRead_storeFrame {n : Nat} {a : Addr} {s t : State} (h : shadowRead n a s = .next t) :
    StoreFrame s { t with reply := s.reply } := by
  rw [shadowRead_frame h]
  exact .of_eq rfl rfl rfl rfl List.prefix_rfl rfl

theorem forwardedRead_storeFrame {n : Nat} {p : Port} {s t : State} (h : forwardedRead n p s = .next t) :
    StoreFrame s { t with reply := s.reply } := by
  rw [forwardedRead_frame h]
  exact .of_eq rfl rfl rfl rfl List.prefix_rfl rfl

theorem forwardedWrite_storeFrame {n : Nat} {p : Port} {v : Word} {s t : State}
    (h : forwardedWrite n p v s = .next t) : StoreFrame s { t with reply := s.reply } := by
  obtain ⟨e, htrace⟩ := forwardedWrite_frame h
  rw [e]
  exact .of_eq rfl rfl rfl rfl htrace rfl

theorem StoreFrame.configPtr (bus d f : Word) (s : State) : StoreFrame s (configPtr bus d f s).state := by
  unfold Machine.configPtr
  split
  · exact .raise _ s
  · exact .refl s

/-- Every request but a window write, a device creation and an assembly keeps the frame of the store. -/
theorem exec_storeFrame {i : Instr} {s t : State} (h : exec i s = .next t) (hwindow : isShadowWriteRow i = false)
    (hcreate : ∀ b d f k, i ≠ .ctlCreateDevice b d f k) (hinit : i ≠ .ctlInit) :
    StoreFrame s { t with reply := s.reply } := by
  cases i with
  | shadowW8 | shadowW16 | shadowW32 => cases hwindow
  | ctlCreateDevice b d f k => exact absurd rfl (hcreate b d f k)
  | ctlInit => exact absurd rfl hinit
  | cfgAddrW8 | cfgAddrW16 | cfgAddrW32 | cfgDataW8 | cfgDataW16 | cfgDataW32 =>
    exact writeRequest_storeFrame h
  | cfgAddrR8 | cfgAddrR16 | cfgAddrR32 | cfgDataR8 | cfgDataR16 | cfgDataR32 => exact readRequest_storeFrame h
  | shadowR8 | shadowR16 | shadowR32 => exact shadowRead_storeFrame h
  | prdtR8 | prdtR16 | prdtR32 => exact forwardedRead_storeFrame h
  | prdtW8 | prdtW16 | prdtW32 => exact forwardedWrite_storeFrame h
  | ctlGetConfigPtr bus d f => exact .of_complete (.configPtr bus d f s) h
  | ctlCopyDefault i image n => exact .of_complete (.copyDefault i image n s) h
  | ctlReset => exact .of_complete (.resetBlock s) h
  | ctlSave =>
    cases h
    exact .refl s
  | ctlRestore r =>
    rw [exec_ctlRestore] at h
    exact .of_complete (.restoreBlock r s) h
  | ctlSetIrqLine x l => exact .of_complete (.setIrqLine x l s) h

/-- Every request but a window write keeps the frame of the block. -/
theorem exec_blockFrame {i : Instr} {s t : State} (h : exec i s = .next t) (hwindow : isShadowWriteRow i = false) :
    BlockFrame s { t with reply := s.reply } := by
  by_cases hcreate : ∃ b d f k, i = .ctlCreateDevice b d f k
  · obtain ⟨b, d, f, k, rfl⟩ := hcreate
    exact .of_complete (.createDevice b d f k s) h
  · by_cases hinit : i = .ctlInit
    · subst hinit
      exact .of_complete (.initBlock s) h
    · exact (exec_storeFrame h hwindow (fun b d f k e => hcreate ⟨b, d, f, k, e⟩) hinit).toBlockFrame

/-- A window write changes the window, the log and the reply alone, and keeps the form of the window. -/
theorem exec_windowWrite {i : Instr} {s t : State} (h : exec i s = .next t) (hwindow : isShadowWriteRow i = true) :
    t = { s with win := t.win, log := t.log, reply := t.reply } ∧ (WindowInv s.win → WindowInv t.win) := by
  cases i with
  | shadowW8 | shadowW16 | shadowW32 => exact shadowWrite_frame h
  | _ => cases hwindow

/-! ### The map and the binding -/

/-- `PAM` and `PRDT` are in `t` as they were in `s`. -/
abbrev MapAndBindingKept (s t : State) : Prop := t.pam = s.pam ∧ t.prdt = s.prdt

theorem MapAndBindingKept.of_complete {α : Type} {f : α → Reply} {r : Res α} {s t : State}
    (hkept : MapAndBindingKept s r.state) (h : complete f r = .next t) : MapAndBindingKept s t := by
  rw [complete_eq_next h]
  exact hkept

theorem createDevice_mapAndBinding (bus d f : Word) (k : Kind) (s : State) :
    MapAndBindingKept s (createDevice bus d f k s).state := by
  unfold createDevice
  split <;> exact ⟨rfl, rfl⟩

theorem configPtr_mapAndBinding (bus d f : Word) (s : State) :
    MapAndBindingKept s (configPtr bus d f s).state := by
  unfold configPtr
  split <;> exact ⟨rfl, rfl⟩

theorem copyDefault_mapAndBinding (i : SlotIndex) (image : List Byte) (n : Nat) (s : State) :
    MapAndBindingKept s (copyDefault i image n s).state := by
  unfold copyDefault
  split
  · exact ⟨rfl, rfl⟩
  · split <;> exact ⟨rfl, rfl⟩

theorem setIrqLine_mapAndBinding (x l : Word) (s : State) :
    MapAndBindingKept s (setIrqLine x l s).state := by
  unfold setIrqLine
  split
  · exact ⟨rfl, rfl⟩
  · split
    · exact ⟨rfl, rfl⟩
    · split <;> exact ⟨rfl, rfl⟩

/-! ### The obligations -/

/-- Settles O53, row by row: the rows that may change the map or the binding contradict
`isConfigWriteRow i = false` or `isReloadRow i = false`. -/
theorem mapAndBindingChangeOnlyByConfiguration : Obligations.MapAndBindingChangeOnlyByConfiguration := by
  intro i s t h hconfig hreload
  cases i with
  | cfgAddrW8 | cfgAddrW16 | cfgAddrW32 | cfgDataW8 | cfgDataW16 | cfgDataW32 => cases hconfig
  | ctlReset | ctlRestore | ctlInit => cases hreload
  | cfgAddrR8 | cfgAddrR16 | cfgAddrR32 | cfgDataR8 | cfgDataR16 | cfgDataR32 =>
    rcases readRequest_cases h with e | ⟨q, e⟩ <;> rw [e] <;> exact ⟨rfl, rfl⟩
  | shadowR8 | shadowR16 | shadowR32 => rw [shadowRead_frame h]; exact ⟨rfl, rfl⟩
  | shadowW8 | shadowW16 | shadowW32 => rw [(shadowWrite_frame h).1]; exact ⟨rfl, rfl⟩
  | prdtR8 | prdtR16 | prdtR32 => rw [forwardedRead_frame h]; exact ⟨rfl, rfl⟩
  | prdtW8 | prdtW16 | prdtW32 => rw [(forwardedWrite_frame h).1]; exact ⟨rfl, rfl⟩
  | ctlCreateDevice bus d f k => exact MapAndBindingKept.of_complete (createDevice_mapAndBinding bus d f k s) h
  | ctlGetConfigPtr bus d f => exact MapAndBindingKept.of_complete (configPtr_mapAndBinding bus d f s) h
  | ctlCopyDefault i image n => exact MapAndBindingKept.of_complete (copyDefault_mapAndBinding i image n s) h
  | ctlSave => cases h; exact ⟨rfl, rfl⟩
  | ctlSetIrqLine x l => exact MapAndBindingKept.of_complete (setIrqLine_mapAndBinding x l s) h

/-- Settles O54: the frame of every other request holds the window memory itself. -/
theorem windowChangesOnlyByWindowWrites : Obligations.WindowChangesOnlyByWindowWrites := by
  intro i s t h hwindow x
  exact congrArg (Memory.read · x) (exec_blockFrame h hwindow).win

/-- Settles O55: a window write does not touch the store, and every other request keeps its frame. -/
theorem slotsStayPopulated : Obligations.SlotsStayPopulated := by
  intro i s t h k
  cases hwindow : isShadowWriteRow i with
  | true =>
    have hslots : t.slots = s.slots := by rw [(exec_windowWrite h hwindow).1]
    simp [State.kindAt, State.slot, hslots]
  | false =>
    exact ⟨(exec_blockFrame h hwindow).populated k, fun hcreate hinit =>
      (exec_storeFrame h hwindow hcreate hinit).kinds k⟩

/-- Settles O56. -/
theorem traceOnlyGrows : Obligations.TraceOnlyGrows := by
  intro i s t h
  cases hwindow : isShadowWriteRow i with
  | true =>
    have htrace : t.trace = s.trace := by rw [(exec_windowWrite h hwindow).1]
    rw [htrace]
  | false => exact (exec_blockFrame h hwindow).trace

/-- Settles O57: a port read is the only read that can end in a fatal. -/
theorem readsChangeNoState : Obligations.ReadsChangeNoState := by
  intro i s t hread h
  cases i with
  | cfgAddrR8 | cfgAddrR16 | cfgAddrR32 | cfgDataR8 | cfgDataR16 | cfgDataR32 =>
    rcases readRequest_cases h with e | ⟨q, e⟩ <;> rw [e]
    · exact ⟨rfl, .inl rfl⟩
    · exact ⟨rfl, .inr ⟨q, rfl⟩⟩
  | shadowR8 | shadowR16 | shadowR32 => rw [shadowRead_frame h]; exact ⟨rfl, .inl rfl⟩
  | prdtR8 | prdtR16 | prdtR32 => rw [forwardedRead_frame h]; exact ⟨rfl, .inl rfl⟩
  | _ => cases hread

end Sys2Proof.Machine
end

