-- ==== Sys2Proof/Proofs/StepInvariants.lean ====
section
/-!
PROOFS. What every step keeps, whatever is requested: the form of the window memory and the legality of the binding,
and the legality of the address register (10_state.md R35, R37, R46, R47; 43_prdt_irq.md R245).
-/

namespace Sys2Proof.Machine

/-! ### Rejected requests -/

/-- A request that decodes to nothing changes the refusal mark and the reply alone. -/
theorem rejectRequest_frame {r : Reject} {s t : State} (h : rejectRequest r s = .next t) :
    t = { s with refusal := t.refusal, reply := t.reply } := by
  cases r <;> cases h <;> rfl

/-! ### The window and the binding -/

/-- Every request keeps the form of the window memory and the legality of the binding. -/
theorem exec_blockInv {i : Instr} {s t : State} (h : exec i s = .next t) (hinv : BlockInv s) : BlockInv t := by
  obtain ⟨hwin, hbinding⟩ := hinv
  cases hwindow : isShadowWriteRow i with
  | true =>
    obtain ⟨ht, hform⟩ := exec_windowWrite h hwindow
    have hprdt : t.prdt = s.prdt := by rw [ht]
    exact ⟨hform hwin, by rwa [hprdt]⟩
  | false =>
    have hframe := exec_blockFrame h hwindow
    have hsame : t.win = s.win := hframe.win
    exact ⟨by rwa [hsame], hframe.binding hbinding⟩

/-- Settles O49. -/
theorem stepKeepsBlockInv : Obligations.StepKeepsBlockInv := by
  intro s t hinv h
  rcases step_cases h with rfl | ⟨q, rest, -, ⟨i, -, hexec⟩ | ⟨r, hreject⟩⟩
  · exact hinv
  · exact exec_blockInv hexec hinv
  · rw [rejectRequest_frame hreject]
    exact hinv

/-! ### The address register -/

/-- What keeps a legal address register legal. -/
abbrev AddressLegalKept (s t : State) : Prop := AddressLegal s.ca s.cyc → AddressLegal t.ca t.cyc

theorem AddressLegalKept.of_kept {s t : State} (h : AddressKept s t) : AddressLegalKept s t := by
  obtain ⟨hca, hcyc⟩ := h
  intro hlegal
  rwa [hca, hcyc]

theorem AddressLegalKept.andThen {α β : Type} {s : State} {r : Res α} {k : α → State → Res β}
    (hr : AddressLegalKept s r.state) (hk : ∀ a t, AddressLegalKept t (k a t).state) :
    AddressLegalKept s (r.andThen k).state :=
  Res.andThen_state (R := AddressLegalKept) (fun hab hbc ha => hbc (hab ha)) hr hk

theorem AddressLegalKept.of_complete {α : Type} {f : α → Reply} {r : Res α} {s t : State}
    (hkept : AddressLegalKept s r.state) (h : complete f r = .next t) : AddressLegalKept s t := by
  rw [complete_eq_next h]
  exact hkept

/-- The cleared address register is legal. -/
theorem addressLegal_zero : AddressLegal 0#32 false := by decide

theorem setPermissions_address (ts : List (Addr × Byte)) (s : State) :
    AddressKept s (setPermissions ts s).state := by
  induction ts generalizing s with
  | nil => exact .refl s
  | cons t ts ih =>
    rw [setPermissions, setPermission]
    split
    · exact ih _
    · exact .refl s

theorem remap_address (old : Option Port) (s : State) : AddressKept s (remap old s).state := by
  rcases remap_cases old s with ⟨-, e⟩ | ⟨-, e⟩ <;> rw [e]
  · exact .refl s
  · rcases rebind_cases (bar4 s) old s with ⟨-, e⟩ | ⟨-, e⟩ <;> rw [e] <;> exact .refl s

theorem replayMapAndRemap_address (f : Nat → Byte) (s : State) :
    AddressKept s (replayMapAndRemap f s).state := by
  refine Res.andThen_state (R := AddressKept) .trans (setPermissions_address _ s) fun _ t => ?_
  split
  · exact remap_address _ t
  · exact .refl t

theorem resetDevice_address (i : SlotIndex) (k : Kind) (image : List Byte) (n : Nat) (s : State) :
    AddressKept s (resetDevice i k image n s).state := by
  unfold resetDevice
  split
  · exact copyDefault_address i image n s
  · split
    · exact copyDefault_address i image n s
    · exact .refl s

theorem assemble_address (d f : Word) (k : Kind) (image : List Byte) (n : Nat) (s : State) :
    AddressKept s (assemble d f k image n s).state :=
  Res.andThen_state (R := AddressKept) .trans (createDevice_address 0#32 d f k s) fun i t =>
    copyDefault_address i image n t

/-- A reset clears the address register before anything can end it. -/
theorem resetBlock_legal (s : State) : AddressLegalKept s (resetBlock s).state := by
  refine .andThen (fun _ => ?_) fun _ t => .andThen (.of_kept (resetDevice_address _ _ _ _ t)) fun _ t =>
    .andThen (.of_kept (resetDevice_address _ _ _ _ t)) fun _ t => .of_kept (replayMapAndRemap_address _ t)
  exact AddressLegalKept.of_kept (resetDevice_address _ _ _ _ { s with ca := 0#32, cyc := false })
    addressLegal_zero

/-- An assembly clears the address register once the devices stand. -/
theorem initBlock_legal (s : State) : AddressLegalKept s (initBlock s).state := by
  refine .andThen (.of_kept (assemble_address _ _ _ _ _ s)) fun _ t =>
    .andThen (.of_kept (assemble_address _ _ _ _ _ t)) fun _ t =>
    .andThen (.of_kept (assemble_address _ _ _ _ _ t)) fun _ t _ => ?_
  exact AddressLegalKept.of_kept (replayMapAndRemap_address _ { t with ca := 0#32, cyc := false })
    addressLegal_zero

/-- A restore of a legal record leaves the address register legal. -/
theorem restoreBlock_legal {r : Record} (hr : AddressLegal r.addr r.cyc) (s : State) :
    AddressLegalKept s (restoreBlock r s).state := by
  unfold restoreBlock
  split
  · exact fun _ => AddressLegalKept.of_kept (replayMapAndRemap_address _ _) hr
  · exact fun h => h

/-- Every request keeps the address register legal, if the record of a restore is. -/
theorem exec_addressLegal {i : Instr} {s t : State} (h : exec i s = .next t)
    (hrecord : ∀ r, i = .ctlRestore r → AddressLegal r.addr r.cyc) : AddressLegalKept s t := by
  cases i with
  | cfgAddrW8 | cfgAddrW16 | cfgAddrW32 | cfgDataW8 | cfgDataW16 | cfgDataW32 =>
    exact AddressLegalKept.of_complete (portWrite_legal _ _ _) h
  | cfgAddrR8 | cfgAddrR16 | cfgAddrR32 | cfgDataR8 | cfgDataR16 | cfgDataR32 =>
    exact .of_kept (readRequest_address h)
  | shadowR8 | shadowR16 | shadowR32 => exact .of_kept (shadowRead_address h)
  | shadowW8 | shadowW16 | shadowW32 => exact .of_kept (shadowWrite_address h)
  | prdtR8 | prdtR16 | prdtR32 => exact .of_kept (forwardedRead_address h)
  | prdtW8 | prdtW16 | prdtW32 => exact .of_kept (forwardedWrite_address h)
  | ctlReset => exact .of_complete (resetBlock_legal s) h
  | ctlRestore r =>
    rw [exec_ctlRestore] at h
    exact .of_complete (restoreBlock_legal (hrecord r rfl) s) h
  | ctlInit => exact .of_complete (initBlock_legal s) h
  | ctlCreateDevice | ctlGetConfigPtr | ctlCopyDefault | ctlSave | ctlSetIrqLine =>
    exact .of_kept (addressRegisterPersists _ s t rfl h rfl rfl)

/-- A restore that decodes carries the record of the request's operands (30_encoding.md R106). -/
theorem decode_ctlRestore_record {prdt : Option Port} {q : Request} {r : Record}
    (h : decode prdt q = .ok (.ctlRestore r)) : r = q.operands.record := by
  obtain ⟨td, x⟩ := q
  obtain ⟨rfl, -, -⟩ := encodeOfDecode prdt ⟨td, x⟩ _ h
  have hrow : decode prdt ⟨(encode (.ctlRestore r)).td, x⟩ = .ok (.ctlRestore x.record) :=
    decode_ctlRequest prdt 0x06#8 x
  rw [hrow] at h
  cases h
  rfl

/-- No request touches the queue. -/
theorem exec_pending {i : Instr} {s t : State} (h : exec i s = .next t) : t.pending = s.pending := by
  cases hwindow : isShadowWriteRow i with
  | true => rw [(exec_windowWrite h hwindow).1]
  | false => exact (exec_blockFrame h hwindow).pending

/-- Settles O51: the record of a waiting restore is legal by the premise on the queue, and the queue only
shrinks. -/
theorem stepKeepsAddressInv : Obligations.StepKeepsAddressInv := by
  rintro s t ⟨hlegal, hqueue⟩ h
  rcases step_cases h with rfl | ⟨q, rest, hpending, hstep⟩
  · exact ⟨hlegal, hqueue⟩
  · have hq : AddressLegal q.operands.record.addr q.operands.record.cyc := hqueue q (by simp [hpending])
    have hrest : ∀ x ∈ rest, AddressLegal x.operands.record.addr x.operands.record.cyc :=
      fun x hx => hqueue x (by simp [hpending, hx])
    rcases hstep with ⟨i, hdecode, hexec⟩ | ⟨r, hreject⟩
    · have hrecord : ∀ r, i = .ctlRestore r → AddressLegal r.addr r.cyc := by
        rintro r rfl
        rwa [decode_ctlRestore_record hdecode]
      exact ⟨exec_addressLegal hexec hrecord hlegal, by rwa [exec_pending hexec]⟩
    · rw [rejectRequest_frame hreject]
      exact ⟨hlegal, hrest⟩

/-! ### The reset state -/

/-- Settles O50: the window memory of the reset state is empty, its binding is 0xC000, and no request waits. -/
theorem resetHasTheInvariants : Obligations.ResetHasTheInvariants := by
  refine ⟨⟨⟨Memory.wf_reset, fun e he => by cases he⟩, fun b hb => ?_⟩, addressLegal_zero,
    fun q hq => by cases hq⟩
  cases hb
  decide

end Sys2Proof.Machine
end

