-- ==== Sys2Proof/Proofs/CpuFaults.lean ====
section
/-!
PROOFS. The fatals a port or memory request can raise: none but that of an unrecognized port, which a well-formed
request reaches only by running past 0xCFF (60_exceptions.md R295; 20_memory.md R76; 43_prdt_irq.md R243).
-/

namespace Sys2Proof.Machine

/-! ### Port accesses -/

/-- What an access of `n` bytes from port `p` can do to the fault and to slot 9's BAR4. -/
structure PortFaults (n : Nat) (p : Port) (s t : State) : Prop where
  fatal : t.fault = s.fault ∨ ∃ q, t.fault = some (.unrecognizedPort q)
  overrun : 0xCF8 ≤ p.toNat → p.toNat ≤ 0xD00 →
    t.fault = s.fault ∨ (0xD00 < p.toNat + n ∧ t.fault = some (.unrecognizedPort 0xD00#16))
  ioBar : s.IdeBarIsIo → t.IdeBarIsIo

theorem PortFaults.zero (p : Port) (s : State) : PortFaults 0 p s s :=
  ⟨.inl rfl, fun _ _ => .inl rfl, fun h => h⟩

/-- The fatal of a port outside 0xCF8..0xCFF ends the access at that port. -/
theorem PortFaults.unrecognized {n : Nat} {p : Port} (haddr : isAddrPort p = false) (hdata : isDataPort p = false)
    {s t : State} (hfault : t.fault = some (.unrecognizedPort p)) (hio : s.IdeBarIsIo → t.IdeBarIsIo) :
    PortFaults (n + 1) p s t := by
  refine ⟨.inr ⟨p, hfault⟩, fun hfirst hlast => .inr ?_, hio⟩
  have hend : p = 0xD00#16 := by
    have haddr' := mt (isAddrPort_iff p).mpr (by simp [haddr])
    have hdata' := mt (isDataPort_iff p).mpr (by simp [hdata])
    bv_omega
  subst hend
  exact ⟨by simp, hfault⟩

/-- A byte step that raises no fatal, then the rest of the access. -/
theorem PortFaults.succ {n : Nat} {p : Port} {s t u : State} (hfault : t.fault = s.fault)
    (hio : s.IdeBarIsIo → t.IdeBarIsIo) (hport : p.toNat ≠ 0xD00) (hrest : PortFaults n (p + 1#16) t u) :
    PortFaults (n + 1) p s u := by
  refine ⟨hfault ▸ hrest.fatal, fun hfirst hlast => ?_, fun h => hrest.ioBar (hio h)⟩
  have hnext : (p + 1#16).toNat = p.toNat + 1 := by bv_omega
  have := hrest.overrun (by omega) (by omega)
  rwa [hnext, hfault, Nat.add_right_comm, Nat.add_assoc] at this

theorem portWrite_faults (n : Nat) (p : Port) (v : Word) (s : State) :
    PortFaults n p s (portWrite n p v s).state := by
  induction n generalizing p v s with
  | zero => exact .zero p s
  | succ n ih =>
    have hio := portWriteByte_ioBar p (lowByte v) (s := s)
    rw [portWrite]
    rcases portWriteByte_fault p (lowByte v) s with hkept | ⟨haddr, hdata, hfault⟩
    · cases hr : portWriteByte p (lowByte v) s with
      | ok a t =>
        rw [hr] at hkept hio
        have hport : p.toNat ≠ 0xD00 := by
          intro hend
          obtain rfl : p = 0xD00#16 := by bv_omega
          cases hr
        exact .succ hkept hio hport (ih _ _ t)
      | stop t =>
        rw [hr] at hkept hio
        exact ⟨.inl hkept, fun _ _ => .inl hkept, hio⟩
    · have hstop : portWriteByte p (lowByte v) s = raise (.unrecognizedPort p) s := by
        simp [portWriteByte, haddr, hdata]
      rw [hstop] at hfault hio ⊢
      exact .unrecognized haddr hdata hfault hio

theorem portRead_faults (n : Nat) (p : Port) (s : State) : PortFaults n p s (portRead n p s).state := by
  induction n generalizing p with
  | zero => exact .zero p s
  | succ n ih =>
    rw [portRead]
    rcases portReadByte_cases p s with ⟨b, hr⟩ | ⟨haddr, hdata, hr⟩
    · have hport : p.toNat ≠ 0xD00 := by
        intro hend
        obtain rfl : p = 0xD00#16 := by bv_omega
        cases hr
      have hrest := ih (p + 1#16)
      have hstate : ((portRead n (p + 1#16) s).andThen fun r s'' => .ok (joinByte b r) s'').state =
          (portRead n (p + 1#16) s).state := by
        cases portRead n (p + 1#16) s <;> rfl
      rw [hr, Res.andThen_ok, hstate]
      exact .succ rfl (fun h => h) hport hrest
    · rw [hr]
      exact .unrecognized haddr hdata rfl (IdeBarIsIo_of_slots rfl)

/-! ### The rows -/

/-- What `Obligations.CpuRequestsOnlyFaultByOverrun` says of one request. -/
abbrev FaultsByOverrun (i : Instr) (s t : State) : Prop :=
  (t.fault = s.fault ∨ ∃ p, t.fault = some (.unrecognizedPort p)) ∧
  (WellFormed i = true →
    t.fault = s.fault ∨ (runsPastDataWindow i = true ∧ t.fault = some (.unrecognizedPort 0xD00#16))) ∧
  (s.IdeBarIsIo → t.IdeBarIsIo)

/-- A port row, from the range of its ports and the row's own test for an overrun. -/
theorem PortFaults.row {n : Nat} {p : Port} {s t : State} (h : PortFaults n p s t) {i : Instr}
    (hrow : WellFormed i = true → 0xCF8 ≤ p.toNat ∧ p.toNat ≤ 0xD00 ∧
      (0xD00 < p.toNat + n → runsPastDataWindow i = true)) : FaultsByOverrun i s t := by
  refine ⟨h.fatal, fun hwf => ?_, h.ioBar⟩
  obtain ⟨hfirst, hlast, hpast⟩ := hrow hwf
  exact (h.overrun hfirst hlast).imp id fun ⟨hover, hfault⟩ => ⟨hpast hover, hfault⟩

theorem writeRequest_faults {n : Nat} {p : Port} {v : Word} {s t : State} (h : writeRequest n p v s = .next t) :
    PortFaults n p s t := by
  rw [complete_eq_next h]
  exact ⟨(portWrite_faults n p v s).fatal, (portWrite_faults n p v s).overrun, (portWrite_faults n p v s).ioBar⟩

theorem readRequest_faults {n : Nat} {p : Port} {s t : State} (h : readRequest n p s = .next t) :
    PortFaults n p s t := by
  rw [complete_eq_next h]
  exact ⟨(portRead_faults n p s).fatal, (portRead_faults n p s).overrun, (portRead_faults n p s).ioBar⟩

/-- An address row ends at 0xCFE at the latest. -/
theorem addrRow_range {p : Port} {n : Nat} {past : Prop} (hp : isAddrPort p = true) (hn : n ≤ 4) :
    0xCF8 ≤ p.toNat ∧ p.toNat ≤ 0xD00 ∧ (0xD00 < p.toNat + n → past) := by
  have := (isAddrPort_iff p).mp hp
  exact ⟨by omega, by omega, fun _ => by omega⟩

/-- A data row of one byte stays inside the window. -/
theorem dataByteRow_range {p : Port} {past : Prop} (hp : isDataPort p = true) :
    0xCF8 ≤ p.toNat ∧ p.toNat ≤ 0xD00 ∧ (0xD00 < p.toNat + 1 → past) := by
  have := (isDataPort_iff p).mp hp
  exact ⟨by omega, by omega, fun _ => by omega⟩

/-- A wide data row runs past the window as its own test says. -/
theorem dataRow_range {p : Port} {n : Nat} (hp : isDataPort p = true) :
    0xCF8 ≤ p.toNat ∧ p.toNat ≤ 0xD00 ∧ (0xD00 < p.toNat + n → decide (0xD00 < p.toNat + n) = true) := by
  have := (isDataPort_iff p).mp hp
  exact ⟨by omega, by omega, decide_eq_true⟩

/-- A request that touches neither the store nor the fault. -/
theorem FaultsByOverrun.of_eq {i : Instr} {s t : State} (hfault : t.fault = s.fault) (hslots : t.slots = s.slots) :
    FaultsByOverrun i s t :=
  ⟨.inl hfault, fun _ => .inl hfault, IdeBarIsIo_of_slots hslots⟩

/-- Settles O58: the port rows by their byte steps (`portWrite_faults`, `portRead_faults`); the memory and PRDT rows
touch neither the store nor the fault. -/
theorem cpuRequestsOnlyFaultByOverrun : Obligations.CpuRequestsOnlyFaultByOverrun := by
  intro i s t hcpu h
  cases i with
  | cfgAddrW8 | cfgAddrW16 | cfgAddrW32 =>
    exact (writeRequest_faults h).row fun hwf => addrRow_range hwf (by omega)
  | cfgAddrR8 | cfgAddrR16 | cfgAddrR32 =>
    exact (readRequest_faults h).row fun hwf => addrRow_range hwf (by omega)
  | cfgDataW8 => exact (writeRequest_faults h).row fun hwf => dataByteRow_range hwf
  | cfgDataR8 => exact (readRequest_faults h).row fun hwf => dataByteRow_range hwf
  | cfgDataW16 | cfgDataW32 => exact (writeRequest_faults h).row fun hwf => dataRow_range hwf
  | cfgDataR16 | cfgDataR32 => exact (readRequest_faults h).row fun hwf => dataRow_range hwf
  | shadowR8 | shadowR16 | shadowR32 => rw [shadowRead_frame h]; exact FaultsByOverrun.of_eq rfl rfl
  | shadowW8 | shadowW16 | shadowW32 => rw [(shadowWrite_frame h).1]; exact FaultsByOverrun.of_eq rfl rfl
  | prdtR8 | prdtR16 | prdtR32 => rw [forwardedRead_frame h]; exact FaultsByOverrun.of_eq rfl rfl
  | prdtW8 | prdtW16 | prdtW32 => rw [(forwardedWrite_frame h).1]; exact FaultsByOverrun.of_eq rfl rfl
  | _ => cases hcpu

end Sys2Proof.Machine
end

