-- ==== Sys2Proof/Proofs/AddressRegister.lean ====
section
/-!
PROOFS. Writes to the configuration address register and its wide reads (40_config_cycle.md R132, R134, R140-R145).
-/

namespace Sys2Proof.Machine

/-! ### Byte steps inside the register -/

theorem portWrite_succ_addr {p : Port} (h : isAddrPort p = true) (n : Nat) (v : Word) (s : State) :
    portWrite (n + 1) p v s = portWrite n (p + 1#16) (v >>> 8) (addrWriteByte (laneOf p) (lowByte v) s) := by
  rw [portWrite, portWriteByte_addr h, Res.andThen_ok]

theorem portRead_succ_addr {p : Port} (h : isAddrPort p = true) (n : Nat) (s : State) :
    portRead (n + 1) p s =
      (portRead n (p + 1#16) s).andThen fun r t => .ok (joinByte (addrReadByte (laneOf p) s) r) t := by
  rw [portRead, portReadByte_addr h, Res.andThen_ok]

/-- Every bit of `CA` after the `n` bytes from lane `k` are written: the reserved ones are 0, those of the lanes are
the data's, the others the old ones. -/
def WritesLanes (ca : Word) (k n : Nat) (v : Word) (old : Word) : Prop :=
  ∀ j, j < 32 → ca.getLsbD j =
    (!(0x7F000003#32).getLsbD j &&
      if 8 * k ≤ j ∧ j < 8 * k + 8 * n then v.getLsbD (j - 8 * k) else old.getLsbD j)

/-- One byte step into an address port (40_config_cycle.md R132). -/
theorem addrWriteByte_writesLanes {p : Port} (h : isAddrPort p = true) (v : Word) (s : State) :
    ∃ ca l, addrWriteByte (laneOf p) (lowByte v) s = { s with ca := ca, cyc := ca.getLsbD 31, log := l } ∧
      WritesLanes ca (p.toNat - 0xCF8) 1 v s.ca := by
  obtain ⟨l, e⟩ := addrWriteByte_eq (laneOf p) (lowByte v) s
  refine ⟨_, l, e, fun j hj => ?_⟩
  rw [getLsbD_clearReserved _ j hj, getLsbD_mergeLane _ _ _ hj, laneOf_addrPort p h]
  by_cases hlane : 8 * (p.toNat - 0xCF8) ≤ j ∧ j < 8 * (p.toNat - 0xCF8) + 8
  · rw [if_pos hlane, if_pos hlane, lowByte, BitVec.getLsbD_setWidth, decide_eq_true (by omega), Bool.true_and]
  · rw [if_neg hlane, if_neg hlane]

/-- The first byte of an access, then the others from the lane above. -/
theorem WritesLanes.succ {ca₁ ca₂ old v : Word} {k n : Nat} (h₁ : WritesLanes ca₁ k 1 v old)
    (h₂ : WritesLanes ca₂ (k + 1) n (v >>> 8) ca₁) : WritesLanes ca₂ k (n + 1) v old := by
  intro j hj
  rw [h₂ j hj, h₁ j hj, BitVec.getLsbD_ushiftRight]
  by_cases hlow : 8 * k ≤ j ∧ j < 8 * k + 8 * 1
  · rw [if_neg (by omega), if_pos hlow, if_pos (by omega), ← Bool.and_assoc, Bool.and_self]
  · by_cases hhigh : 8 * (k + 1) ≤ j ∧ j < 8 * (k + 1) + 8 * n
    · rw [if_pos hhigh, if_pos (by omega)]
      congr 2
      omega
    · rw [if_neg hhigh, if_neg hlow, if_neg (by omega), ← Bool.and_assoc, Bool.and_self]

/-- A write of `n + 1` bytes that stays inside the register. -/
theorem portWrite_inRegister {n : Nat} {p : Port} (h : isAddrPort p = true) (hlast : p.toNat + n ≤ 0xCFB) (v : Word)
    (s : State) :
    ∃ ca l, portWrite (n + 1) p v s = .ok () { s with ca := ca, cyc := ca.getLsbD 31, log := l } ∧
      WritesLanes ca (p.toNat - 0xCF8) (n + 1) v s.ca := by
  obtain ⟨ca, l, hfirst, hlanes⟩ := addrWriteByte_writesLanes h v s
  rw [portWrite_succ_addr h, hfirst]
  induction n generalizing p v s ca l with
  | zero => exact ⟨ca, l, rfl, hlanes⟩
  | succ n ih =>
    obtain ⟨hnext, hsucc⟩ := addrPort_succ h (by rintro rfl; simp at hlast)
    obtain ⟨ca', l', hfirst', hlanes'⟩ :=
      addrWriteByte_writesLanes hnext (v >>> 8) { s with ca := ca, cyc := ca.getLsbD 31, log := l }
    obtain ⟨ca'', l'', hwrite, hlanes''⟩ := ih hnext (by omega) (v >>> 8) _ ca' l' hfirst' hlanes'
    rw [portWrite_succ_addr hnext, hfirst']
    refine ⟨ca'', l'', hwrite, hlanes.succ ?_⟩
    rwa [show p.toNat - 0xCF8 + 1 = (p + 1#16).toNat - 0xCF8 by
      have := (isAddrPort_iff p).mp h
      omega]

theorem writeRequest_inRegister {n : Nat} {p : Port} (h : isAddrPort p = true) (hlast : p.toNat + n ≤ 0xCFB)
    (v : Word) (s : State) :
    ∃ ca l, writeRequest (n + 1) p v s =
        .next { s with ca := ca, cyc := ca.getLsbD 31, log := l, reply := .done } ∧
      WritesLanes ca (p.toNat - 0xCF8) (n + 1) v s.ca := by
  obtain ⟨ca, l, hwrite, hlanes⟩ := portWrite_inRegister h hlast v s
  exact ⟨ca, l, by rw [writeRequest, hwrite, complete_ok], hlanes⟩

/-! ### Reads inside the register -/

/-- Two neighbouring bytes of a word, joined. -/
theorem extractLsb'_join (a : Word) (k : Nat) :
    (a.extractLsb' (8 * k) 8).setWidth 32 ||| (a.extractLsb' (8 * (k + 1)) 8).setWidth 32 <<< 8 =
      (a.extractLsb' (8 * k) 16).setWidth 32 := by
  apply BitVec.eq_of_getLsbD_eq
  intro j hj
  simp only [BitVec.getLsbD_or, BitVec.getLsbD_setWidth, BitVec.getLsbD_shiftLeft, BitVec.getLsbD_extractLsb']
  by_cases hlow : j < 8
  · simp [hj, hlow, show j < 16 by omega]
  · by_cases hhigh : j < 16
    · simp [hj, hlow, hhigh, show j - 8 < 32 by omega, show j - 8 < 8 by omega,
        show 8 * (k + 1) + (j - 8) = 8 * k + j by omega]
    · simp [hlow, hhigh, show ¬ j - 8 < 8 by omega]

/-- The four bytes of a word, joined. -/
theorem join_laneBytes (a : Word) :
    joinByte (a.extractLsb' 0 8) (joinByte (a.extractLsb' 8 8)
      (joinByte (a.extractLsb' 16 8) (joinByte (a.extractLsb' 24 8) 0))) = a := by
  apply BitVec.eq_of_getLsbD_eq
  intro j hj
  simp only [joinByte, BitVec.getLsbD_or, BitVec.getLsbD_setWidth, BitVec.getLsbD_shiftLeft,
    BitVec.getLsbD_extractLsb']
  interval_cases j <;> simp

/-! ### The obligations -/

/-- Settles O8. -/
theorem addressByteWrite : Obligations.AddressByteWrite := by
  intro s p v hp
  obtain ⟨ca, l, hexec, hlanes⟩ :=
    writeRequest_inRegister (n := 0) hp ((isAddrPort_iff p).mp hp).2 (v.setWidth 32) s
  refine ⟨ca, l, hexec, fun j hj => ?_⟩
  rw [hlanes j hj, BitVec.getLsbD_setWidth, decide_eq_true (by omega), Bool.true_and]

/-- Settles O9. -/
theorem addressWordWrite : Obligations.AddressWordWrite := by
  intro s p v hp hlast
  have hsecond : p.toNat + 1 ≤ 0xCFB := by
    obtain ⟨hnext, hsucc⟩ := addrPort_succ hp hlast
    rw [← hsucc]
    exact ((isAddrPort_iff _).mp hnext).2
  obtain ⟨ca, l, hexec, hlanes⟩ := writeRequest_inRegister (n := 1) hp hsecond (v.setWidth 32) s
  refine ⟨ca, l, hexec, fun j hj => ?_⟩
  rw [hlanes j hj, BitVec.getLsbD_setWidth, decide_eq_true (by omega), Bool.true_and]

/-- A write of all four lanes clears the reserved bits and replaces the rest. -/
theorem WritesLanes.whole {ca v old : Word} (h : WritesLanes ca 0 4 v old) : ca = v &&& 0x80FFFFFC#32 := by
  have hmask : ∀ j < 32, (0x80FFFFFC#32).getLsbD j = !(0x7F000003#32).getLsbD j := by decide
  apply BitVec.eq_of_getLsbD_eq
  intro j hj
  rw [h j hj, if_pos (by omega), BitVec.getLsbD_and, hmask j hj, Bool.and_comm]
  rfl

/-- Settles O10. -/
theorem addressDwordWrite : Obligations.AddressDwordWrite := by
  intro s v
  obtain ⟨ca, l, hexec, hlanes⟩ := writeRequest_inRegister (n := 3) (p := 0xCF8#16) (by decide) (by decide) v s
  obtain rfl := hlanes.whole
  have hcyc : (v &&& 0x80FFFFFC#32).getLsbD 31 = v.getLsbD 31 := by simp
  exact ⟨l, by rw [← hcyc]; exact hexec⟩

/-- Settles O12: a read inside the register joins its lanes. -/
theorem addressWideRead : Obligations.AddressWideRead := by
  refine ⟨fun s p hp hlast => ?half, fun s => ?whole⟩
  case half =>
    obtain ⟨hnext, hsucc⟩ := addrPort_succ hp hlast
    have hlane : (p + 1#16).toNat - 0xCF8 = p.toNat - 0xCF8 + 1 := by
      have := (isAddrPort_iff p).mp hp
      omega
    have hread : portRead 2 p s = .ok (joinByte (s.ca.extractLsb' (8 * (p.toNat - 0xCF8)) 8)
        (joinByte (s.ca.extractLsb' (8 * (p.toNat - 0xCF8 + 1)) 8) 0)) s := by
      rw [portRead_succ_addr hp, portRead_succ_addr hnext, addrReadByte_eq hp, addrReadByte_eq hnext, hlane]
      rfl
    change readRequest 2 p s = _
    rw [readRequest, hread, complete_ok, ← extractLsb'_join]
    simp [joinByte]
  case whole =>
    have hread : portRead 4 0xCF8#16 s = .ok s.ca s := by
      conv_rhs => rw [← join_laneBytes s.ca]
      rw [portRead_succ_addr (by decide), portRead_succ_addr (by decide), portRead_succ_addr (by decide),
        portRead_succ_addr (by decide), addrReadByte_eq (by decide), addrReadByte_eq (by decide),
        addrReadByte_eq (by decide), addrReadByte_eq (by decide)]
      rfl
    change readRequest 4 0xCF8#16 s = _
    rw [readRequest, hread, complete_ok]

/-- Settles O14: the written register (`addressDwordWrite`) is read back whole (`addressWideRead`). -/
theorem addressReadBack : Obligations.AddressReadBack := by
  intro s t v hwrite
  obtain ⟨l, hexec⟩ := addressDwordWrite s v
  rw [hexec] at hwrite
  cases hwrite
  exact addressWideRead.2 _

end Sys2Proof.Machine
end

