-- ==== Sys2Proof/Proofs/WidePortAccesses.lean ====
section
/-!
PROOFS. Port accesses of several bytes as their byte accesses in port order, the data writes that find no device, and
the accesses that run past the data window (20_memory.md R74, R76; 40_config_cycle.md R135, R139, R153;
70_reset_and_hazards.md R328).
-/

namespace Sys2Proof.Machine

/-! ### Reads as byte reads -/

theorem exec_byteReadRow (p : Port) (s : State) : exec (byteReadRow p) s = readRequest 1 p s := by
  unfold byteReadRow
  split <;> rfl

/-- A byte read that returns a byte and changes nothing is a byte step that does. -/
theorem portReadByte_of_exec {p : Port} {b : Byte} {s : State}
    (h : exec (byteReadRow p) s = .next { s with reply := .data (b.setWidth 32) }) :
    portReadByte p s = .ok b s := by
  rw [exec_byteReadRow, readRequest, portRead] at h
  rcases portReadByte_cases p s with ⟨c, e⟩ | ⟨-, -, e⟩
  · rw [e] at h
    have hword : joinByte c 0 = joinByte b 0 := by simpa [portRead, joinByte] using h
    have hbyte : c = b := by rw [← joinByte_low c 0, hword, joinByte_low]
    rw [e, hbyte]
  · rw [e] at h
    simp at h

theorem portRead_succ_ok {p : Port} {b : Byte} {s : State} (h : portReadByte p s = .ok b s) (n : Nat) :
    portRead (n + 1) p s = (portRead n (p + 1#16) s).andThen fun r t => .ok (joinByte b r) t := by
  rw [portRead, h, Res.andThen_ok]

/-- Settles O13: each byte read is a byte step of the wide read (`portReadByte_of_exec`). -/
theorem wideReadsJoinByteReads : Obligations.WideReadsJoinByteReads := by
  intro s p b hp reads
  have step : ∀ k, reads k → portReadByte (p + BitVec.ofNat 16 k.val) s = .ok (b k) s :=
    fun k => portReadByte_of_exec
  have port0 : p + BitVec.ofNat 16 (0 : Fin 4).val = p := BitVec.add_zero p
  have port1 : p + BitVec.ofNat 16 (1 : Fin 4).val = p + 1#16 := rfl
  have port2 : p + BitVec.ofNat 16 (2 : Fin 4).val = p + 1#16 + 1#16 := by
    rw [BitVec.add_assoc]
    rfl
  have port3 : p + BitVec.ofNat 16 (3 : Fin 4).val = p + 1#16 + 1#16 + 1#16 := by
    rw [BitVec.add_assoc, BitVec.add_assoc]
    rfl
  refine ⟨fun h0 h1 => ?half, fun h0 h1 h2 h3 => ?word⟩
  case half =>
    have row : exec (if isAddrPort p then .cfgAddrR16 p else .cfgDataR16 p) s = readRequest 2 p s := by
      split <;> rfl
    rw [row, readRequest, portRead_succ_ok (port0 ▸ step 0 h0), portRead_succ_ok (port1 ▸ step 1 h1), portRead]
    simp [joinByte]
  case word =>
    have row : exec (if isAddrPort p then .cfgAddrR32 p else .cfgDataR32 p) s = readRequest 4 p s := by
      split <;> rfl
    rw [row, readRequest, portRead_succ_ok (port0 ▸ step 0 h0), portRead_succ_ok (port1 ▸ step 1 h1),
      portRead_succ_ok (port2 ▸ step 2 h2), portRead_succ_ok (port3 ▸ step 3 h3), portRead]
    simp [joinByte, BitVec.or_assoc, BitVec.shiftLeft_or_distrib, ← BitVec.shiftLeft_add]

/-! ### Writes as byte writes in turn -/

/-- The one-byte write requests of an access of `n` bytes, in port order. -/
def byteWriteRows (n : Nat) (p : Port) (v : Word) : List Instr :=
  (List.range n).map fun k => byteWriteRow (p + BitVec.ofNat 16 k) (v.extractLsb' (8 * k) 8)

theorem extractLsb'_ushiftRight (v : Word) (k : Nat) :
    (v >>> 8).extractLsb' (8 * k) 8 = v.extractLsb' (8 * (k + 1)) 8 := by
  apply BitVec.eq_of_getLsbD_eq
  intro j hj
  simp only [BitVec.getLsbD_extractLsb', BitVec.getLsbD_ushiftRight]
  congr 2
  omega

theorem byteWriteRows_succ (n : Nat) (p : Port) (v : Word) :
    byteWriteRows (n + 1) p v = byteWriteRow p (lowByte v) :: byteWriteRows n (p + 1#16) (v >>> 8) := by
  have hport : ∀ k, p + BitVec.ofNat 16 (k + 1) = p + 1#16 + BitVec.ofNat 16 k := fun k => by
    rw [Nat.add_comm, BitVec.ofNat_add, BitVec.add_assoc]
  have hfirst : byteWriteRow (p + BitVec.ofNat 16 0) (v.extractLsb' (8 * 0) 8) = byteWriteRow p (lowByte v) := by
    rw [BitVec.add_zero]
    rfl
  rw [byteWriteRows, byteWriteRows, List.range_succ_eq_map, List.map_cons, List.map_map, hfirst]
  congr 1
  apply List.map_congr_left
  intro k hk
  rw [Function.comp_apply, Nat.succ_eq_add_one, hport, ← extractLsb'_ushiftRight]

@[simp] theorem lowByte_setWidth (v : Byte) : lowByte (v.setWidth 32) = v := by
  simp [lowByte]

theorem exec_byteWriteRow (p : Port) (v : Byte) (s : State) :
    exec (byteWriteRow p v) s = complete (fun _ => .done) (portWriteByte p v s) := by
  have hrow : exec (byteWriteRow p v) s = writeRequest 1 p (v.setWidth 32) s := by
    unfold byteWriteRow
    split <;> rfl
  rw [hrow, writeRequest, portWrite, lowByte_setWidth]
  cases portWriteByte p v s <;> rfl

/-- A write of any width does not look at the reply of the request before it. -/
theorem portWrite_withReply (n : Nat) (p : Port) (v : Word) (s : State) (q : Reply) :
    portWrite n p v { s with reply := q } = (portWrite n p v s).withReply q := by
  induction n generalizing p v s with
  | zero => rfl
  | succ n ih =>
    rw [portWrite, portWrite, portWriteByte_withReply]
    cases portWriteByte p (lowByte v) s with
    | ok a t => exact ih _ _ t
    | stop t => rfl

theorem complete_withReply {α : Type} (f : α → Reply) (r : Res α) (q : Reply) :
    complete f (r.withReply q) = complete f r := by
  cases r <;> rfl

theorem writeRequest_withReply (n : Nat) (p : Port) (v : Word) (s : State) (q : Reply) :
    writeRequest n p v { s with reply := q } = writeRequest n p v s := by
  rw [writeRequest, portWrite_withReply, complete_withReply, writeRequest]

/-- The first byte request in turn: one that ends the request ends the sequence. -/
theorem execInTurn_byteWriteRow (p : Port) (v : Byte) (rest : List Instr) (s : State) :
    execInTurn (byteWriteRow p v :: rest) s =
      match portWriteByte p v s with
      | .ok _ t => execInTurn rest { t with reply := .done }
      | .stop t => .next { t with reply := .stopped } := by
  rw [execInTurn, exec_byteWriteRow]
  cases portWriteByte p v s <;> rfl

/-- A write request after a request that completed. -/
theorem execInTurn_byteWriteRows_of_done (n : Nat) (p : Port) (v : Word) {s : State} (h : s.reply = .done) :
    execInTurn (byteWriteRows n p v) s = writeRequest n p v s := by
  induction n generalizing p v s with
  | zero =>
    have hs : { s with reply := .done } = s := by rw [← h]
    exact congrArg Host.Outcome.next hs.symm
  | succ n ih =>
    rw [byteWriteRows_succ, execInTurn_byteWriteRow, writeRequest, portWrite]
    cases portWriteByte p (lowByte v) s with
    | ok a t => exact (ih _ _ rfl).trans (writeRequest_withReply n _ _ t .done)
    | stop t => rfl

/-- A write request is its byte requests in turn (40_config_cycle.md R139). -/
theorem execInTurn_byteWriteRows (n : Nat) (p : Port) (v : Word) (s : State) :
    execInTurn (byteWriteRows (n + 1) p v) s = writeRequest (n + 1) p v s := by
  rw [byteWriteRows_succ, execInTurn_byteWriteRow, writeRequest, portWrite]
  cases portWriteByte p (lowByte v) s with
  | ok a t => exact (execInTurn_byteWriteRows_of_done n _ _ rfl).trans (writeRequest_withReply n _ _ t .done)
  | stop t => rfl

theorem extractLsb'_setWidth (v : BitVec 16) (k : Nat) :
    (v.setWidth 32).extractLsb' (8 * k) 8 = v.extractLsb' (8 * k) 8 := by
  apply BitVec.eq_of_getLsbD_eq
  intro j hj
  by_cases hin : 8 * k + j < 16
  · simp [hj, show 8 * k + j < 32 by omega]
  · simp [BitVec.getLsbD_of_ge v (8 * k + j) (by omega)]

/-- Settles O15 (`execInTurn_byteWriteRows`). -/
theorem wideWritesAreByteWritesInTurn : Obligations.WideWritesAreByteWritesInTurn := by
  refine ⟨fun s p v hp => ?half, fun s p v hp => ?word⟩
  case half =>
    have row : exec (if isAddrPort p then .cfgAddrW16 p v else .cfgDataW16 p v) s =
        writeRequest 2 p (v.setWidth 32) s := by
      split <;> rfl
    have rows : byteWriteRows 2 p (v.setWidth 32) =
        [byteWriteRow p (v.extractLsb' 0 8), byteWriteRow (p + 1#16) (v.extractLsb' 8 8)] := by
      simp only [byteWriteRows, extractLsb'_setWidth]
      simp [List.range_succ]
    rw [row, ← execInTurn_byteWriteRows, rows]
  case word =>
    have row : exec (if isAddrPort p then .cfgAddrW32 p v else .cfgDataW32 p v) s = writeRequest 4 p v s := by
      split <;> rfl
    have rows : byteWriteRows 4 p v =
        [byteWriteRow p (v.extractLsb' 0 8), byteWriteRow (p + 1#16) (v.extractLsb' 8 8),
          byteWriteRow (p + 2#16) (v.extractLsb' 16 8), byteWriteRow (p + 3#16) (v.extractLsb' 24 8)] := by
      simp [byteWriteRows, List.range_succ]
    rw [row, ← execInTurn_byteWriteRows, rows]

/-! ### Data writes without a device (40_config_cycle.md R153) -/

theorem portWrite_noDevice {s : State} (hs : s.NoDevice) {n : Nat} {p : Port} (hp : 0xCFC ≤ p.toNat)
    (hlast : p.toNat + n ≤ 0xD00) (v : Word) : ∃ l, portWrite n p v s = .ok () { s with log := l } := by
  induction n generalizing p v s with
  | zero => exact ⟨s.log, rfl⟩
  | succ n ih =>
    have hdata : isDataPort p = true := (isDataPort_iff p).mpr ⟨hp, by omega⟩
    have hnext : (p + 1#16).toNat = p.toNat + 1 := by bv_omega
    obtain ⟨l, hbyte⟩ := dataWriteByte_noDevice hs p (lowByte v)
    rw [portWrite, portWriteByte_data hdata, hbyte, Res.andThen_ok]
    exact ih (s := { s with log := l }) hs (by omega) (by omega) (v >>> 8)

theorem writeRequest_noDevice {s : State} (hs : s.NoDevice) {n : Nat} {p : Port} (hp : isDataPort p = true)
    (hlast : p.toNat + n ≤ 0xD00) (v : Word) :
    ∃ l, writeRequest n p v s = .next { s with log := l, reply := .done } := by
  obtain ⟨l, h⟩ := portWrite_noDevice hs ((isDataPort_iff p).mp hp).1 hlast v
  exact ⟨l, by rw [writeRequest, h, complete_ok]⟩

/-- Settles O17: every byte step of such a write changes the log alone. -/
theorem dataWriteWithoutDevice : Obligations.DataWriteWithoutDevice := by
  refine fun s hs => ⟨fun p v hp => ?byte, fun p v hp hlast => ?half, fun v => ?word⟩
  case byte =>
    have := (isDataPort_iff p).mp hp
    exact writeRequest_noDevice hs (n := 1) hp (by omega) (v.setWidth 32)
  case half =>
    obtain ⟨hnext, hsucc⟩ := dataPort_succ hp hlast
    have := (isDataPort_iff _).mp hnext
    exact writeRequest_noDevice hs (n := 2) hp (by omega) (v.setWidth 32)
  case word => exact writeRequest_noDevice hs (n := 4) (p := 0xCFC#16) (by decide) (by decide) v

/-! ### Accesses that run past 0xCFF (20_memory.md R76) -/

/-- A read that runs past 0xCFF ends in the fatal of port 0xD00. -/
theorem portRead_overrun {n : Nat} {p : Port} (hp : 0xCFC ≤ p.toNat) (hend : p.toNat ≤ 0xD00)
    (hpast : 0xD00 < p.toNat + n) (s : State) : portRead n p s = raise (.unrecognizedPort 0xD00#16) s := by
  induction n generalizing p with
  | zero => omega
  | succ n ih =>
    by_cases hport : p = 0xD00#16
    · subst hport
      rfl
    · have hdata : isDataPort p = true := (isDataPort_iff p).mpr ⟨hp, by bv_omega⟩
      have hnext : (p + 1#16).toNat = p.toNat + 1 := by bv_omega
      rw [portRead_succ_ok (portReadByte_data hdata s), ih (by omega) (by bv_omega) (by omega)]
      rfl

theorem readRequest_overrun {n : Nat} {p : Port} (hp : isDataPort p = true) (hpast : 0xD00 < p.toNat + n)
    (s : State) :
    readRequest n p s = .next { s with fault := some (.unrecognizedPort 0xD00#16), reply := .stopped } := by
  have := (isDataPort_iff p).mp hp
  rw [readRequest, portRead_overrun (by omega) (by omega) hpast, raise, complete_stop]

/-- The first `m` bytes of a write, then the others. -/
theorem portWrite_add (m k : Nat) (p : Port) (v : Word) (s : State) :
    portWrite (m + k) p v s =
      (portWrite m p v s).andThen fun _ t => portWrite k (p + BitVec.ofNat 16 m) (v >>> (8 * m)) t := by
  induction m generalizing p v s with
  | zero => simp [portWrite]
  | succ m ih =>
    have hport : p + BitVec.ofNat 16 (m + 1) = p + 1#16 + BitVec.ofNat 16 m := by
      rw [Nat.add_comm, BitVec.ofNat_add, BitVec.add_assoc]
    have hdata : v >>> (8 * (m + 1)) = v >>> 8 >>> (8 * m) := by
      rw [← BitVec.shiftRight_add]
      congr 1
      omega
    rw [Nat.add_right_comm, portWrite, portWrite, hport, hdata]
    cases portWriteByte p (lowByte v) s with
    | ok a t => exact ih _ _ t
    | stop t => rfl

/-- A write whose first `m` bytes reach 0xCFF and complete, and which goes on, keeps their effects and ends in the
fatal of port 0xD00. -/
theorem writeRequest_overrun {m : Nat} {p : Port} (hend : p + BitVec.ofNat 16 m = 0xD00#16) {v : Word} {s u : State}
    (h : writeRequest m p v s = .next u) (hdone : u.reply = .done) (k : Nat) :
    writeRequest (m + (k + 1)) p v s =
      .next { u with fault := some (.unrecognizedPort 0xD00#16), reply := .stopped } := by
  rw [writeRequest] at h ⊢
  rw [portWrite_add, hend]
  cases hr : portWrite m p v s with
  | ok a t =>
    rw [hr] at h
    cases h
    rfl
  | stop t =>
    rw [hr] at h
    cases h
    cases hdone

theorem writeRequest_one_lowByte (p : Port) (v : Word) (s : State) :
    writeRequest 1 p ((lowByte v).setWidth 32) s = writeRequest 1 p v s := by
  rw [writeRequest, writeRequest, portWrite, portWrite, lowByte_setWidth]
  rfl

/-- From a data port up to 0xCFF every byte row is a data row. -/
theorem byteWriteRows_data {p : Port} (hp : isDataPort p = true) (v : Word) :
    byteWriteRows (0xD00 - p.toNat) p v =
      (List.range (0xD00 - p.toNat)).map fun k => .cfgDataW8 (p + BitVec.ofNat 16 k) (v.extractLsb' (8 * k) 8) := by
  apply List.map_congr_left
  intro k hk
  have hk := List.mem_range.mp hk
  have hrange := (isDataPort_iff p).mp hp
  have hport : (p + BitVec.ofNat 16 k).toNat = p.toNat + k := by
    rw [BitVec.toNat_add, BitVec.toNat_ofNat]
    omega
  exact if_neg (by rw [isAddrPort_iff]; omega)

/-- A 32-bit access from one of the last three data ports: the `m + 1` bytes up to 0xCFF, then the others. -/
theorem dataPort_tail {p : Port} (hp : p ∈ [0xCFD#16, 0xCFE#16, 0xCFF#16]) :
    isDataPort p = true ∧ ∃ m k, 0xD00 - p.toNat = m + 1 ∧ 4 = m + 1 + (k + 1) ∧
      p + BitVec.ofNat 16 (m + 1) = 0xD00#16 := by
  simp only [List.mem_cons, List.not_mem_nil, or_false] at hp
  rcases hp with rfl | rfl | rfl
  · exact ⟨by decide, 2, 0, rfl, rfl, rfl⟩
  · exact ⟨by decide, 1, 1, rfl, rfl, rfl⟩
  · exact ⟨by decide, 0, 2, rfl, rfl, rfl⟩

/-- Settles O18: the reads by `readRequest_overrun`; the writes by `writeRequest_overrun`, whose first bytes are the
byte requests in turn. -/
theorem dataOverrunIsFatal : Obligations.DataOverrunIsFatal := by
  refine ⟨fun s => ⟨?readHalf, fun p hp => ?readWord⟩, fun s u v hfirst hdone => ?writeHalf,
    fun p hp s u v hfirst hdone => ?writeWord⟩
  case readHalf => exact readRequest_overrun (n := 2) (p := 0xCFF#16) (by decide) (by decide) s
  case readWord =>
    obtain ⟨hdata, m, k, hm, hk, -⟩ := dataPort_tail hp
    exact readRequest_overrun (n := 4) hdata (by omega) s
  case writeHalf =>
    have hbyte : v.extractLsb' 0 8 = lowByte (v.setWidth 32) := (extractLsb'_setWidth v 0).symm
    change writeRequest 1 0xCFF#16 ((v.extractLsb' 0 8).setWidth 32) s = .next u at hfirst
    rw [hbyte, writeRequest_one_lowByte] at hfirst
    exact writeRequest_overrun (m := 1) rfl hfirst hdone 0
  case writeWord =>
    obtain ⟨hdata, m, k, hm, hk, hend⟩ := dataPort_tail hp
    rw [← byteWriteRows_data hdata, hm, execInTurn_byteWriteRows] at hfirst
    change writeRequest 4 p v s = _
    rw [hk]
    exact writeRequest_overrun hend hfirst hdone k

end Sys2Proof.Machine
end

