-- ==== Sys2Proof/Proofs/IdeBar.lean ====
section
/-!
PROOFS. Writes to the IDE controller's BAR4 and the check of the binding they end in (41_device_models.md R183-R186;
43_prdt_irq.md R242, R245; 40_config_cycle.md R147, R148).
-/

namespace Sys2Proof.Machine

/-! ### The four bytes of BAR4 (41_device_models.md R183-R186) -/

theorem ideClass_bar0 : ideClass 0x20#8 = .force1 0x01#8 := rfl

theorem ideClass_bar1 : ideClass 0x21#8 = .plain .raw := rfl

theorem ideClass_bar2 : ideClass 0x22#8 = .zero := rfl

theorem ideClass_bar3 : ideClass 0x23#8 = .bar4Top := rfl

section BarBytes

variable {s : State} {i : SlotIndex} {d : Device} (h : s.Selects i d 8#6) (hk : d.kind = .ideController) (v : Byte)
include h hk

theorem portWriteByte_bar0 :
    portWriteByte 0xCFC#16 v s = .ok () (s.storeByte i d 0x20#8 (v ||| 0x01#8)) := by
  rw [portWriteByte_selects h (by decide) 0x20#8 (by decide), icptWrite_ideController hk, ideClass_bar0]
  rfl

theorem portWriteByte_bar1 : portWriteByte 0xCFD#16 v s = .ok () (s.storeByte i d 0x21#8 v) := by
  rw [portWriteByte_selects h (by decide) 0x21#8 (by decide), icptWrite_ideController hk, ideClass_bar1]
  rfl

theorem portWriteByte_bar2 : portWriteByte 0xCFE#16 v s = .ok () (s.storeByte i d 0x22#8 0#8) := by
  rw [portWriteByte_selects h (by decide) 0x22#8 (by decide), icptWrite_ideController hk, ideClass_bar2]
  rfl

theorem portWriteByte_bar3 : portWriteByte 0xCFF#16 v s = bar4Check (s.storeByte i d 0x23#8 0#8) := by
  rw [portWriteByte_selects h (by decide) 0x23#8 (by decide), icptWrite_ideController hk, ideClass_bar3]
  rfl

end BarBytes

/-- A one-byte data write is its byte step. -/
theorem exec_cfgDataW8_byteStep {p : Port} (hp : isDataPort p = true) (v : Byte) (s : State) :
    exec (.cfgDataW8 p v) s = complete (fun _ => .done) (portWriteByte p v s) := by
  rw [exec_cfgDataW8_eq p v s hp, portWriteByte_data hp]

/-! ### The check of the binding (41_device_models.md R186; 43_prdt_irq.md R242, R245) -/

/-- The ends of a request that checks a base against the live binding: nothing, the overlap refusal, the
rebinding. -/
def checkedOutcome (base : Port) (t : State) : Host.Outcome State Fault Refusal :=
  if t.prdt = some base then .next { t with reply := .done }
  else if base = 0xCF0#16 then
    .next { t with refusal := some .prdtOverlapsConfigPorts, reply := .stopped }
  else
    .next { t with prdt := some base, trace := t.trace ++ rebindEvents t.prdt base, reply := .done }

/-- The check, once the base is known, ends as `checkedOutcome` says. -/
theorem complete_checked (b : Word) (t : State) :
    complete (fun _ => .done) (if some (prdtBase b) = t.prdt then .ok () t else rebind b t.prdt t) =
      checkedOutcome (prdtBase b) t := by
  unfold checkedOutcome
  by_cases hsame : t.prdt = some (prdtBase b)
  · rw [if_pos hsame.symm, if_pos hsame, complete_ok]
  · rw [if_neg (Ne.symm hsame), if_neg hsame]
    rcases rebind_cases b t.prdt t with ⟨hbase, e⟩ | ⟨hbase, e⟩
    · rw [e, if_pos hbase, complete_stop]
    · rw [e, if_neg hbase, complete_ok]
      rfl

theorem complete_bar4Check_populated {t : State} {e : Device} (h : t.slot 9#8 = some e) :
    complete (fun _ => .done) (bar4Check t) = checkedOutcome (prdtBase (bar4Of e.cfg)) t := by
  rw [bar4Check_populated h, complete_checked]

theorem complete_bar4Check_empty {t : State} (h : t.slot 9#8 = none) :
    complete (fun _ => .done) (bar4Check t) =
      checkedOutcome (prdtBase (Config.unplacedBar4 t.draws)) t.drawn := by
  rw [bar4Check_empty h, ← State.drawn_prdt t, complete_checked]

/-! ### Several stores to one slot -/

theorem State.putDevice_putDevice (s : State) (i : SlotIndex) (d e : Device) :
    (s.putDevice i d).putDevice i e = s.putDevice i e := by
  simp [State.putDevice]

/-- A byte stored in a device just placed. -/
theorem State.storeByte_putDevice (s : State) (i : SlotIndex) (d : Device) (o : Offset) (v : Byte) :
    (s.putDevice i d).storeByte i d o v = s.putDevice i ⟨d.kind, cfgSet d.cfg o v⟩ :=
  State.putDevice_putDevice s i d _

theorem State.storeByte_eq_putDevice (s : State) (i : SlotIndex) (d : Device) (o : Offset) (v : Byte) :
    s.storeByte i d o v = s.putDevice i ⟨d.kind, cfgSet d.cfg o v⟩ := rfl

/-- Placing a device keeps the selection of its slot. -/
theorem State.Selects.putDevice {s : State} {i : SlotIndex} {d : Device} {r : BitVec 6} (h : s.Selects i d r)
    (e : Device) : (s.putDevice i e).Selects i e r := by
  obtain ⟨hcyc, hbus, hslot, hreg, -⟩ := h
  exact ⟨hcyc, hbus, hslot, hreg, State.slot_putDevice_same s i e⟩

/-! ### Wide writes of BAR4 (40_config_cycle.md R147, R148) -/

/-- The configuration space after the low half of BAR4 is written. -/
def withBarLow (space : CfgSpace) (v : Word) : CfgSpace :=
  cfgSet (cfgSet space 0x20#8 (lowByte v ||| 0x01#8)) 0x21#8 (lowByte (v >>> 8))

/-- The configuration space after BAR4 is written. -/
def withBar (space : CfgSpace) (v : Word) : CfgSpace :=
  cfgSet (cfgSet (withBarLow space v) 0x22#8 0#8) 0x23#8 0#8

section WideWrites

variable {s : State} {i : SlotIndex} {d : Device} (h : s.Selects i d 8#6) (hk : d.kind = .ideController) (v : Word)
include h hk

theorem portWrite_barLow (n : Nat) :
    portWrite (n + 2) 0xCFC#16 v s =
      portWrite n 0xCFE#16 (v >>> 8 >>> 8) (s.putDevice i ⟨d.kind, withBarLow d.cfg v⟩) := by
  have h1 := h.putDevice ⟨d.kind, cfgSet d.cfg 0x20#8 (lowByte v ||| 0x01#8)⟩
  rw [portWrite, portWriteByte_bar0 h hk, Res.andThen_ok, State.storeByte_eq_putDevice, portWrite,
    show 0xCFC#16 + 1#16 = 0xCFD#16 from rfl, portWriteByte_bar1 h1 hk, Res.andThen_ok, State.storeByte_putDevice]
  rfl

theorem portWrite_bar :
    portWrite 4 0xCFC#16 v s = bar4Check (s.putDevice i ⟨d.kind, withBar d.cfg v⟩) := by
  have h2 := h.putDevice ⟨d.kind, withBarLow d.cfg v⟩
  have h3 := h.putDevice ⟨d.kind, cfgSet (withBarLow d.cfg v) 0x22#8 0#8⟩
  rw [portWrite_barLow h hk v 2, portWrite, portWriteByte_bar2 h2 hk, Res.andThen_ok, State.storeByte_putDevice,
    portWrite, show 0xCFE#16 + 1#16 = 0xCFF#16 from rfl, portWriteByte_bar3 h3 hk, State.storeByte_putDevice]
  cases hr : bar4Check (s.putDevice i ⟨d.kind, withBar d.cfg v⟩) <;> rw [withBar] at hr <;> rw [hr] <;> rfl

end WideWrites

/-! ### The base of BAR4 after a write -/

theorem getElem_cfgSet_ne (space : CfgSpace) {o : Offset} (v : Byte) {n : Nat} (hn : n < 256) (h : o.toNat ≠ n) :
    (cfgSet space o v)[n] = space[n] :=
  Vector.getElem_set_ne o.isLt hn h

/-- The top byte of BAR4 does not enter the base. -/
theorem prdtBase_topByte (space : CfgSpace) (v : Byte) :
    prdtBase (bar4Of (cfgSet space 0x23#8 v)) =
      (space[0x20].setWidth 16 ||| space[0x21].setWidth 16 <<< 8) &&& 0xFFF0#16 := by
  rw [prdtBase_bar4Of, getElem_cfgSet_ne _ _ _ (by decide), getElem_cfgSet_ne _ _ _ (by decide)]

/-- The base after a whole write is that of the written word: the forced bit 0 lies below it. -/
theorem prdtBase_withBar (space : CfgSpace) (v : Word) : prdtBase (bar4Of (withBar space v)) = prdtBase v := by
  have byte0 : (withBar space v)[0x20] = lowByte v ||| 0x01#8 := by simp [withBar, withBarLow, cfgSet]
  have byte1 : (withBar space v)[0x21] = lowByte (v >>> 8) := by simp [withBar, withBarLow, cfgSet]
  rw [prdtBase_bar4Of, byte0, byte1, prdtBase]
  apply BitVec.eq_of_getLsbD_eq
  intro j hj
  simp only [lowByte, BitVec.getLsbD_and, BitVec.getLsbD_or, BitVec.getLsbD_setWidth, BitVec.getLsbD_shiftLeft,
    BitVec.getLsbD_ushiftRight]
  interval_cases j <;> simp

theorem lowByte_ushiftRight (v : Word) : lowByte (v >>> 8) = v.extractLsb' 8 8 :=
  extractLsb'_ushiftRight v 0

/-! ### The obligations -/

/-- Settles O24. -/
theorem ideBarLowBytesWrite : Obligations.IdeBarLowBytesWrite := by
  refine fun s i d v h hk => ⟨?bar0, ?bar1, ?bar2⟩
  case bar0 => rw [exec_cfgDataW8_byteStep (by decide), portWriteByte_bar0 h hk]; rfl
  case bar1 => rw [exec_cfgDataW8_byteStep (by decide), portWriteByte_bar1 h hk]; rfl
  case bar2 => rw [exec_cfgDataW8_byteStep (by decide), portWriteByte_bar2 h hk]; rfl

/-- Settles O25: the slot that is written is the one the check reads. -/
theorem ideBarTopByteWrite : Obligations.IdeBarTopByteWrite := by
  intro s d v h hk
  rw [exec_cfgDataW8_byteStep (by decide), portWriteByte_bar3 h hk,
    complete_bar4Check_populated (State.slot_storeByte_same s 9#8 d 0x23#8 0#8), prdtBase_topByte]
  rfl

/-- Settles O26 (`portWrite_bar`, `prdtBase_withBar`). -/
theorem ideBarDwordWrite : Obligations.IdeBarDwordWrite := by
  intro s d v h hk
  change complete (fun _ => .done) (portWrite 4 0xCFC#16 v s) = _
  rw [portWrite_bar h hk, complete_bar4Check_populated (State.slot_putDevice_same s 9#8 _), prdtBase_withBar, withBar,
    withBarLow, lowByte_ushiftRight]
  rfl

/-- Settles O27 (`portWrite_barLow`). -/
theorem ideBarLowHalfWriteKeepsBinding : Obligations.IdeBarLowHalfWriteKeepsBinding := by
  intro s i d v h hk
  have byte0 : lowByte (v.setWidth 32) = v.extractLsb' 0 8 := extractLsb'_setWidth v 0
  have byte1 : lowByte (v.setWidth 32 >>> 8) = v.extractLsb' 8 8 :=
    (lowByte_ushiftRight _).trans (extractLsb'_setWidth v 1)
  change complete (fun _ => .done) (portWrite 2 0xCFC#16 (v.setWidth 32) s) = _
  rw [portWrite_barLow h hk (v.setWidth 32) 0, withBarLow, byte0, byte1]
  rfl

/-- Settles O59: the store to slot `i` leaves slot 9, which the check reads, as it was. -/
theorem ideBarTopByteWriteOutsideSlotNine : Obligations.IdeBarTopByteWriteOutsideSlotNine := by
  intro s i d v hi h hk stored checked
  have other : (s.storeByte i d 0x23#8 0#8).slot 9#8 = s.slot 9#8 := slot_putDevice_ne s i 9#8 _ hi
  refine ⟨fun e he => ?populated, fun he => ?empty⟩
  case populated =>
    rw [exec_cfgDataW8_byteStep (by decide), portWriteByte_bar3 h hk,
      complete_bar4Check_populated (other.trans he), prdtBase_bar4Of]
    rfl
  case empty =>
    rw [exec_cfgDataW8_byteStep (by decide), portWriteByte_bar3 h hk, complete_bar4Check_empty (other.trans he)]
    rfl

end Sys2Proof.Machine
end
-- ==== Sys2Proof/Proofs/OpenTables.lean ====
section
/-!
PROOFS. Writes at the offsets the spec leaves to the open tables, and writes to a generic device
(41_device_models.md R172, R178, R181, R187, R188, R190).
-/

namespace Sys2Proof.Machine

/-! ### The class of an unnamed offset -/

theorem hostBridgeClass_open {o : Offset}
    (ho : o ∉ [0x04#8, 0x07#8, 0x59#8, 0x5A#8, 0x5B#8, 0x5C#8, 0x5D#8, 0x5E#8, 0x5F#8]) :
    hostBridgeClass o = .plain (disjointMask (Config.hbTable o)) := by
  simp only [List.mem_cons, List.not_mem_nil, or_false, not_or] at ho
  obtain ⟨hcommand, hstatus, hpam⟩ := ho
  have hrange : ¬(0x59 ≤ o.toNat ∧ o.toNat ≤ 0x5F) := fun h => by
    have := mem_pamOffsets h
    tauto
  rw [hostBridgeClass, if_neg hcommand, if_neg hstatus, if_neg hrange]

theorem isaBridgeClass_open {o : Offset} (ho : o ∉ [0x04#8, 0x07#8]) :
    isaBridgeClass o = .plain (isaTable o) := by
  simp only [List.mem_cons, List.not_mem_nil, or_false, not_or] at ho
  obtain ⟨hcommand, hstatus⟩ := ho
  rw [isaBridgeClass, if_neg hcommand, if_neg hstatus]

theorem ideClass_open {o : Offset} (ho : o ∉ [0x04#8, 0x20#8, 0x21#8, 0x22#8, 0x23#8]) :
    ideClass o = .plain (disjointMask (Config.ideTable o)) := by
  simp only [List.mem_cons, List.not_mem_nil, or_false, not_or] at ho
  obtain ⟨hcommand, hbar0, hbar1, hbar2, hbar3⟩ := ho
  rw [ideClass, if_neg hcommand, if_neg hbar0, if_neg hbar1, if_neg hbar2, if_neg hbar3]

/-! ### Disjoint masks (41_device_models.md R188) -/

theorem disjointMask_disjointMask (rule : PlainClass) : disjointMask (disjointMask rule) = disjointMask rule := by
  cases rule with
  | mask w f => simp [disjointMask, BitVec.and_assoc]
  | raw | ro | w1c => rfl

/-- Every entry of the ISA bridge's table has a disjoint mask already. -/
theorem disjointMask_isaTable (o : Offset) : disjointMask (isaTable o) = isaTable o := by
  unfold isaTable
  split
  · cases Config.isaTable o with
    | mask w f => exact disjointMask_disjointMask (.mask w f)
    | raw | ro | w1c => rfl
  · exact disjointMask_disjointMask _

/-- An entry at an offset of the programmable map is RAW, or MASK with disjoint masks (R181). -/
theorem isaTable_programmable {o : Offset} (ho : o ∈ Config.irqMapOffsets) :
    isaTable o = .raw ∨ ∃ w f, w &&& f = 0#8 ∧ isaTable o = .mask w f := by
  rw [isaTable, if_pos ho]
  cases Config.isaTable o with
  | mask w f =>
    refine .inr ⟨w, f &&& ~~~w, ?_, rfl⟩
    rw [BitVec.and_comm, and_not_and_self]
  | raw | ro | w1c => exact .inl rfl

/-! ### Generic devices (41_device_models.md R190) -/

theorem icptWrite_generic {d : Device} {g : Nat} (hk : d.kind = .generic g) (i : SlotIndex) (o : Offset) (v : Byte)
    (s : State) :
    icptWrite i d o v s = .ok () (s.putDevice i ⟨d.kind, genericStore g i d.cfg o v⟩) := by
  obtain ⟨kind, cfg⟩ := d
  cases hk
  rfl

/-! ### The obligations -/

/-- Settles O28: each kind's class at an unnamed offset is its table's entry with a disjoint mask. -/
theorem openTableWrite : Obligations.OpenTableWrite := by
  refine ⟨?writes, fun o => ?tables⟩
  case writes =>
    intro s i d v r p o h hp ho stored result
    have stores : ∀ rule, plainByte (disjointMask rule) (cfgByte d.cfg o) v = result rule := by
      intro rule
      cases rule <;> rfl
    refine ⟨fun hk hopen => ?hostBridge, fun hk hopen => ?isaBridge, fun hk hopen => ?ideController⟩
    case hostBridge =>
      rw [exec_cfgDataW8_plain h hp o ho (icptWrite_hostBridge hk i o v s) (hostBridgeClass_open hopen), stores]
    case isaBridge =>
      rw [exec_cfgDataW8_plain h hp o ho (icptWrite_isaBridge hk i o v s) (isaBridgeClass_open hopen),
        ← disjointMask_isaTable, stores, disjointMask_isaTable]
    case ideController =>
      rw [exec_cfgDataW8_plain h hp o ho (icptWrite_ideController hk i o v s) (ideClass_open hopen), stores]
  case tables =>
    by_cases ho : o ∈ Config.irqMapOffsets
    · exact .inr ⟨ho, isaTable_programmable ho⟩
    · exact .inl ⟨ho, if_neg ho⟩

/-- Settles O29. -/
theorem genericDeviceWrite : Obligations.GenericDeviceWrite := by
  intro s i d g v r p o h hp ho hk
  rw [exec_cfgDataW8_selects h hp o ho, icptWrite_generic hk, complete_ok]
  rfl

end Sys2Proof.Machine
end

