-- ==== Sys2Proof/Proofs/WindowAccesses.lean ====
section
/-!
PROOFS. Window reads that run past 0xFFFFF, the gated window writes, and what of the permission map a window access
looks at (42_shadow_ram.md R218-R226; 20_memory.md R78, R79).
-/

namespace Sys2Proof.Machine

/-! ### Reads past the end of the window (42_shadow_ram.md R222, R223) -/

theorem joinByte_lt {b : Byte} {r : Word} {n : Nat} (h : r.toNat < 2 ^ (8 * n)) :
    (joinByte b r).toNat < 2 ^ (8 * (n + 1)) := by
  have hpow : 2 ^ (8 * (n + 1)) = 2 ^ (8 * n) * 2 ^ 8 := by rw [← Nat.pow_add]; rfl
  have hlow : (b.setWidth 32).toNat < 2 ^ (8 * (n + 1)) := by
    have := b.isLt
    have := Nat.one_le_two_pow (n := 8 * n)
    rw [BitVec.toNat_setWidth, hpow]
    omega
  have hhigh : (r <<< 8).toNat < 2 ^ (8 * (n + 1)) := by
    rw [BitVec.toNat_shiftLeft, Nat.shiftLeft_eq, hpow]
    omega
  rw [joinByte, BitVec.toNat_or]
  exact Nat.or_lt_two_pow hlow hhigh

/-- The bits above the width of a read are 0 (30_encoding.md R101). -/
theorem memRead_lt (n : Nat) (a : Addr) (s : State) : (memRead n a s).toNat < 2 ^ (8 * n) := by
  induction n generalizing a with
  | zero => simp [memRead]
  | succ n ih => exact joinByte_lt (ih _)

/-- A read past the end replies with the read bytes and advances the counter of free values. -/
theorem shadowRead_outside {n : Nat} {a : Addr} (hlast : a.toNat ≤ 0xFFFFF) (hpast : 0x100000 < a.toNat + n)
    (hn : n ≤ 4) (s : State) :
    shadowRead n a s = .next { s with draws := s.draws + 1, reply := .data (memRead n a s) } := by
  rw [shadowRead, afterRead_outside hlast hpast (by omega)]
  rfl

/-- Settles O31 (`memRead_byte`, `memRead_lt`). -/
theorem shadowReadsAtWindowEnd : Obligations.ShadowReadsAtWindowEnd := by
  refine fun s a hlast => ⟨fun hend => ?half, fun htail => ?word⟩
  case half =>
    have hbyte := memRead_byte 2 a s (by omega) (by omega) (by omega) 0 (by omega) (by omega)
    refine ⟨memRead 2 a s, shadowRead_outside hlast (by omega) (by omega) s, ?_, memRead_lt 2 a s⟩
    rw [← hend]
    exact hbyte
  case word =>
    exact ⟨memRead 4 a s, shadowRead_outside hlast (by omega) (by omega) s, fun k hk =>
      memRead_byte 4 a s (by omega) (by omega) (by omega) k (by omega) hk⟩

/-! ### Writes (42_shadow_ram.md R220, R224-R226) -/

/-- A window write changes the window and the log alone, and stores the bytes whose regions allow it. -/
theorem shadowWrite_stores {n : Nat} {a : Addr} (hfirst : 0xC0000 ≤ a.toNat) (hlast : a.toNat ≤ 0xFFFFF)
    (hn : n ≤ 4) (v : Word) (s : State) :
    ∃ m l, shadowWrite n a v s = .next { s with win := m, log := l, reply := .done } ∧
      ∀ x, m.read x =
        if a.toNat ≤ x ∧ x < a.toNat + n ∧ x ≤ 0xFFFFF ∧ s.writeAllowed x = true
        then v.extractLsb' (8 * (x - a.toNat)) 8 else s.win.read x := by
  obtain ⟨m, l, e⟩ := memWrite_eq n a v s
  refine ⟨m, l, by rw [shadowWrite, e], fun x => ?_⟩
  have hread := memWrite_read n a v s (by omega) x
  rw [e] at hread
  rw [show m.read x = _ from hread]
  congr 1
  exact propext ⟨fun ⟨h1, h2, _, h3⟩ => ⟨h1, h2, h3⟩, fun ⟨h1, h2, h3⟩ => ⟨h1, h2, by omega, h3⟩⟩

/-- Settles O32 (`shadowWrite_stores`). -/
theorem shadowWritesAreGatedPerByte : Obligations.ShadowWritesAreGatedPerByte := by
  refine fun s a hfirst hlast => ⟨fun v => ?byte, fun v => ?half, fun v => ?word⟩
  case byte =>
    obtain ⟨m, l, hexec, hread⟩ := shadowWrite_stores (n := 1) hfirst hlast (by omega) (v.setWidth 32) s
    refine ⟨m, l, hexec, fun x => ?_⟩
    have hbyte : (v.setWidth 32).extractLsb' (8 * (a.toNat - a.toNat)) 8 = v := by
      rw [Nat.sub_self]
      exact lowByte_setWidth v
    rw [hread x]
    by_cases hx : x = a.toNat ∧ s.writeAllowed x = true
    · obtain ⟨rfl, hallowed⟩ := hx
      rw [if_pos ⟨by omega, by omega, hlast, hallowed⟩, if_pos ⟨rfl, hallowed⟩, hbyte]
    · rw [if_neg hx, if_neg fun ⟨h1, h2, _, h3⟩ => hx ⟨by omega, h3⟩]
  case half =>
    obtain ⟨m, l, hexec, hread⟩ := shadowWrite_stores (n := 2) hfirst hlast (by omega) (v.setWidth 32) s
    exact ⟨m, l, hexec, fun x => by rw [hread x, extractLsb'_setWidth]⟩
  case word => exact shadowWrite_stores (n := 4) hfirst hlast (by omega) v s

/-! ### What a window access looks at (42_shadow_ram.md R218) -/

/-- A window read does not look at the map. -/
theorem memRead_pam (n : Nat) (a : Addr) (s : State) (m : Vector Nibble 16) :
    memRead n a { s with pam := m } = memRead n a s := by
  induction n generalizing a with
  | zero => rfl
  | succ n ih => rw [memRead, ih]; rfl

theorem shadowRead_pam {n : Nat} {a : Addr} {s t : State} (h : shadowRead n a s = .next t) (m : Vector Nibble 16) :
    shadowRead n a { s with pam := m } = .next { t with pam := m } := by
  cases h
  rw [shadowRead, memRead_pam, afterRead, afterRead]
  split <;> rfl

/-- A window byte write looks at the write bits of the map alone. -/
theorem shadowWriteByte_pam {s : State} {m : Vector Nibble 16}
    (hbits : ∀ k : Fin 16, m[k.val].getLsbD 1 = s.pam[k.val].getLsbD 1) (a : Addr) (v : Byte) :
    shadowWriteByte a v { s with pam := m } = { shadowWriteByte a v s with pam := m } := by
  have hbit : (State.permission { s with pam := m } a).getLsbD 1 = (s.permission a).getLsbD 1 :=
    hbits ⟨(regionOf a).toNat, (regionOf a).isLt⟩
  rw [shadowWriteByte, hbit, shadowWriteByte]
  split <;> rfl

theorem memWrite_pam {n : Nat} {s : State} {m : Vector Nibble 16}
    (hbits : ∀ k : Fin 16, m[k.val].getLsbD 1 = s.pam[k.val].getLsbD 1) (a : Addr) (v : Word) :
    memWrite n a v { s with pam := m } = { memWrite n a v s with pam := m } := by
  induction n generalizing a v s with
  | zero => rfl
  | succ n ih =>
    rw [memWrite, memWrite]
    split
    · obtain ⟨l, e⟩ := shadowWriteByte_eq a (lowByte v) s
      have hsame : (shadowWriteByte a (lowByte v) s).pam = s.pam := by rw [e]
      rw [shadowWriteByte_pam hbits]
      exact ih (by rwa [hsame]) _ _
    · exact ih hbits _ _

theorem shadowWrite_pam {n : Nat} {a : Addr} {v : Word} {s t : State} (h : shadowWrite n a v s = .next t)
    {m : Vector Nibble 16} (hbits : ∀ k : Fin 16, m[k.val].getLsbD 1 = s.pam[k.val].getLsbD 1) :
    shadowWrite n a v { s with pam := m } = .next { t with pam := m } := by
  cases h
  rw [shadowWrite, memWrite_pam hbits]

/-- Settles O33 (`shadowRead_pam`, `shadowWrite_pam`). -/
theorem onlyTheWriteBitIsEnforced : Obligations.OnlyTheWriteBitIsEnforced := by
  refine fun s t m a => ⟨fun i hi h => ?reads, fun hbits v8 v16 v32 i hi h => ?writes⟩
  case reads =>
    simp only [List.mem_cons, List.not_mem_nil, or_false] at hi
    rcases hi with rfl | rfl | rfl <;> exact shadowRead_pam h m
  case writes =>
    simp only [List.mem_cons, List.not_mem_nil, or_false] at hi
    rcases hi with rfl | rfl | rfl <;> exact shadowWrite_pam h hbits

end Sys2Proof.Machine
end

