-- ==== Sys2Proof/Proofs/PrdtForwarding.lean ====
section
/-!
PROOFS. Accesses to the IDE PRDT window inside the live binding (43_prdt_irq.md R246, R247).
-/

namespace Sys2Proof.Machine

/-- Inside the binding the window offset is the distance from its base. -/
theorem windowOffset_eq {b p : Port} (hfirst : b.toNat ≤ p.toNat) :
    windowOffset b p = BitVec.ofNat 4 (p.toNat - b.toNat) := by
  apply BitVec.eq_of_toNat_eq
  rw [windowOffset, BitVec.toNat_setWidth, BitVec.toNat_sub_of_le hfirst, BitVec.toNat_ofNat]

/-- The low bytes of a word fit their width. -/
theorem lowBytes_lt (n : Nat) (v : Word) : (lowBytes n v).toNat < 2 ^ (8 * n) := by
  rw [lowBytes, BitVec.toNat_setWidth]
  exact Nat.lt_of_le_of_lt (Nat.mod_le _ _) (BitVec.isLt _)

section Bound

variable {s : State} {b p : Port} (hb : s.prdt = some b) (hfirst : b.toNat ≤ p.toNat)
  (hlast : p.toNat ≤ b.toNat + 15) (n : Nat)
include hb hfirst hlast

theorem forwardedRead_bound :
    forwardedRead n p s = .next { s with
      draws := s.draws + 1
      reply := .data (lowBytes n (Config.forwardRead s.draws (BitVec.ofNat 4 (p.toNat - b.toNat)) n)) } := by
  have hin : inBinding (some b) p = true := decide_eq_true ⟨hfirst, hlast⟩
  simp only [forwardedRead, hb, hin, if_true, windowOffset_eq hfirst]
  rw [← hb]
  rfl

theorem forwardedWrite_bound (v : Word) :
    forwardedWrite n p v s = .next { s with
      trace := s.trace ++ [.forwardWrite (BitVec.ofNat 4 (p.toNat - b.toNat)) n v]
      reply := .done } := by
  have hin : inBinding (some b) p = true := decide_eq_true ⟨hfirst, hlast⟩
  simp only [forwardedWrite, hb, hin, if_true, windowOffset_eq hfirst]
  rw [← hb]
  rfl

end Bound

/-- Settles O34. -/
theorem prdtReadsAreForwarded : Obligations.PrdtReadsAreForwarded := by
  intro s b p hb hfirst hlast
  exact ⟨forwardedRead_bound hb hfirst hlast 1, forwardedRead_bound hb hfirst hlast 2,
    forwardedRead_bound hb hfirst hlast 4, lowBytes_lt 1 _, lowBytes_lt 2 _⟩

/-- Settles O35. -/
theorem prdtWritesAreForwarded : Obligations.PrdtWritesAreForwarded := by
  intro s b p hb hfirst hlast
  exact ⟨fun v => forwardedWrite_bound hb hfirst hlast 1 (v.setWidth 32),
    fun v => forwardedWrite_bound hb hfirst hlast 2 (v.setWidth 32),
    fun v => forwardedWrite_bound hb hfirst hlast 4 v⟩

end Sys2Proof.Machine
end

