-- ==== Sys2Proof/Proofs/ResetAndAssembly.lean ====
section
/-!
PROOFS. The block reset with any kinds in the fixed slots, the reset before assembly, machine assembly, and the reset
state (70_reset_and_hazards.md R321, R323, R326).
-/

namespace Sys2Proof.Machine

/-- The block with its address register cleared, as a reset begins and an assembly ends. -/
abbrev State.addressCleared (s : State) : State := { s with ca := 0#32, cyc := false }

/-! ### Laying the images -/

/-- A device after the reset of its slot: its image, if it is of the slot's fixed kind (R321). -/
def Device.laid (k : Kind) (image : List Byte) (d : Device) : Device :=
  ⟨d.kind, if d.kind = k then withImage image d.cfg else d.cfg⟩

theorem resetDevice_populated {s : State} {i : SlotIndex} {d : Device} (h : s.slot i = some d) (k : Kind)
    {image : List Byte} {n : Nat} {f : Nat → Byte} (hi : image = imageOf n f) (hn : n ≤ 256) :
    resetDevice i k image n s = .ok () (s.putDevice i (d.laid k image)) := by
  rw [hi]
  exact resetDevice_eq h k f hn

/-- A reset of populated fixed slots lays the three images and goes on to the map and the binding. -/
theorem resetBlock_populated {s : State} {d0 d8 d9 : Device} (h0 : s.slot 0#8 = some d0) (h8 : s.slot 8#8 = some d8)
    (h9 : s.slot 9#8 = some d9) :
    resetBlock s = replayMapAndRemap (fun _ => 0#8)
      (((s.addressCleared.putDevice 0#8 (d0.laid .hostBridge imgHb)).putDevice 8#8
        (d8.laid .isaBridge imgIsa)).putDevice 9#8 (d9.laid .ideController imgIde)) := by
  have h8' : (s.addressCleared.putDevice 0#8 (d0.laid .hostBridge imgHb)).slot 8#8 = some d8 :=
    (slot_putDevice_ne s.addressCleared 0#8 8#8 _ (by decide)).trans h8
  have h9' : ((s.addressCleared.putDevice 0#8 (d0.laid .hostBridge imgHb)).putDevice 8#8
      (d8.laid .isaBridge imgIsa)).slot 9#8 = some d9 :=
    (slot_putDevice_ne _ 8#8 9#8 _ (by decide)).trans ((slot_putDevice_ne s.addressCleared 0#8 9#8 _ (by decide)).trans h9)
  rw [resetBlock, resetDevice_populated (s := s.addressCleared) h0 _ (rfl : imgHb = _) (by omega), Res.andThen_ok,
    resetDevice_populated h8' _ (rfl : imgIsa = _) (by omega), Res.andThen_ok,
    resetDevice_populated h9' _ (rfl : imgIde = _) (by omega), Res.andThen_ok]

/-- An IDE controller that has just got its image selects I/O space at 0xC000. -/
theorem laid_ide_bar4 (d : Device) (h : (d.laid .ideController imgIde).kind = .ideController) :
    (bar4Of (d.laid .ideController imgIde).cfg).getLsbD 0 = true ∧
      prdtBase (bar4Of (d.laid .ideController imgIde).cfg) = 0xC000#16 :=
  imgIde_bar4 d.cfg _ (if_pos h)

/-- Settles O39 (`resetBlock_populated`, `replayZeroMap_eq`). -/
theorem blockReset : Obligations.BlockReset := by
  intro s d0 d8 d9 h0 h8 h9 laid
  rw [exec_ctlReset, resetBlock_populated h0 h8 h9, replayZeroMap_eq (State.slot_putDevice_same _ 9#8 _)
    (laid_ide_bar4 d9)]
  rfl

/-- Settles O40: the copy into slot 0 is refused, after the address register has been cleared. -/
theorem resetBeforeAssemblyIsRefused : Obligations.ResetBeforeAssemblyIsRefused := by
  intro s h
  have hslot : s.addressCleared.slot 0#8 = none := h
  have hcopy : resetDevice 0#8 .hostBridge imgHb 128 s.addressCleared =
      refuse .copyToEmptySlot s.addressCleared := by
    rw [resetDevice, hslot]
    exact copyDefault_empty hslot
  rw [exec_ctlReset, resetBlock, hcopy]
  rfl

/-! ### Machine assembly (70_reset_and_hazards.md R326) -/

/-- A created device with its image: the image over zeros. -/
theorem assemble_eq {d f : Word} (hd : d.toNat ≤ 31) (hf : f.toNat ≤ 7) (k : Kind) {image : List Byte} {n : Nat}
    {g : Nat → Byte} (hi : image = imageOf n g) (hn : n ≤ 256) (s : State) :
    assemble d f k image n s =
      .ok () (s.putDevice (slotOf d f) ⟨k, withImage image (Vector.replicate 256 0)⟩) := by
  have hlong : min n 256 ≤ (imageOf n g).length := by
    rw [imageOf_length]
    omega
  have hcreate : createDevice 0#32 d f k s = _ := createDevice_inTopology hd hf k s
  rw [assemble, hcreate, Res.andThen_ok, hi,
    copyDefault_populated (State.slot_putDevice_same _ _ _) hlong, State.putDevice_putDevice, Nat.min_eq_left hn,
    cfgOverlay_imageOf]

/-- An assembly places the three devices and goes on to the map and the binding. -/
theorem initBlock_eq (s : State) :
    initBlock s = replayMapAndRemap (fun _ => 0#8) (((s.addressCleared.putDevice 0#8
        ⟨.hostBridge, withImage imgHb (Vector.replicate 256 0)⟩).putDevice 8#8
        ⟨.isaBridge, withImage imgIsa (Vector.replicate 256 0)⟩).putDevice 9#8
        ⟨.ideController, withImage imgIde (Vector.replicate 256 0)⟩) := by
  rw [initBlock, assemble_eq (by decide) (by decide) _ (rfl : imgHb = _) (by omega), Res.andThen_ok,
    assemble_eq (by decide) (by decide) _ (rfl : imgIsa = _) (by omega), Res.andThen_ok,
    assemble_eq (by decide) (by decide) _ (rfl : imgIde = _) (by omega), Res.andThen_ok]
  rfl

theorem exec_ctlInit (s : State) : exec .ctlInit s = complete (fun _ => .done) (initBlock s) := rfl

/-- Settles O42 (`initBlock_eq`, `replayZeroMap_ideImage`). -/
theorem machineAssembly : Obligations.MachineAssembly := by
  intro s
  rw [exec_ctlInit, initBlock_eq, replayZeroMap_ideImage ⟨_, State.slot_putDevice_same _ 9#8 _⟩]
  rfl

/-! ### The reset state (70_reset_and_hazards.md R323) -/

/-- An image over zeros is the image with zeros above it (10_state.md R42). -/
theorem withImage_zeros (image : List Byte) : withImage image (Vector.replicate 256 0) = cfgOfImage image := by
  apply Vector.ext
  intro k hk
  simp only [withImage, cfgOfImage, Vector.getElem_ofFn, Vector.getElem_replicate]
  split
  · rfl
  · rw [List.getD_eq_default _ _ (by omega)]

theorem reset_slot9 : State.reset.slot 9#8 = some ⟨.ideController, cfgOfImage imgIde⟩ := by
  simp [State.slot, State.reset]

theorem bar4_reset : bar4 State.reset = 0x0000C001#32 := by
  have byte0 : (cfgOfImage imgIde)[0x20] = 0x01#8 := by simp [cfgOfImage, imgIde, imageOf]
  have byte1 : (cfgOfImage imgIde)[0x21] = 0xC0#8 := by simp [cfgOfImage, imgIde, imageOf]
  have byte2 : (cfgOfImage imgIde)[0x22] = 0x00#8 := by simp [cfgOfImage, imgIde, imageOf]
  have byte3 : (cfgOfImage imgIde)[0x23] = 0x00#8 := by simp [cfgOfImage, imgIde, imageOf]
  rw [bar4_populated reset_slot9, bar4Of, byte0, byte1, byte2, byte3]
  rfl

/-- Settles O43: assembly at power-on (`machineAssembly`) lays the images over zeros (`withImage_zeros`). -/
theorem resetStateIsTheAssembledMachine : Obligations.ResetStateIsTheAssembledMachine := by
  refine ⟨⟨rfl, rfl, fun k => ?_, rfl, rfl, bar4_reset⟩, ?_⟩
  · simp [State.reset]
  · rw [machineAssembly, withImage_zeros, withImage_zeros, withImage_zeros]
    rfl

end Sys2Proof.Machine
end

