-- ==== Sys2Proof/Proofs/Restore.lean ====
section
/-!
PROOFS. A restore whose record matches the populated slots, and the round trip of a save and a restore
(44_control.md R269, R270, R272).
-/

namespace Sys2Proof.Machine

/-! ### The restored store -/

/-- With the populated slots listed, every restored image is the record's. -/
theorem restoredSlots_cfg {r : Record} {s : State} (h : slotsMatch r s) (i : Fin 256) :
    (restoredSlots r s.slots)[i.val].map Device.cfg = r.dev[i.val] := by
  have hi := h i
  simp only [restoredSlots, Vector.getElem_ofFn]
  cases hslot : s.slots[i.val] <;> cases hdev : r.dev[i.val] <;> simp_all

theorem slot9IsIde_iff_kindAt (s : State) : slot9IsIde s = true ↔ s.kindAt 9#8 = some .ideController := by
  rw [State.kindAt]
  cases h : s.slot 9#8 with
  | none => simp [slot9IsIde, h]
  | some d => simp [slot9IsIde_iff h]

/-- A restore up to the remapper: the registers, the images, the map and its notifications. -/
def State.restored (r : Record) (s : State) : State :=
  { s with
    ca := r.addr, cyc := r.cyc, slots := restoredSlots r s.slots
    pam := Vector.ofFn fun k => r.pam[k.val].setWidth 4
    trace := s.trace ++ noticesOfMap (fun k => (r.pam[k]?.getD 0).setWidth 4) }

theorem restored_pam (r : Record) :
    (Vector.ofFn fun k : Fin 16 => (r.pam[k.val]?.getD 0#8).setWidth 4) =
      Vector.ofFn fun k : Fin 16 => r.pam[k.val].setWidth 4 := by
  apply Vector.ext
  intro k hk
  simp

theorem kindAt_restoredSlots (r : Record) (s : State) (k : SlotIndex) :
    (restoredSlots r s.slots)[k.toNat].map Device.kind = s.kindAt k :=
  restoredSlots_kind r s.slots k.isLt

theorem restoreBlock_other {r : Record} {s : State} (hmatch : slotsMatch r s)
    (hkind : s.kindAt 9#8 ≠ some .ideController) : restoreBlock r s = .ok () (s.restored r) := by
  have hslot9 : slot9IsIde { s with ca := r.addr, cyc := r.cyc, slots := restoredSlots r s.slots } = false := by
    rw [Bool.eq_false_iff, Ne, slot9IsIde_iff_kindAt]
    exact fun h => hkind ((kindAt_restoredSlots r s 9#8).symm.trans h)
  rw [restoreBlock, if_pos hmatch, replayMapAndRemap_other _ hslot9, restored_pam]
  rfl

theorem restoreBlock_ide {r : Record} {s : State} (hmatch : slotsMatch r s)
    (hkind : s.kindAt 9#8 = some .ideController) : restoreBlock r s = remap s.prdt (s.restored r) := by
  have hslot9 : slot9IsIde { s with ca := r.addr, cyc := r.cyc, slots := restoredSlots r s.slots } = true := by
    rw [slot9IsIde_iff_kindAt]
    exact (kindAt_restoredSlots r s 9#8).trans hkind
  rw [restoreBlock, if_pos hmatch, replayMapAndRemap_ide _ hslot9, restored_pam]
  rfl

/-- The BAR4 the remapper reads is the record's. -/
theorem slot9_restored {r : Record} {s : State} (hmatch : slotsMatch r s) {space : CfgSpace}
    (hdev : r.dev[9] = some space) : ∃ d, (s.restored r).slot 9#8 = some d ∧ d.cfg = space := by
  have h := restoredSlots_cfg hmatch 9
  exact Option.map_eq_some_iff.mp (h.trans hdev)

/-! ### The other ends of the remapper (43_prdt_irq.md R243, R245) -/

theorem remap_overlaps {s : State} {d : Device} (h : s.slot 9#8 = some d) (old : Option Port)
    (hio : (bar4Of d.cfg).getLsbD 0 = true) (hbase : prdtBase (bar4Of d.cfg) = 0xCF0#16) :
    remap old s = refuse .prdtOverlapsConfigPorts s := by
  rw [remap, bar4_populated h, if_neg (by simp [hio]), rebind, if_pos hbase]

theorem remap_memorySpace {s : State} {d : Device} (h : s.slot 9#8 = some d) (old : Option Port)
    (hmem : (bar4Of d.cfg).getLsbD 0 = false) : remap old s = raise .ideBarMemorySpace s := by
  rw [remap, bar4_populated h, if_pos hmem]

/-! ### The obligations -/

/-- Settles O45: the store is `restoredSlots`; the ends are those of the remapper on the restored BAR4. -/
theorem restoreReloadsTheRecord : Obligations.RestoreReloadsTheRecord := by
  intro s r hmatch
  refine ⟨restoredSlots r s.slots, fun i => ⟨restoredSlots_cfg hmatch i, restoredSlots_kind r s.slots i.isLt⟩,
    fun hkind => ?other, fun space hkind hdev => ?ide⟩
  case other => rw [exec_ctlRestore, restoreBlock_other hmatch hkind]; rfl
  case ide =>
    obtain ⟨d, hslot, rfl⟩ := slot9_restored hmatch hdev
    rw [exec_ctlRestore, restoreBlock_ide hmatch hkind, ← bar4Of_bit0, ← prdtBase_bar4Of]
    refine ⟨fun hio hbase => ?binds, fun hio hbase => ?overlaps, fun hmem => ?memorySpace⟩
    case binds => rw [remap_binds hslot _ hio hbase]; rfl
    case overlaps => rw [remap_overlaps hslot _ hio hbase]; rfl
    case memorySpace => rw [remap_memorySpace hslot _ hmem]; rfl

theorem State.cfgAt_eq (s : State) (i : SlotIndex) (o : Offset) :
    s.cfgAt i o = (s.slots[i.toNat].map Device.cfg).map (cfgByte · o) := by
  rw [Option.map_map]
  rfl

/-- Settles O47: the record is `saveRecord s`, and its restore in `u` ends in the rebinding of
`restoreReloadsTheRecord`. -/
theorem saveRestoreRoundTrip : Obligations.SaveRestoreRoundTrip := by
  intro s u t r d hsave hslots hd hio hbase hkind hrestore
  obtain rfl : saveRecord s = r := by simpa [exec_ctlSave] using hsave
  have hmatch : ∀ i : Fin 256, (saveRecord s).dev[i.val].isSome = u.slots[i.val].isSome := by
    intro i
    rw [saveRecord_dev, Option.isSome_map]
    simpa [State.slot, Nat.mod_eq_of_lt i.isLt] using hslots (BitVec.ofNat 8 i.val)
  have hdev : (saveRecord s).dev[9] = some d.cfg := (saveRecord_dev s 9).trans (congrArg (Option.map Device.cfg) hd)
  obtain ⟨slots, hstore, -, hide⟩ := restoreReloadsTheRecord u (saveRecord s) hmatch
  obtain ⟨hbinds, -, -⟩ := hide d.cfg hkind hdev
  rw [bar4_populated hd] at hbase ⊢
  rw [prdtBase_bar4Of] at hbase ⊢
  rw [hbinds hio hbase] at hrestore
  cases hrestore
  refine ⟨rfl, rfl, rfl, ?pam, fun i o => ?cfg, rfl⟩
  case pam =>
    apply Vector.ext
    intro k hk
    rw [Vector.getElem_ofFn]
    have hentry := saveRecord_pam s ⟨k, hk⟩
    rw [hentry]
    simp
  case cfg =>
    obtain ⟨hcfg, -⟩ := hstore ⟨i.toNat, i.isLt⟩
    rw [State.cfgAt_eq, State.cfgAt_eq]
    exact congrArg (Option.map (cfgByte · o)) (hcfg.trans (saveRecord_dev s ⟨i.toNat, i.isLt⟩))

end Sys2Proof.Machine
end
